-- ==== Sys2Proof/Word.lean ====
section
/-! DEFINITION. The word types of the machine and nothing else: the widths of `00_scope.md` R4 and R8 (byte, halfword,
word, doubleword) and the 4-bit numbers that name registers and condition codes. -/

namespace Sys2Proof

/-- A storage byte, 8 bits (`00_scope.md` R8). -/
abbrev Byte := BitVec 8

/-- A halfword, 2 bytes (R8). -/
abbrev Half := BitVec 16

/-- A word, 4 bytes (R8): the width of an access register and of a 32-bit operand. -/
abbrev Word := BitVec 32

/-- A doubleword, 8 bytes (R8): the width of a general register and of an address. -/
abbrev Dword := BitVec 64

/-- The number of a general or access register, 0 to 15: the 4-bit R, X and B fields of an instruction
(`10_state.md` R10, R12). -/
abbrev Reg := BitVec 4

/-- A condition code, 0 to 3 (`10_state.md` R14). -/
abbrev Cc := BitVec 2

end Sys2Proof
end

