-- ==== Sys2Proof/Config.lean ====
section
/-! DEFINITION. What the spec leaves to the implementation and what it leaves open: the access kinds and causes, the free
values (opaque constants without a body), what a byte of storage that nothing has written reads as, and the assigned
storage locations of a program interruption. -/

namespace Sys2Proof

/-- The kind of a storage access: `kind` of `mem_admits(addr, n, kind)` (`20_memory.md` R44). -/
inductive AccessKind where
  | fetch
  | store
  deriving DecidableEq, Repr, Inhabited

/-- Which of the access exceptions of `60_exceptions.md` R212 a storage reference that is not admitted raises: protection
(0004), addressing (0005), or one of the 13 exceptions of translation, by its place in `translationCodes`. -/
inductive AccessCause where
  | protection
  | addressing
  | translation (which : Fin 13)
  deriving DecidableEq, Repr, Inhabited

/-- The interruption codes of the translation row of R212: 0010, 0011, 0038 to 003B, 0028 to 002D, 0012. -/
def translationCodes : Vector Half 13 :=
  #v[0x0010, 0x0011, 0x0038, 0x0039, 0x003A, 0x003B, 0x0028, 0x0029, 0x002A, 0x002B, 0x002C, 0x002D, 0x0012]

/-- FREE VALUE (log entry 5). R44 and R212 leave open which access exception an address that is not admitted raises
("depends on state this spec does not model"): any of R212's, chosen afresh at every interruption. The arguments are the
number of interruptions taken so far, the kind of access and the byte address that was not admitted. -/
opaque Config.accessCause : Nat → AccessKind → Dword → AccessCause

/-- FREE VALUE (log entry 6). When the first halfword of an instruction cannot be fetched its length is unknown, and R212
says only that the instruction-length code is 1, 2 or 3: this value plus one. The argument is the number of interruptions
taken so far. -/
opaque Config.unreadHalfwords : Nat → Fin 3

/-- What a byte of storage reads as when nothing has written it. DESIGN CHOICE (log entry 2): the spec gives no contents
(`10_state.md` R25 makes the launch memory a parameter), the model takes zero. -/
def Config.unlistedByte : Byte := 0

/-! The assigned storage locations of a program interruption (`60_exceptions.md` R221; PRESUMED there as general
knowledge, log entry 4). -/

/-- Location 141 (hex 8D): the instruction-length code. -/
def Config.ilcLocation : Nat := 141

/-- Locations 142 and 143 (hex 8E-8F): the interruption code. -/
def Config.codeLocation : Nat := 142

/-- Locations 168 to 175 (hex A8-AF): the failing address of a translation exception. -/
def Config.failingAddressLocation : Nat := 168

/-- Locations 336 to 351 (hex 150-15F): the program old PSW. -/
def Config.oldPswLocation : Nat := 336

/-- Locations 464 to 479 (hex 1D0-1DF): the program new PSW. -/
def Config.newPswLocation : Nat := 464

end Sys2Proof
end

