-- ==== Sys2Proof/Syntax.lean ====
section
/-! DEFINITION. The instructions: one constructor per row of `spec/opcode_table.json`, with the operands of its syntax
line (`30_encoding.md` R70, R71). A displacement or immediate is the number the spec says it is: a 12-bit displacement an
unsigned integer (R80), a 20-bit displacement and the immediate of AHI and AGHI signed ones (R81, R85); that it fits its
field is `Instr.wellFormed`'s to check. An X or B operand that is 0 names no register (`10_state.md` R27). -/

namespace Sys2Proof

/-- The 51 instructions of `00_scope.md` R3. -/
inductive Instr where
  /-- ADD, `AR R1,R2` [RR] (R102). -/
  | ar (r1 r2 : Reg)
  /-- ADD, `AGR R1,R2` [RRE] (R103). -/
  | agr (r1 r2 : Reg)
  /-- ADD, `AGFR R1,R2` [RRE] (R104). -/
  | agfr (r1 r2 : Reg)
  /-- ADD, `A R1,D2(X2,B2)` [RX] (R105). -/
  | a (r1 x2 b2 : Reg) (d2 : Nat)
  /-- ADD, `AY R1,D2(X2,B2)` [RXY] (R106). -/
  | ay (r1 x2 b2 : Reg) (d2 : Int)
  /-- ADD, `AG R1,D2(X2,B2)` [RXY] (R107). -/
  | ag (r1 x2 b2 : Reg) (d2 : Int)
  /-- ADD, `AGF R1,D2(X2,B2)` [RXY] (R108). -/
  | agf (r1 x2 b2 : Reg) (d2 : Int)
  /-- ADD HALFWORD, `AH R1,D2(X2,B2)` [RX] (R113). -/
  | ah (r1 x2 b2 : Reg) (d2 : Nat)
  /-- ADD HALFWORD, `AHY R1,D2(X2,B2)` [RXY] (R114). -/
  | ahy (r1 x2 b2 : Reg) (d2 : Int)
  /-- ADD HALFWORD IMMEDIATE, `AHI R1,I2` [RI] (R115). -/
  | ahi (r1 : Reg) (i2 : Int)
  /-- ADD HALFWORD IMMEDIATE, `AGHI R1,I2` [RI] (R116). -/
  | aghi (r1 : Reg) (i2 : Int)
  /-- ADD LOGICAL, `ALR R1,R2` [RR] (R120). -/
  | alr (r1 r2 : Reg)
  /-- ADD LOGICAL, `ALGR R1,R2` [RRE] (R121). -/
  | algr (r1 r2 : Reg)
  /-- ADD LOGICAL, `ALGFR R1,R2` [RRE] (R122). -/
  | algfr (r1 r2 : Reg)
  /-- ADD LOGICAL, `AL R1,D2(X2,B2)` [RX] (R123). -/
  | al (r1 x2 b2 : Reg) (d2 : Nat)
  /-- ADD LOGICAL, `ALY R1,D2(X2,B2)` [RXY] (R124). -/
  | aly (r1 x2 b2 : Reg) (d2 : Int)
  /-- ADD LOGICAL, `ALG R1,D2(X2,B2)` [RXY] (R125). -/
  | alg (r1 x2 b2 : Reg) (d2 : Int)
  /-- ADD LOGICAL, `ALGF R1,D2(X2,B2)` [RXY] (R126). -/
  | algf (r1 x2 b2 : Reg) (d2 : Int)
  /-- ADD LOGICAL WITH CARRY, `ALCR R1,R2` [RRE] (R131). -/
  | alcr (r1 r2 : Reg)
  /-- ADD LOGICAL WITH CARRY, `ALCGR R1,R2` [RRE] (R132). -/
  | alcgr (r1 r2 : Reg)
  /-- ADD LOGICAL WITH CARRY, `ALC R1,D2(X2,B2)` [RXY] (R133). -/
  | alc (r1 x2 b2 : Reg) (d2 : Int)
  /-- ADD LOGICAL WITH CARRY, `ALCG R1,D2(X2,B2)` [RXY] (R134). -/
  | alcg (r1 x2 b2 : Reg) (d2 : Int)
  /-- AND, `NR R1,R2` [RR] (R141). -/
  | nr (r1 r2 : Reg)
  /-- AND, `NGR R1,R2` [RRE] (R142). -/
  | ngr (r1 r2 : Reg)
  /-- AND, `N R1,D2(X2,B2)` [RX] (R143). -/
  | n (r1 x2 b2 : Reg) (d2 : Nat)
  /-- AND, `NY R1,D2(X2,B2)` [RXY] (R144). -/
  | ny (r1 x2 b2 : Reg) (d2 : Int)
  /-- AND, `NG R1,D2(X2,B2)` [RXY] (R145). -/
  | ng (r1 x2 b2 : Reg) (d2 : Int)
  /-- AND, `NI D1(B1),I2` [SI] (R146). -/
  | ni (b1 : Reg) (d1 : Nat) (i2 : Byte)
  /-- CIPHER MESSAGE, `KM R1,R2` [RRE] (R150). -/
  | km (r1 r2 : Reg)
  /-- CIPHER MESSAGE WITH CHAINING, `KMC R1,R2` [RRE] (R150). -/
  | kmc (r1 r2 : Reg)
  /-- COMPARE, `CR R1,R2` [RR] (R156). -/
  | cr (r1 r2 : Reg)
  /-- COMPARE, `CGR R1,R2` [RRE] (R157). -/
  | cgr (r1 r2 : Reg)
  /-- COMPARE, `CGFR R1,R2` [RRE] (R158). -/
  | cgfr (r1 r2 : Reg)
  /-- COMPARE, `C R1,D2(X2,B2)` [RX] (R159). -/
  | c (r1 x2 b2 : Reg) (d2 : Nat)
  /-- COMPARE, `CY R1,D2(X2,B2)` [RXY] (R160). -/
  | cy (r1 x2 b2 : Reg) (d2 : Int)
  /-- COMPARE, `CG R1,D2(X2,B2)` [RXY] (R161). -/
  | cg (r1 x2 b2 : Reg) (d2 : Int)
  /-- COMPARE, `CGF R1,D2(X2,B2)` [RXY] (R162). -/
  | cgf (r1 x2 b2 : Reg) (d2 : Int)
  /-- COMPARE AND FORM CODEWORD, `CFC D2(B2)` [S] (R165). -/
  | cfc (b2 : Reg) (d2 : Nat)
  /-- INSERT PROGRAM MASK, `IPM R1` [RRE] (R170). -/
  | ipm (r1 : Reg)
  /-- LOAD, `LR R1,R2` [RR] (R175). -/
  | lr (r1 r2 : Reg)
  /-- LOAD, `LGR R1,R2` [RRE] (R176). -/
  | lgr (r1 r2 : Reg)
  /-- LOAD, `LGFR R1,R2` [RRE] (R177). -/
  | lgfr (r1 r2 : Reg)
  /-- LOAD, `L R1,D2(X2,B2)` [RX] (R178). -/
  | l (r1 x2 b2 : Reg) (d2 : Nat)
  /-- LOAD, `LY R1,D2(X2,B2)` [RXY] (R179). -/
  | ly (r1 x2 b2 : Reg) (d2 : Int)
  /-- LOAD, `LG R1,D2(X2,B2)` [RXY] (R180). -/
  | lg (r1 x2 b2 : Reg) (d2 : Int)
  /-- LOAD, `LGF R1,D2(X2,B2)` [RXY] (R181). -/
  | lgf (r1 x2 b2 : Reg) (d2 : Int)
  /-- LOAD ACCESS MULTIPLE, `LAM R1,R3,D2(B2)` [RS] (R191). -/
  | lam (r1 r3 b2 : Reg) (d2 : Nat)
  /-- LOAD ACCESS MULTIPLE, `LAMY R1,R3,D2(B2)` [RSY] (R192). -/
  | lamy (r1 r3 b2 : Reg) (d2 : Int)
  /-- LOAD ADDRESS, `LA R1,D2(X2,B2)` [RX] (R196). -/
  | la (r1 x2 b2 : Reg) (d2 : Nat)
  /-- LOAD ADDRESS, `LAY R1,D2(X2,B2)` [RXY] (R197). -/
  | lay (r1 x2 b2 : Reg) (d2 : Int)
  /-- LOAD ADDRESS EXTENDED, `LAE R1,D2(X2,B2)` [RX] (R203). -/
  | lae (r1 x2 b2 : Reg) (d2 : Nat)
  deriving DecidableEq, Repr

/-- The length of an instruction in bytes, `ilen` (`30_encoding.md` R73 to R84). -/
def Instr.length : Instr → Nat
  | .ar _ _ => 2
  | .agr _ _ => 4
  | .agfr _ _ => 4
  | .a _ _ _ _ => 4
  | .ay _ _ _ _ => 6
  | .ag _ _ _ _ => 6
  | .agf _ _ _ _ => 6
  | .ah _ _ _ _ => 4
  | .ahy _ _ _ _ => 6
  | .ahi _ _ => 4
  | .aghi _ _ => 4
  | .alr _ _ => 2
  | .algr _ _ => 4
  | .algfr _ _ => 4
  | .al _ _ _ _ => 4
  | .aly _ _ _ _ => 6
  | .alg _ _ _ _ => 6
  | .algf _ _ _ _ => 6
  | .alcr _ _ => 4
  | .alcgr _ _ => 4
  | .alc _ _ _ _ => 6
  | .alcg _ _ _ _ => 6
  | .nr _ _ => 2
  | .ngr _ _ => 4
  | .n _ _ _ _ => 4
  | .ny _ _ _ _ => 6
  | .ng _ _ _ _ => 6
  | .ni _ _ _ => 4
  | .km _ _ => 4
  | .kmc _ _ => 4
  | .cr _ _ => 2
  | .cgr _ _ => 4
  | .cgfr _ _ => 4
  | .c _ _ _ _ => 4
  | .cy _ _ _ _ => 6
  | .cg _ _ _ _ => 6
  | .cgf _ _ _ _ => 6
  | .cfc _ _ => 4
  | .ipm _ => 4
  | .lr _ _ => 2
  | .lgr _ _ => 4
  | .lgfr _ _ => 4
  | .l _ _ _ _ => 4
  | .ly _ _ _ _ => 6
  | .lg _ _ _ _ => 6
  | .lgf _ _ _ _ => 6
  | .lam _ _ _ _ => 4
  | .lamy _ _ _ _ => 6
  | .la _ _ _ _ => 4
  | .lay _ _ _ _ => 6
  | .lae _ _ _ _ => 4

end Sys2Proof
end

