-- ==== Sys2Proof/Decode.lean ====
section
/-! DEFINITION. The decoder, total on any bytes and rejecting by name, and after it the encoder, both from the layouts of
`30_encoding.md` R72 to R84 and the opcode map R86. -/

namespace Sys2Proof

/-- Why bytes are no instruction of the table. Each reason turns into a refusal, never an operation exception
(`30_encoding.md` R88). -/
inductive DecodeError where
  /-- Fewer bytes than the first byte says the instruction has (R73). -/
  | tooShort (bytes : Nat)
  /-- An 8-bit operation code that is not in R86. -/
  | unknownOpcode (op : BitVec 8)
  /-- A 16-bit operation code that is not in R86. -/
  | unknownLongOpcode (op : BitVec 16)
  /-- An operation code in two parts whose second part is not in R86. -/
  | unknownSplitOpcode (op : BitVec 8) (op2 : BitVec 8)
  deriving DecidableEq, Repr

/-- The `len` bits of `w` that start at bit `a`, bit 0 the leftmost (`30_encoding.md` R72: field a-b of an L-bit
instruction is `w[L-1-a : L-1-b]`). -/
def bitField (w : BitVec n) (a len : Nat) : BitVec len := w.extractLsb' (n - a - len) len

/-- The length in bytes that bits 0-1 of the first byte give: 00 is 2, 01 and 10 are 4, 11 is 6 (R73). -/
def instrLength (first : Byte) : Nat :=
  if bitField first 0 2 = 0 then 2 else if bitField first 0 2 = 3 then 6 else 4

/-- RR: Op 0-7, R1 8-11, R2 12-15 (R74). -/
def decodeRR (w : Half) : Except DecodeError Instr :=
  let op := bitField w 0 8
  let r1 := bitField w 8 4
  let r2 := bitField w 12 4
  if op = 0x1A then .ok (.ar r1 r2)
  else if op = 0x1E then .ok (.alr r1 r2)
  else if op = 0x14 then .ok (.nr r1 r2)
  else if op = 0x19 then .ok (.cr r1 r2)
  else if op = 0x18 then .ok (.lr r1 r2)
  else .error (.unknownOpcode op)

/-- RRE: Op 0-15, R1 24-27, R2 28-31 (R75). Bits 16-23, and IPM's 28-31, are not looked at (R87). -/
def decodeRRE (w : Word) : Except DecodeError Instr :=
  let op := bitField w 0 16
  let r1 := bitField w 24 4
  let r2 := bitField w 28 4
  if op = 0xB908 then .ok (.agr r1 r2)
  else if op = 0xB918 then .ok (.agfr r1 r2)
  else if op = 0xB90A then .ok (.algr r1 r2)
  else if op = 0xB91A then .ok (.algfr r1 r2)
  else if op = 0xB998 then .ok (.alcr r1 r2)
  else if op = 0xB988 then .ok (.alcgr r1 r2)
  else if op = 0xB980 then .ok (.ngr r1 r2)
  else if op = 0xB92E then .ok (.km r1 r2)
  else if op = 0xB92F then .ok (.kmc r1 r2)
  else if op = 0xB920 then .ok (.cgr r1 r2)
  else if op = 0xB930 then .ok (.cgfr r1 r2)
  else if op = 0xB222 then .ok (.ipm r1)
  else if op = 0xB904 then .ok (.lgr r1 r2)
  else if op = 0xB914 then .ok (.lgfr r1 r2)
  else if op = 0xB21A then .ok (.cfc (bitField w 16 4) (bitField w 20 12).toNat)
  else .error (.unknownLongOpcode op)

/-- RI: Op 0-7, R1 8-11, Op2 12-15, I2 16-31 (R78). -/
def decodeRI (w : Word) : Except DecodeError Instr :=
  let r1 := bitField w 8 4
  let op2 := bitField w 12 4
  let i2 := (bitField w 16 16).toInt
  if op2 = 0xA then .ok (.ahi r1 i2)
  else if op2 = 0xB then .ok (.aghi r1 i2)
  else .error (.unknownSplitOpcode (bitField w 0 8) (op2.setWidth 8))

/-- RX and RS: Op 0-7, R1 8-11, X2 or R3 12-15, B2 16-19, D2 20-31 (R76, R82); and SI: Op 0-7, I2 8-15, B1 16-19,
D1 20-31 (R79). -/
def decodeRX (w : Word) : Except DecodeError Instr :=
  let op := bitField w 0 8
  let r1 := bitField w 8 4
  let x2 := bitField w 12 4
  let b2 := bitField w 16 4
  let d2 := (bitField w 20 12).toNat
  if op = 0x5A then .ok (.a r1 x2 b2 d2)
  else if op = 0x4A then .ok (.ah r1 x2 b2 d2)
  else if op = 0x5E then .ok (.al r1 x2 b2 d2)
  else if op = 0x54 then .ok (.n r1 x2 b2 d2)
  else if op = 0x59 then .ok (.c r1 x2 b2 d2)
  else if op = 0x58 then .ok (.l r1 x2 b2 d2)
  else if op = 0x41 then .ok (.la r1 x2 b2 d2)
  else if op = 0x51 then .ok (.lae r1 x2 b2 d2)
  else if op = 0x9A then .ok (.lam r1 x2 b2 d2)
  else if op = 0x94 then .ok (.ni b2 d2 (bitField w 8 8))
  else .error (.unknownOpcode op)

/-- The 20-bit signed displacement DH2 ‖ DL2 of RXY and RSY: DL2 20-31, DH2 32-39 (R77, R81, R83). -/
def longDisplacement (w : BitVec 48) : Int := (bitField w 32 8 ++ bitField w 20 12).toInt

/-- RXY with Op E3: R1 8-11, X2 12-15, B2 16-19, Op2 40-47 (R77). -/
def decodeRXY (w : BitVec 48) : Except DecodeError Instr :=
  let op2 := bitField w 40 8
  let r1 := bitField w 8 4
  let x2 := bitField w 12 4
  let b2 := bitField w 16 4
  let d2 := longDisplacement w
  if op2 = 0x5A then .ok (.ay r1 x2 b2 d2)
  else if op2 = 0x08 then .ok (.ag r1 x2 b2 d2)
  else if op2 = 0x18 then .ok (.agf r1 x2 b2 d2)
  else if op2 = 0x7A then .ok (.ahy r1 x2 b2 d2)
  else if op2 = 0x5E then .ok (.aly r1 x2 b2 d2)
  else if op2 = 0x0A then .ok (.alg r1 x2 b2 d2)
  else if op2 = 0x1A then .ok (.algf r1 x2 b2 d2)
  else if op2 = 0x98 then .ok (.alc r1 x2 b2 d2)
  else if op2 = 0x88 then .ok (.alcg r1 x2 b2 d2)
  else if op2 = 0x54 then .ok (.ny r1 x2 b2 d2)
  else if op2 = 0x80 then .ok (.ng r1 x2 b2 d2)
  else if op2 = 0x59 then .ok (.cy r1 x2 b2 d2)
  else if op2 = 0x20 then .ok (.cg r1 x2 b2 d2)
  else if op2 = 0x30 then .ok (.cgf r1 x2 b2 d2)
  else if op2 = 0x58 then .ok (.ly r1 x2 b2 d2)
  else if op2 = 0x04 then .ok (.lg r1 x2 b2 d2)
  else if op2 = 0x14 then .ok (.lgf r1 x2 b2 d2)
  else if op2 = 0x71 then .ok (.lay r1 x2 b2 d2)
  else .error (.unknownSplitOpcode 0xE3 op2)

/-- RSY with Op EB: R1 8-11, R3 12-15, B2 16-19, Op2 40-47 (R83). -/
def decodeRSY (w : BitVec 48) : Except DecodeError Instr :=
  let op2 := bitField w 40 8
  if op2 = 0x9A then .ok (.lamy (bitField w 8 4) (bitField w 12 4) (bitField w 16 4) (longDisplacement w))
  else .error (.unknownSplitOpcode 0xEB op2)

/-- A 4-byte instruction: B9 and B2 have a 16-bit operation code, A7 a split one, the rest an 8-bit one (R86). -/
def decodeWord (w : Word) : Except DecodeError Instr :=
  if bitField w 0 8 = 0xB9 ∨ bitField w 0 8 = 0xB2 then decodeRRE w
  else if bitField w 0 8 = 0xA7 then decodeRI w
  else decodeRX w

/-- A 6-byte instruction: E3 and EB have a split operation code (R86). -/
def decodeTriple (w : BitVec 48) : Except DecodeError Instr :=
  if bitField w 0 8 = 0xE3 then decodeRXY w
  else if bitField w 0 8 = 0xEB then decodeRSY w
  else .error (.unknownOpcode (bitField w 0 8))

/-- The instruction at the front of a list of bytes, the byte at the lowest address first. Any further bytes are not
looked at. -/
def decode : List Byte → Except DecodeError Instr
  | [] => .error (.tooShort 0)
  | b0 :: rest =>
    if instrLength b0 = 2 then
      match rest with
      | b1 :: _ => decodeRR (b0 ++ b1)
      | _ => .error (.tooShort (rest.length + 1))
    else if instrLength b0 = 4 then
      match rest with
      | b1 :: b2 :: b3 :: _ => decodeWord (b0 ++ b1 ++ b2 ++ b3)
      | _ => .error (.tooShort (rest.length + 1))
    else
      match rest with
      | b1 :: b2 :: b3 :: b4 :: b5 :: _ => decodeTriple (b0 ++ b1 ++ b2 ++ b3 ++ b4 ++ b5)
      | _ => .error (.tooShort (rest.length + 1))

/-- RR from its fields (R74). -/
def packRR (op : BitVec 8) (r1 r2 : Reg) : Half := op ++ r1 ++ r2

/-- RRE from its fields, zeros in the unassigned bits 16-23 (R75, R87). -/
def packRRE (op : BitVec 16) (r1 r2 : Reg) : Word := op ++ (0 : Byte) ++ r1 ++ r2

/-- RX, and RS with R3 in the place of X2, from the fields (R76, R82). -/
def packRX (op : BitVec 8) (r1 x2 b2 : Reg) (d2 : Nat) : Word := op ++ r1 ++ x2 ++ b2 ++ BitVec.ofNat 12 d2

/-- RXY, and RSY with R3 in the place of X2: the low 12 bits of the displacement are DL2, the high 8 are DH2 (R77, R81,
R83). -/
def packRXY (op : BitVec 8) (r1 x2 b2 : Reg) (d2 : Int) (op2 : BitVec 8) : BitVec 48 :=
  op ++ r1 ++ x2 ++ b2 ++ bitField (BitVec.ofInt 20 d2) 8 12 ++ bitField (BitVec.ofInt 20 d2) 0 8 ++ op2

/-- RI from its fields (R78). -/
def packRI (op : BitVec 8) (r1 : Reg) (op2 : BitVec 4) (i2 : Int) : Word := op ++ r1 ++ op2 ++ BitVec.ofInt 16 i2

/-- SI from its fields (R79). -/
def packSI (op : BitVec 8) (i2 : Byte) (b1 : Reg) (d1 : Nat) : Word := op ++ i2 ++ b1 ++ BitVec.ofNat 12 d1

/-- S from its fields (R84). -/
def packS (op : BitVec 16) (b2 : Reg) (d2 : Nat) : Word := op ++ b2 ++ BitVec.ofNat 12 d2

/-- The two bytes of a halfword, leftmost first (R72). -/
def halfBytes (w : Half) : List Byte := [bitField w 0 8, bitField w 8 8]

/-- The four bytes of a word, leftmost first (R72). -/
def wordBytes (w : Word) : List Byte := [bitField w 0 8, bitField w 8 8, bitField w 16 8, bitField w 24 8]

/-- The six bytes of a 48-bit instruction, leftmost first (R72). -/
def tripleBytes (w : BitVec 48) : List Byte :=
  [bitField w 0 8, bitField w 8 8, bitField w 16 8, bitField w 24 8, bitField w 32 8, bitField w 40 8]

/-- The bytes of a well-formed instruction, in storage order (R86). -/
def encode : Instr → List Byte
  | .ar r1 r2 => halfBytes (packRR 0x1A r1 r2)
  | .agr r1 r2 => wordBytes (packRRE 0xB908 r1 r2)
  | .agfr r1 r2 => wordBytes (packRRE 0xB918 r1 r2)
  | .a r1 x2 b2 d2 => wordBytes (packRX 0x5A r1 x2 b2 d2)
  | .ay r1 x2 b2 d2 => tripleBytes (packRXY 0xE3 r1 x2 b2 d2 0x5A)
  | .ag r1 x2 b2 d2 => tripleBytes (packRXY 0xE3 r1 x2 b2 d2 0x08)
  | .agf r1 x2 b2 d2 => tripleBytes (packRXY 0xE3 r1 x2 b2 d2 0x18)
  | .ah r1 x2 b2 d2 => wordBytes (packRX 0x4A r1 x2 b2 d2)
  | .ahy r1 x2 b2 d2 => tripleBytes (packRXY 0xE3 r1 x2 b2 d2 0x7A)
  | .ahi r1 i2 => wordBytes (packRI 0xA7 r1 0xA i2)
  | .aghi r1 i2 => wordBytes (packRI 0xA7 r1 0xB i2)
  | .alr r1 r2 => halfBytes (packRR 0x1E r1 r2)
  | .algr r1 r2 => wordBytes (packRRE 0xB90A r1 r2)
  | .algfr r1 r2 => wordBytes (packRRE 0xB91A r1 r2)
  | .al r1 x2 b2 d2 => wordBytes (packRX 0x5E r1 x2 b2 d2)
  | .aly r1 x2 b2 d2 => tripleBytes (packRXY 0xE3 r1 x2 b2 d2 0x5E)
  | .alg r1 x2 b2 d2 => tripleBytes (packRXY 0xE3 r1 x2 b2 d2 0x0A)
  | .algf r1 x2 b2 d2 => tripleBytes (packRXY 0xE3 r1 x2 b2 d2 0x1A)
  | .alcr r1 r2 => wordBytes (packRRE 0xB998 r1 r2)
  | .alcgr r1 r2 => wordBytes (packRRE 0xB988 r1 r2)
  | .alc r1 x2 b2 d2 => tripleBytes (packRXY 0xE3 r1 x2 b2 d2 0x98)
  | .alcg r1 x2 b2 d2 => tripleBytes (packRXY 0xE3 r1 x2 b2 d2 0x88)
  | .nr r1 r2 => halfBytes (packRR 0x14 r1 r2)
  | .ngr r1 r2 => wordBytes (packRRE 0xB980 r1 r2)
  | .n r1 x2 b2 d2 => wordBytes (packRX 0x54 r1 x2 b2 d2)
  | .ny r1 x2 b2 d2 => tripleBytes (packRXY 0xE3 r1 x2 b2 d2 0x54)
  | .ng r1 x2 b2 d2 => tripleBytes (packRXY 0xE3 r1 x2 b2 d2 0x80)
  | .ni b1 d1 i2 => wordBytes (packSI 0x94 i2 b1 d1)
  | .km r1 r2 => wordBytes (packRRE 0xB92E r1 r2)
  | .kmc r1 r2 => wordBytes (packRRE 0xB92F r1 r2)
  | .cr r1 r2 => halfBytes (packRR 0x19 r1 r2)
  | .cgr r1 r2 => wordBytes (packRRE 0xB920 r1 r2)
  | .cgfr r1 r2 => wordBytes (packRRE 0xB930 r1 r2)
  | .c r1 x2 b2 d2 => wordBytes (packRX 0x59 r1 x2 b2 d2)
  | .cy r1 x2 b2 d2 => tripleBytes (packRXY 0xE3 r1 x2 b2 d2 0x59)
  | .cg r1 x2 b2 d2 => tripleBytes (packRXY 0xE3 r1 x2 b2 d2 0x20)
  | .cgf r1 x2 b2 d2 => tripleBytes (packRXY 0xE3 r1 x2 b2 d2 0x30)
  | .cfc b2 d2 => wordBytes (packS 0xB21A b2 d2)
  | .ipm r1 => wordBytes (packRRE 0xB222 r1 0)
  | .lr r1 r2 => halfBytes (packRR 0x18 r1 r2)
  | .lgr r1 r2 => wordBytes (packRRE 0xB904 r1 r2)
  | .lgfr r1 r2 => wordBytes (packRRE 0xB914 r1 r2)
  | .l r1 x2 b2 d2 => wordBytes (packRX 0x58 r1 x2 b2 d2)
  | .ly r1 x2 b2 d2 => tripleBytes (packRXY 0xE3 r1 x2 b2 d2 0x58)
  | .lg r1 x2 b2 d2 => tripleBytes (packRXY 0xE3 r1 x2 b2 d2 0x04)
  | .lgf r1 x2 b2 d2 => tripleBytes (packRXY 0xE3 r1 x2 b2 d2 0x14)
  | .lam r1 r3 b2 d2 => wordBytes (packRX 0x9A r1 r3 b2 d2)
  | .lamy r1 r3 b2 d2 => tripleBytes (packRXY 0xEB r1 r3 b2 d2 0x9A)
  | .la r1 x2 b2 d2 => wordBytes (packRX 0x41 r1 x2 b2 d2)
  | .lay r1 x2 b2 d2 => tripleBytes (packRXY 0xE3 r1 x2 b2 d2 0x71)
  | .lae r1 x2 b2 d2 => wordBytes (packRX 0x51 r1 x2 b2 d2)

/-- The lowest `k` bytes of a number, most significant first. -/
def bigEndianBytes : Nat → Nat → List Byte
  | 0, _ => []
  | k + 1, v => BitVec.ofNat 8 (v / 256 ^ k) :: bigEndianBytes k v

/-- The storage bytes of a row of `spec/opcode_table.json` whose `nbits` bits are `w`, taken as one big-endian number (R86,
"Keys of a row"), then zeros up to the longest instruction, 6 bytes. -/
def tableWordBytes (nbits w : Nat) : List Byte :=
  (bigEndianBytes (nbits / 8) w ++ [0, 0, 0, 0, 0, 0]).take 6

/-- What the decoder reads from a row's bits; `none` where it rejects them. -/
def decodeTableWord (nbits w : Nat) : Option Instr := (decode (tableWordBytes nbits w)).toOption

end Sys2Proof
end

