-- ==== Sys2Proof/Machine/State.lean ====
section
/-! DEFINITION. The state of the machine as plain data, its state at reset, and the reasons a step or a run stops. -/

namespace Sys2Proof.Machine

/-- The current program-status word, 128 bits, field by field from bit 0 (`10_state.md` R13 to R18, R20). The fields no
rule reads are kept so that an interruption saves and loads all of them (`60_exceptions.md` R221). -/
structure Psw where
  /-- Bit 0, unassigned (R20). -/
  bit0 : BitVec 1
  /-- Bit 1, PER mask (R20). -/
  per : BitVec 1
  /-- Bits 2-4, unassigned (R20). -/
  bits2to4 : BitVec 3
  /-- Bit 5, DAT mode (R20). -/
  dat : BitVec 1
  /-- Bit 6, I/O mask (R20). -/
  io : BitVec 1
  /-- Bit 7, external mask (R20). -/
  external : BitVec 1
  /-- Bits 8-11, PSW key (R20). -/
  key : BitVec 4
  /-- Bit 12, unassigned (R20). -/
  bit12 : BitVec 1
  /-- Bit 13, machine-check mask (R20). -/
  machineCheck : BitVec 1
  /-- Bit 14, wait state: carried like the others and read by no rule (R20; `60_exceptions.md` R232 does not model it). -/
  wait : BitVec 1
  /-- Bit 15, problem state (R20, `60_exceptions.md` R226). -/
  problem : BitVec 1
  /-- Bits 16-17, address-space control (R16). -/
  asc : BitVec 2
  /-- Bits 18-19, condition code (R14). -/
  cc : Cc
  /-- Bits 20-23, program mask, its leftmost bit the fixed-point-overflow mask (R15). -/
  pm : BitVec 4
  /-- Bits 24-30, unassigned (R20). -/
  bits24to30 : BitVec 7
  /-- Bit 31, extended addressing mode EA (R17). -/
  ea : BitVec 1
  /-- Bit 32, basic addressing mode BA (R17). -/
  ba : BitVec 1
  /-- Bits 33-63, unassigned (R20). -/
  bits33to63 : BitVec 31
  /-- Bits 64-127, instruction address, `pc` (R18). -/
  ia : Dword
  deriving DecidableEq, Repr

/-- Storage: the bytes that differ from what an unlisted address reads as (`Config.unlistedByte`), by strictly rising
address (`Memory.wf`). -/
abbrev Memory := List Host.Cell

/-- A range of storage addresses and what may be done there: a piece of `mem_admits` (`20_memory.md` R44). -/
structure Region where
  base : Nat
  size : Nat
  fetch : Bool
  store : Bool
  deriving DecidableEq, Repr

/-- The program exceptions of `60_exceptions.md` R210 and R222, with the information R213 gives an access exception: the
kind of access and the byte address that was not admitted. -/
inductive ProgramException where
  | operation
  | specification
  | access (kind : AccessKind) (addr : Dword)
  | fixedPointOverflow
  deriving DecidableEq, Repr

/-- The whole state (`10_state.md` section 1; INVENTORY.md, State). -/
structure State where
  /-- General registers `x[0..15]` (R10). -/
  grs : Vector Dword 16
  /-- Access registers `a[0..15]` (R12). -/
  ars : Vector Word 16
  /-- The current PSW (R13). -/
  psw : Psw
  /-- Storage (`20_memory.md` R40). -/
  mem : Memory
  /-- Launch parameter `ld_installed`: the long-displacement facility is installed (`00_scope.md` R4). -/
  ldInstalled : Bool
  /-- Launch parameter `mem_admits` (R4, `20_memory.md` R44). -/
  admits : List Region
  /-- The model's own: how many program interruptions have been taken (log entry 7). -/
  interruptions : Nat
  /-- The model's own: the last program interruption's exception and information (R222, R213; log entry 7). -/
  lastInterruption : Option ProgramException
  deriving DecidableEq, Repr

/-- Why a RUN stops short of its end. No step of the machine raises one. -/
inductive Fault where
  /-- `ProgramInterruption(exception, info)` of `60_exceptions.md` R222, with the state as the exception's ending leaves it.
  Raised by `runStep` (Machine/Run.lean) alone, when the step it makes takes a program interruption: R222 ends a run there.
  Safe: the machine itself goes on, at the program new PSW (log entry 4). -/
  | programInterruption (e : ProgramException) (ending : State)
  deriving DecidableEq, Repr

/-- Why a step has no meaning. -/
inductive Refusal where
  /-- An instruction whose meaning is not written, raised by an arm of `exec` (none now). Safe. -/
  | notModelled (mnemonic : String)
  /-- Raised by `step` where the bytes at the instruction address match no row of the opcode table
  (`30_encoding.md` R88). Safe: the real machine has a meaning or an operation exception there. -/
  | notInTable (why : DecodeError)
  /-- Raised by KM, which the spec refuses (`45_cipher_message.md` R150). Safe. -/
  | cipherMessageLost
  /-- Raised by KMC, which the spec refuses (R150). Safe. -/
  | cipherMessageWithChainingLost
  /-- Raised by CFC, which the spec refuses (`46_compare.md` R165). Safe. -/
  | compareAndFormCodewordLost
  deriving DecidableEq, Repr

/-- What executing an instruction answers. -/
abbrev Result := Host.Outcome State Fault Refusal

/-- The PSW after reset: zeros, but for the 64-bit addressing mode, EA,BA = 1,1. DESIGN CHOICE (log entry 1): the spec
gives no reset value (`10_state.md` R25) and recommends the 64-bit mode (`00_scope.md` R4). -/
def Psw.reset : Psw where
  bit0 := 0
  per := 0
  bits2to4 := 0
  dat := 0
  io := 0
  external := 0
  key := 0
  bit12 := 0
  machineCheck := 0
  wait := 0
  problem := 0
  asc := 0
  cc := 0
  pm := 0
  bits24to30 := 0
  ea := 1
  ba := 1
  bits33to63 := 0
  ia := 0

/-- The machine right after reset. The spec gives no value (`70_reset_and_hazards.md` R250): every value here is log entry
1's, 2's, 3's or 7's, but for `ld_installed`, whose default is the spec's (`00_scope.md` R4). -/
def State.reset : State where
  grs := Vector.replicate 16 0
  ars := Vector.replicate 16 0
  psw := Psw.reset
  mem := []
  ldInstalled := true
  admits := [⟨0, 2 ^ 64, true, true⟩]
  interruptions := 0
  lastInterruption := none

end Sys2Proof.Machine
end

