-- ==== Sys2Proof/Machine/Psw.lean ====
section
/-! DEFINITION. The PSW as 128 bits, and the fields of it that rules read: the fixed-point-overflow mask, the addressing
mode and the carry. -/

namespace Sys2Proof.Machine

/-- The 128 bits of a PSW, bit 0 leftmost (`10_state.md` R13 to R20). -/
def Psw.toBits (p : Psw) : BitVec 128 :=
  p.bit0 ++ p.per ++ p.bits2to4 ++ p.dat ++ p.io ++ p.external ++ p.key ++ p.bit12 ++ p.machineCheck ++ p.wait ++ p.problem
    ++ p.asc ++ p.cc ++ p.pm ++ p.bits24to30 ++ p.ea ++ p.ba ++ p.bits33to63 ++ p.ia

/-- The PSW that 128 bits are. -/
def Psw.ofBits (w : BitVec 128) : Psw where
  bit0 := bitField w 0 1
  per := bitField w 1 1
  bits2to4 := bitField w 2 3
  dat := bitField w 5 1
  io := bitField w 6 1
  external := bitField w 7 1
  key := bitField w 8 4
  bit12 := bitField w 12 1
  machineCheck := bitField w 13 1
  wait := bitField w 14 1
  problem := bitField w 15 1
  asc := bitField w 16 2
  cc := bitField w 18 2
  pm := bitField w 20 4
  bits24to30 := bitField w 24 7
  ea := bitField w 31 1
  ba := bitField w 32 1
  bits33to63 := bitField w 33 31
  ia := bitField w 64 64

/-- `fo_mask`: the leftmost bit of the program mask, PSW bit 20 (`10_state.md` R15). -/
def Psw.foMask (p : Psw) : Bool := p.pm.msb

/-- The carry that ADD LOGICAL WITH CARRY adds: PSW bit 18, the leftmost bit of the condition code
(`43_add_logical_with_carry.md` R130, `90_conflicts.md` C5). -/
def Psw.carry (p : Psw) : Bool := p.cc.msb

/-- The three addressing modes (`10_state.md` R17). -/
inductive AddressingMode where
  | bits24
  | bits31
  | bits64
  deriving DecidableEq, Repr

/-- EA,BA = 1,0 is invalid (`10_state.md` R17). -/
def Psw.modeValid (p : Psw) : Bool := !(p.ea == 1 && p.ba == 0)

/-- `amode`: EA,BA = 0,0 is 24-bit, 0,1 is 31-bit, 1,1 is 64-bit (`10_state.md` R17). No instruction is executed with the
invalid 1,0 (`State.fetchInstr`); the value here for it is no claim (log entry 12). -/
def Psw.amode (p : Psw) : AddressingMode :=
  if p.ea = 1 then .bits64 else if p.ba = 1 then .bits31 else .bits24

/-- An address reduced to the addressing mode: the rightmost 24, 31 or 64 bits kept, those to their left zero
(`20_memory.md` R50, `10_state.md` R19). -/
def AddressingMode.wrap (m : AddressingMode) (a : Dword) : Dword :=
  match m with
  | .bits24 => (a.setWidth 24).setWidth 64
  | .bits31 => (a.setWidth 31).setWidth 64
  | .bits64 => a

end Sys2Proof.Machine
end

