-- ==== Sys2Proof/Machine/Flags.lean ====
section
/-! DEFINITION. The four laws that compute a result and a condition code: signed addition, unsigned addition with carry,
AND, comparison. `n` is the width of the operands, 32 or 64 (8 for NI). -/

namespace Sys2Proof.Machine

/-- The overflow of a signed addition: equal signs, and a sum of the other sign (`40_add.md` R100). -/
def signedOverflow (a b : BitVec n) : Bool := a.msb == b.msb && (a + b).msb != a.msb

/-- `add_signed_N` (`40_add.md` R100): the truncated sum, and 3 on overflow, else 0 zero, 1 negative, 2 positive. -/
def addSigned (a b : BitVec n) : BitVec n × Cc :=
  (a + b, if signedOverflow a b then 3 else if a + b = 0 then 0 else if (a + b).msb then 1 else 2)

/-- `add_logical_N` (`40_add.md` R101): the sum of the naturals with the carry in, truncated; the condition code is twice
the carry out, plus one when the truncated sum is not zero. -/
def addLogical (a b : BitVec n) (cin : Bool) : BitVec n × Cc :=
  let t := a.toNat + b.toNat + cin.toNat
  let s := BitVec.ofNat n t
  (s, if 2 ^ n ≤ t then (if s = 0 then 2 else 3) else (if s = 0 then 0 else 1))

/-- `and_N` (`44_and.md` R140): the bit-by-bit product, 0 when it is zero and 1 otherwise. -/
def andLaw (a b : BitVec n) : BitVec n × Cc := (a &&& b, if a &&& b = 0 then 0 else 1)

/-- `compare_signed_N` (`46_compare.md` R155): 0 equal, 1 first operand low, 2 first operand high. -/
def compareSigned (a b : BitVec n) : Cc :=
  if a.toInt = b.toInt then 0 else if a.toInt < b.toInt then 1 else 2

end Sys2Proof.Machine
end

