-- ==== Sys2Proof/Machine/Memory.lean ====
section
/-! DEFINITION. Storage: reading and writing one byte, the canonical form, and the one place where byte order is decided
(`20_memory.md` R40, R41). -/

namespace Sys2Proof.Machine

/-- The byte at an address (R40). -/
def Memory.read : Memory → Nat → Byte
  | [], _ => Config.unlistedByte
  | (k, b) :: t, a => if a = k then b else Memory.read t a

/-- Storage with one byte replaced (R49: a store changes exactly the bytes stored), in canonical form. -/
def Memory.write : Memory → Nat → Byte → Memory
  | [], a, b => if b = Config.unlistedByte then [] else [(a, b)]
  | (k, c) :: t, a, b =>
    if a < k then (if b = Config.unlistedByte then (k, c) :: t else (a, b) :: (k, c) :: t)
    else if a = k then (if b = Config.unlistedByte then t else (a, b) :: t)
    else (k, c) :: Memory.write t a b

/-- The canonical form of a list whose addresses start no lower than `lo`. -/
def Memory.wfFrom : Nat → Memory → Bool
  | _, [] => true
  | lo, (k, b) :: t =>
    decide (lo ≤ k) && decide (k < 2 ^ 64) && decide (b ≠ Config.unlistedByte) && Memory.wfFrom (k + 1) t

/-- The canonical form: addresses strictly rising and below 2^64, no entry equal to what an unlisted address reads as. -/
def Memory.wf (m : Memory) : Bool := Memory.wfFrom 0 m

/-- The bytes at `a`, `a + 1`, ... replaced by those of the list. -/
def Memory.writeBytes : Memory → Nat → List Byte → Memory
  | m, _, [] => m
  | m, a, b :: bs => Memory.writeBytes (Memory.write m a b) (a + 1) bs

/-- The `n` bytes at `a`, `a + 1`, .... -/
def Memory.readBytes (m : Memory) : Nat → Nat → List Byte
  | _, 0 => []
  | a, n + 1 => m.read a :: Memory.readBytes m (a + 1) n

/-- The number that bytes are, the first the most significant (`20_memory.md` R41). -/
def bigEndian (bs : List Byte) : Nat := bs.foldl (fun acc b => acc * 256 + b.toNat) 0

end Sys2Proof.Machine
end

