-- ==== Sys2Proof/Machine/Ops.lean ====
section
/-! DEFINITION. The named operations over registers, PSW and storage, the advance of the instruction address, and the one
operation that takes a program interruption, with the ways an instruction ends (`60_exceptions.md` R212, R221). No
instruction of the spec returns from an interruption (R223). -/

namespace Sys2Proof.Machine

/-! Registers. Register 0 is an ordinary register (`10_state.md` R27). -/

/-- `x[i]` (`00_scope.md` R6). -/
def State.gr (s : State) (r : Reg) : Dword := s.grs[r.toNat]'r.isLt

/-- `x[i] <- v` (R6). -/
def State.setGr (s : State) (r : Reg) (v : Dword) : State := { s with grs := s.grs.set r.toNat v r.isLt }

/-- `lo32(v)`, the source's bits 32-63 (R6). -/
def lo32 (v : Dword) : Word := v.extractLsb' 0 32

/-- `hi32(v)`, the source's bits 0-31 (R6). -/
def hi32 (v : Dword) : Word := v.extractLsb' 32 32

/-- `x[i].lo <- w`: bits 32-63 replaced, bits 0-31 unchanged (R6, `10_state.md` R11). -/
def State.setGrLo (s : State) (r : Reg) (w : Word) : State := s.setGr r (hi32 (s.gr r) ++ w)

/-- `a[i]` (R6). -/
def State.ar (s : State) (r : Reg) : Word := s.ars[r.toNat]'r.isLt

/-- `a[i] <- w` (R6). -/
def State.setAr (s : State) (r : Reg) (w : Word) : State := { s with ars := s.ars.set r.toNat w r.isLt }

/-- Access registers `r`, `r + 1`, ... loaded from the words in order, access register 0 following access register 15
(`49_load_access_and_address.md` R190). -/
def State.setArs : State → Reg → List Word → State
  | s, _, [] => s
  | s, r, w :: ws => State.setArs (s.setAr r w) (r + 1) ws

/-! The PSW. -/

/-- `cc <- c` (R6). -/
def State.setCc (s : State) (c : Cc) : State := { s with psw := { s.psw with cc := c } }

/-- `pc <- t` (R6). -/
def State.setIa (s : State) (a : Dword) : State := { s with psw := { s.psw with ia := a } }

/-- Storage replaced. -/
def State.setMem (s : State) (m : Memory) : State := { s with mem := m }

/-- An address reduced to the current addressing mode (`20_memory.md` R50). -/
def State.wrap (s : State) (a : Dword) : Dword := s.psw.amode.wrap a

/-- `pc <- wrap(pc + ilen)` (`10_state.md` R19). -/
def State.advance (s : State) (ilen : Nat) : State := s.setIa (s.wrap (s.psw.ia + BitVec.ofNat 64 ilen))

/-! Storage references that `mem_admits` decides (`20_memory.md` R44). -/

/-- Whether one byte may be fetched or stored: some region that permits it holds its address (R44, log entry 3). -/
def State.admitsByte (s : State) (kind : AccessKind) (a : Dword) : Bool :=
  s.admits.any fun r =>
    decide (r.base ≤ a.toNat) && decide (a.toNat < r.base + r.size) &&
      (match kind with
        | .fetch => r.fetch
        | .store => r.store)

/-- The addresses of the `n` bytes of an operand at `a`, each reduced to the addressing mode (R47). -/
def State.byteAddresses (s : State) : Dword → Nat → List Dword
  | _, 0 => []
  | a, n + 1 => s.wrap a :: State.byteAddresses s (a + 1) n

/-- The first byte address of the operand that is not admitted (R213), if there is one. -/
def State.firstDenied (s : State) (kind : AccessKind) (a : Dword) (n : Nat) : Option Dword :=
  (s.byteAddresses a n).find? fun b => !s.admitsByte kind b

/-- The `n` bytes of an operand, in address order (R41, R47), admitted or not. -/
def State.bytesAt (s : State) (a : Dword) (n : Nat) : List Byte :=
  (s.byteAddresses a n).map fun b => s.mem.read b.toNat

/-- `MemRead(addr, n)` as a number, the byte at `addr` leftmost; or the byte address that was not admitted (`00_scope.md`
R6, `20_memory.md` R41, R44, R47). -/
def State.fetch (s : State) (a : Dword) (n : Nat) : Except Dword Nat :=
  match s.firstDenied .fetch a n with
  | some d => .error d
  | none => .ok (bigEndian (s.bytesAt a n))

/-- `MemWrite(addr, 1, b)`, or the byte address that was not admitted (R6, R44). One byte is all an instruction stores
(`20_memory.md` R58). -/
def State.storeByte (s : State) (a : Dword) (b : Byte) : Except Dword State :=
  match s.firstDenied .store a 1 with
  | some d => .error d
  | none => .ok (s.setMem (s.mem.write (s.wrap a).toNat b))

/-! Program interruptions. -/

/-- The interruption codes of R212's access rows. -/
def causeCode (c : AccessCause) : Half :=
  match c with
  | .protection => 0x0004
  | .addressing => 0x0005
  | .translation i => translationCodes[i]

/-- The translation exceptions nullify the instruction; protection and addressing suppress it (R212). -/
def causeNullifies (c : AccessCause) : Bool :=
  match c with
  | .translation _ => true
  | _ => false

/-- Which access exception this one is: a free value (log entry 5), fresh at each interruption. -/
def State.accessCause (s : State) (kind : AccessKind) (a : Dword) : AccessCause :=
  Config.accessCause s.interruptions kind a

/-- The interruption code (R212). -/
def State.interruptionCode (s : State) (e : ProgramException) : Half :=
  match e with
  | .operation => 0x0001
  | .specification => 0x0006
  | .access kind a => causeCode (s.accessCause kind a)
  | .fixedPointOverflow => 0x0008

/-- The failing address, which only an access exception of the translation kind stores (R221). -/
def State.failingAddress (s : State) (e : ProgramException) : Option Dword :=
  match e with
  | .access kind a => if causeNullifies (s.accessCause kind a) then some a else none
  | _ => none

/-- Storage after an interruption has stored what R221 says it stores: the old PSW, the instruction-length code in bits 5-6
of its byte, the interruption code, and for a translation exception the failing address. -/
def State.interruptionStores (s : State) (e : ProgramException) (halfwords : Nat) : Memory :=
  let m1 := s.mem.writeBytes Config.oldPswLocation (bigEndianBytes 16 s.psw.toBits.toNat)
  let m2 := m1.writeBytes Config.ilcLocation [(0 : BitVec 5) ++ BitVec.ofNat 2 halfwords ++ (0 : BitVec 1)]
  let m3 := m2.writeBytes Config.codeLocation (bigEndianBytes 2 (s.interruptionCode e).toNat)
  match s.failingAddress e with
  | some a => m3.writeBytes Config.failingAddressLocation (bigEndianBytes 8 a.toNat)
  | none => m3

/-- TAKING A PROGRAM INTERRUPTION (R221), in the state the instruction's ending leaves, whose instruction address is the
one to be saved: the current PSW is stored as the program old PSW with the instruction-length code and the interruption
code, and the program new PSW becomes the current PSW. General and access registers are not changed. -/
def State.interrupt (s : State) (e : ProgramException) (halfwords : Nat) : State :=
  let m := s.interruptionStores e halfwords
  { s with
    mem := m
    psw := Psw.ofBits (BitVec.ofNat 128 (bigEndian (m.readBytes Config.newPswLocation 16)))
    interruptions := s.interruptions + 1
    lastInterruption := some e }

/-- The interruption of an instruction that is not executed (R212): nullified by a translation exception, so that the saved
address is its own; suppressed by any other, so that the saved address is that of the next instruction, `halfwords`
halfwords on. With `halfwords` 0, an odd instruction address or an invalid PSW, that is the PSW's own address: DESIGN
CHOICE, log entries 21 and 12, since R212 saves a next instruction whose length is then unknown. -/
def State.suppress (s : State) (e : ProgramException) (halfwords : Nat) : State :=
  if (s.failingAddress e).isSome then s.interrupt e halfwords
  else (s.advance (2 * halfwords)).interrupt e halfwords

/-! How an instruction ends. -/

/-- The instruction is completed: `pc` advances (`00_scope.md` R6). -/
def State.complete (s : State) (ilen : Nat) : Result := .next (s.advance ilen)

/-- The instruction is not executed and a program interruption is taken. -/
def State.raise (s : State) (e : ProgramException) (ilen : Nat) : Result := .next (s.suppress e (ilen / 2))

/-- Steps 6 to 8 of `40_add.md` R109, after the sum is stored: the condition code, the advance, and, if the code is 3 and
the fixed-point-overflow mask one, the interruption of the completed operation. -/
def State.completeSigned (s : State) (ilen : Nat) (c : Cc) : Result :=
  let t := (s.setCc c).advance ilen
  if c = 3 ∧ s.psw.foMask = true then .next (t.interrupt .fixedPointOverflow (ilen / 2)) else .next t

/-- An instruction of the long-displacement facility: the operation exception, before anything else, if the facility is not
installed (`60_exceptions.md` R214). -/
def State.withFacility (s : State) (ilen : Nat) (k : Result) : Result :=
  if s.ldInstalled then k else s.raise .operation ilen

end Sys2Proof.Machine
end

