-- ==== Sys2Proof/Machine/Operands.lean ====
section
/-! DEFINITION. Every operand form: the effective address of each format, the displacements, and an operand fetched from
storage for the instruction that goes on with it (`20_memory.md` R43, R50, R51; `30_encoding.md` R80, R81, R92). -/

namespace Sys2Proof.Machine

/-- `ea_x(d, X2, B2)` (`20_memory.md` R50): displacement plus index plus base modulo 2^64, a zero field adding nothing,
reduced to the addressing mode. -/
def State.eaX (s : State) (d : Dword) (x2 b2 : Reg) : Dword :=
  s.wrap (d + (if x2 = 0 then 0 else s.gr x2) + (if b2 = 0 then 0 else s.gr b2))

/-- `ea_b(d, B)` (R51): as `ea_x` with no index. -/
def State.eaB (s : State) (d : Dword) (b : Reg) : Dword := s.eaX d 0 b

/-- `zext_64(D2)`, the 12-bit unsigned displacement (`30_encoding.md` R80). -/
def shortDisp (d : Nat) : Dword := BitVec.ofNat 64 d

/-- `sext_64(DH2 ‖ DL2)`, the 20-bit signed displacement (R81). -/
def longDisp (d : Int) : Dword := BitVec.ofInt 64 d

/-- The displacement of the long forms that are older than the long-displacement facility (AG, AGF, ALG, ALGF, ALC, ALCG,
NG, CG, CGF, LG, LGF): the 20-bit signed one with the facility (R81); without it bits 32-39 are ignored and DL2 is a 12-bit
unsigned one (R92, `92_eei_decisions.md` D21; log entry 10). -/
def State.olderDisp (s : State) (d : Int) : Dword :=
  if s.ldInstalled then longDisp d else (bitField (BitVec.ofInt 20 d) 8 12).setWidth 64

/-- Goes on with the `n` bytes at `a`, big-endian, as an `8 n`-bit operand of width `w`; or takes the access exception of
the fetch (`60_exceptions.md` R213). -/
def State.withOperand (s : State) (ilen : Nat) (a : Dword) (n w : Nat) (k : BitVec w → Result) : Result :=
  match s.fetch a n with
  | .error d => s.raise (.access .fetch d) ilen
  | .ok v => k (BitVec.ofNat w v)

/-- The halfword at `a` (R43). -/
def State.withHalf (s : State) (ilen : Nat) (a : Dword) (k : Half → Result) : Result := s.withOperand ilen a 2 16 k

/-- The word at `a` (R43). -/
def State.withWord (s : State) (ilen : Nat) (a : Dword) (k : Word → Result) : Result := s.withOperand ilen a 4 32 k

/-- The doubleword at `a` (R43). -/
def State.withDword (s : State) (ilen : Nat) (a : Dword) (k : Dword → Result) : Result := s.withOperand ilen a 8 64 k

/-- The `n` words at `a`, `a + 4`, ..., in ascending address order; or the first byte address that was not admitted
(`49_load_access_and_address.md` R191, `20_memory.md` R61). -/
def State.fetchWords (s : State) : Dword → Nat → Except Dword (List Word)
  | _, 0 => .ok []
  | a, n + 1 =>
    match s.fetch a 4 with
    | .error d => .error d
    | .ok v =>
      match State.fetchWords s (a + 4) n with
      | .error d => .error d
      | .ok ws => .ok (BitVec.ofNat 32 v :: ws)

/-- `n = ((R3 - R1) mod 16) + 1`, how many access registers are loaded (R190). -/
def accessRegisterCount (r1 r3 : Reg) : Nat := (r3 - r1).toNat + 1

/-! Results placed at the first-operand location. -/

/-- A 32-bit signed sum and its code, at the low half of R1 (`40_add.md` R109). -/
def State.putSigned32 (s : State) (ilen : Nat) (r1 : Reg) (r : Word × Cc) : Result :=
  (s.setGrLo r1 r.1).completeSigned ilen r.2

/-- A 64-bit signed sum and its code, in R1 (R109). -/
def State.putSigned64 (s : State) (ilen : Nat) (r1 : Reg) (r : Dword × Cc) : Result :=
  (s.setGr r1 r.1).completeSigned ilen r.2

/-- A 32-bit result and its code, at the low half of R1. -/
def State.putCc32 (s : State) (ilen : Nat) (r1 : Reg) (r : Word × Cc) : Result :=
  ((s.setGrLo r1 r.1).setCc r.2).complete ilen

/-- A 64-bit result and its code, in R1. -/
def State.putCc64 (s : State) (ilen : Nat) (r1 : Reg) (r : Dword × Cc) : Result :=
  ((s.setGr r1 r.1).setCc r.2).complete ilen

/-- `place_address(R1, ea)` (`49_load_access_and_address.md` R195). -/
def State.placeAddress (s : State) (r1 : Reg) (ea : Dword) : State :=
  match s.psw.amode with
  | .bits64 => s.setGr r1 ea
  | .bits31 => s.setGrLo r1 ((0 : BitVec 1) ++ ea.extractLsb' 0 31)
  | .bits24 => s.setGrLo r1 ((0 : BitVec 8) ++ ea.extractLsb' 0 24)

end Sys2Proof.Machine
end

