-- ==== Sys2Proof/Machine/Add.lean ====
section
/-! DEFINITION. ADD, ADD HALFWORD and ADD HALFWORD IMMEDIATE (`40_add.md`, `41_add_halfword.md`), in the order of events of
R109: facility, address, fetch, sum (`addSigned`), first operand, condition code, `pc`, overflow interruption. -/

namespace Sys2Proof.Machine

/-- AR: the low halves of R1 and R2 (R102). -/
def execAr (r1 r2 : Reg) (s : State) : Result :=
  s.putSigned32 2 r1 (addSigned (lo32 (s.gr r1)) (lo32 (s.gr r2)))

/-- AGR: R1 and R2 (R103). -/
def execAgr (r1 r2 : Reg) (s : State) : Result :=
  s.putSigned64 4 r1 (addSigned (s.gr r1) (s.gr r2))

/-- AGFR: R1 and the sign-extended low half of R2 (R104). -/
def execAgfr (r1 r2 : Reg) (s : State) : Result :=
  s.putSigned64 4 r1 (addSigned (s.gr r1) ((lo32 (s.gr r2)).signExtend 64))

/-- A: the low half of R1 and a word of storage (R105). -/
def execA (r1 x2 b2 : Reg) (d2 : Nat) (s : State) : Result :=
  s.withWord 4 (s.eaX (shortDisp d2) x2 b2) fun m => s.putSigned32 4 r1 (addSigned (lo32 (s.gr r1)) m)

/-- AY: as A with the long displacement (R106). -/
def execAy (r1 x2 b2 : Reg) (d2 : Int) (s : State) : Result :=
  s.withFacility 6 <| s.withWord 6 (s.eaX (longDisp d2) x2 b2) fun m =>
    s.putSigned32 6 r1 (addSigned (lo32 (s.gr r1)) m)

/-- AG: R1 and a doubleword of storage (R107). -/
def execAg (r1 x2 b2 : Reg) (d2 : Int) (s : State) : Result :=
  s.withDword 6 (s.eaX (s.olderDisp d2) x2 b2) fun m => s.putSigned64 6 r1 (addSigned (s.gr r1) m)

/-- AGF: R1 and a sign-extended word of storage (R108). -/
def execAgf (r1 x2 b2 : Reg) (d2 : Int) (s : State) : Result :=
  s.withWord 6 (s.eaX (s.olderDisp d2) x2 b2) fun m =>
    s.putSigned64 6 r1 (addSigned (s.gr r1) (m.signExtend 64))

/-- AH: the low half of R1 and a sign-extended halfword of storage (R113). -/
def execAh (r1 x2 b2 : Reg) (d2 : Nat) (s : State) : Result :=
  s.withHalf 4 (s.eaX (shortDisp d2) x2 b2) fun h =>
    s.putSigned32 4 r1 (addSigned (lo32 (s.gr r1)) (h.signExtend 32))

/-- AHY: as AH with the long displacement (R114). -/
def execAhy (r1 x2 b2 : Reg) (d2 : Int) (s : State) : Result :=
  s.withFacility 6 <| s.withHalf 6 (s.eaX (longDisp d2) x2 b2) fun h =>
    s.putSigned32 6 r1 (addSigned (lo32 (s.gr r1)) (h.signExtend 32))

/-- AHI: the low half of R1 and the immediate (R115; `30_encoding.md` R85). -/
def execAhi (r1 : Reg) (i2 : Int) (s : State) : Result :=
  s.putSigned32 4 r1 (addSigned (lo32 (s.gr r1)) (BitVec.ofInt 32 i2))

/-- AGHI: R1 and the immediate (R116; `30_encoding.md` R85). -/
def execAghi (r1 : Reg) (i2 : Int) (s : State) : Result :=
  s.putSigned64 4 r1 (addSigned (s.gr r1) (BitVec.ofInt 64 i2))

end Sys2Proof.Machine
end

