-- ==== Sys2Proof/Machine/AddLogical.lean ====
section
/-! DEFINITION. ADD LOGICAL and ADD LOGICAL WITH CARRY (`42_add_logical.md`, `43_add_logical_with_carry.md`) over the law
`addLogical` (`40_add.md` R101). No overflow is recognized and no interruption follows a carry. -/

namespace Sys2Proof.Machine

/-- ALR: the low halves of R1 and R2 (R120). -/
def execAlr (r1 r2 : Reg) (s : State) : Result :=
  s.putCc32 2 r1 (addLogical (lo32 (s.gr r1)) (lo32 (s.gr r2)) false)

/-- ALGR: R1 and R2 (R121). -/
def execAlgr (r1 r2 : Reg) (s : State) : Result :=
  s.putCc64 4 r1 (addLogical (s.gr r1) (s.gr r2) false)

/-- ALGFR: R1 and the zero-extended low half of R2 (R122). -/
def execAlgfr (r1 r2 : Reg) (s : State) : Result :=
  s.putCc64 4 r1 (addLogical (s.gr r1) ((lo32 (s.gr r2)).setWidth 64) false)

/-- AL: the low half of R1 and a word of storage (R123). -/
def execAl (r1 x2 b2 : Reg) (d2 : Nat) (s : State) : Result :=
  s.withWord 4 (s.eaX (shortDisp d2) x2 b2) fun m => s.putCc32 4 r1 (addLogical (lo32 (s.gr r1)) m false)

/-- ALY: as AL with the long displacement (R124). -/
def execAly (r1 x2 b2 : Reg) (d2 : Int) (s : State) : Result :=
  s.withFacility 6 <| s.withWord 6 (s.eaX (longDisp d2) x2 b2) fun m =>
    s.putCc32 6 r1 (addLogical (lo32 (s.gr r1)) m false)

/-- ALG: R1 and a doubleword of storage (R125). -/
def execAlg (r1 x2 b2 : Reg) (d2 : Int) (s : State) : Result :=
  s.withDword 6 (s.eaX (s.olderDisp d2) x2 b2) fun m => s.putCc64 6 r1 (addLogical (s.gr r1) m false)

/-- ALGF: R1 and a zero-extended word of storage (R126). -/
def execAlgf (r1 x2 b2 : Reg) (d2 : Int) (s : State) : Result :=
  s.withWord 6 (s.eaX (s.olderDisp d2) x2 b2) fun m =>
    s.putCc64 6 r1 (addLogical (s.gr r1) (m.setWidth 64) false)

/-- ALCR: the low halves of R1 and R2, and the carry, PSW bit 18 before the instruction (R130, R131). -/
def execAlcr (r1 r2 : Reg) (s : State) : Result :=
  s.putCc32 4 r1 (addLogical (lo32 (s.gr r1)) (lo32 (s.gr r2)) s.psw.carry)

/-- ALCGR: R1 and R2, and the carry (R130, R132). -/
def execAlcgr (r1 r2 : Reg) (s : State) : Result :=
  s.putCc64 4 r1 (addLogical (s.gr r1) (s.gr r2) s.psw.carry)

/-- ALC: the low half of R1 and a word of storage, and the carry (R130, R133). -/
def execAlc (r1 x2 b2 : Reg) (d2 : Int) (s : State) : Result :=
  s.withWord 6 (s.eaX (s.olderDisp d2) x2 b2) fun m =>
    s.putCc32 6 r1 (addLogical (lo32 (s.gr r1)) m s.psw.carry)

/-- ALCG: R1 and a doubleword of storage, and the carry (R130, R134). -/
def execAlcg (r1 x2 b2 : Reg) (d2 : Int) (s : State) : Result :=
  s.withDword 6 (s.eaX (s.olderDisp d2) x2 b2) fun m =>
    s.putCc64 6 r1 (addLogical (s.gr r1) m s.psw.carry)

end Sys2Proof.Machine
end

