-- ==== Sys2Proof/Machine/And.lean ====
section
/-! DEFINITION. AND (`44_and.md`; the spec's own inference, `92_eei_decisions.md` D15; log entry 13) over the law `andLaw` (R140). -/

namespace Sys2Proof.Machine

/-- NR: the low halves of R1 and R2 (R141). -/
def execNr (r1 r2 : Reg) (s : State) : Result :=
  s.putCc32 2 r1 (andLaw (lo32 (s.gr r1)) (lo32 (s.gr r2)))

/-- NGR: R1 and R2 (R142). -/
def execNgr (r1 r2 : Reg) (s : State) : Result :=
  s.putCc64 4 r1 (andLaw (s.gr r1) (s.gr r2))

/-- N: the low half of R1 and a word of storage (R143). -/
def execN (r1 x2 b2 : Reg) (d2 : Nat) (s : State) : Result :=
  s.withWord 4 (s.eaX (shortDisp d2) x2 b2) fun m => s.putCc32 4 r1 (andLaw (lo32 (s.gr r1)) m)

/-- NY: as N with the long displacement (R144). -/
def execNy (r1 x2 b2 : Reg) (d2 : Int) (s : State) : Result :=
  s.withFacility 6 <| s.withWord 6 (s.eaX (longDisp d2) x2 b2) fun m =>
    s.putCc32 6 r1 (andLaw (lo32 (s.gr r1)) m)

/-- NG: R1 and a doubleword of storage (R145). -/
def execNg (r1 x2 b2 : Reg) (d2 : Int) (s : State) : Result :=
  s.withDword 6 (s.eaX (s.olderDisp d2) x2 b2) fun m => s.putCc64 6 r1 (andLaw (s.gr r1) m)

/-- NI: a byte of storage and the immediate; the byte is fetched and then stored, also when it does not change, and no
register is changed (R146). -/
def execNi (b1 : Reg) (d1 : Nat) (i2 : Byte) (s : State) : Result :=
  let addr := s.eaB (shortDisp d1) b1
  s.withOperand 4 addr 1 8 fun b =>
    let r := andLaw b i2
    match s.storeByte addr r.1 with
    | .error d => s.raise (.access .store d) 4
    | .ok t => (t.setCc r.2).complete 4

end Sys2Proof.Machine
end

