-- ==== Sys2Proof/Machine/Cipher.lean ====
section
/-! DEFINITION. CIPHER MESSAGE and CIPHER MESSAGE WITH CHAINING (`45_cipher_message.md`), which the spec refuses: their syntax,
function codes, register usage and operation are lost (R150, R153). -/

namespace Sys2Proof.Machine

/-- KM: refused (R150). -/
def execKm (_r1 _r2 : Reg) (_s : State) : Result := .refused .cipherMessageLost

/-- KMC: refused (R150). -/
def execKmc (_r1 _r2 : Reg) (_s : State) : Result := .refused .cipherMessageWithChainingLost

end Sys2Proof.Machine
end

