-- ==== Sys2Proof/Machine/Compare.lean ====
section
/-! DEFINITION. COMPARE (`46_compare.md`) over the law `compareSigned` (R155): only the condition code changes. And COMPARE AND FORM
CODEWORD, which the spec refuses. -/

namespace Sys2Proof.Machine

/-- CR: the low halves of R1 and R2 (R156). -/
def execCr (r1 r2 : Reg) (s : State) : Result :=
  (s.setCc (compareSigned (lo32 (s.gr r1)) (lo32 (s.gr r2)))).complete 2

/-- CGR: R1 and R2 (R157). -/
def execCgr (r1 r2 : Reg) (s : State) : Result :=
  (s.setCc (compareSigned (s.gr r1) (s.gr r2))).complete 4

/-- CGFR: R1 and the sign-extended low half of R2 (R158). -/
def execCgfr (r1 r2 : Reg) (s : State) : Result :=
  (s.setCc (compareSigned (s.gr r1) ((lo32 (s.gr r2)).signExtend 64))).complete 4

/-- C: the low half of R1 and a word of storage (R159). -/
def execC (r1 x2 b2 : Reg) (d2 : Nat) (s : State) : Result :=
  s.withWord 4 (s.eaX (shortDisp d2) x2 b2) fun m => (s.setCc (compareSigned (lo32 (s.gr r1)) m)).complete 4

/-- CY: as C with the long displacement (R160). -/
def execCy (r1 x2 b2 : Reg) (d2 : Int) (s : State) : Result :=
  s.withFacility 6 <| s.withWord 6 (s.eaX (longDisp d2) x2 b2) fun m =>
    (s.setCc (compareSigned (lo32 (s.gr r1)) m)).complete 6

/-- CG: R1 and a doubleword of storage (R161). -/
def execCg (r1 x2 b2 : Reg) (d2 : Int) (s : State) : Result :=
  s.withDword 6 (s.eaX (s.olderDisp d2) x2 b2) fun m =>
    (s.setCc (compareSigned (s.gr r1) m)).complete 6

/-- CGF: R1 and a sign-extended word of storage (R162). -/
def execCgf (r1 x2 b2 : Reg) (d2 : Int) (s : State) : Result :=
  s.withWord 6 (s.eaX (s.olderDisp d2) x2 b2) fun m =>
    (s.setCc (compareSigned (s.gr r1) (m.signExtend 64))).complete 6

/-- CFC: refused. The spec gives the instruction no meaning; its operation, condition code and exceptions are lost (R165,
R167: "The model must not guess these"). -/
def execCfc (_b2 : Reg) (_d2 : Nat) (_s : State) : Result := .refused .compareAndFormCodewordLost

end Sys2Proof.Machine
end

