-- ==== Sys2Proof/Machine/Load.lean ====
section
/-! DEFINITION. LOAD (`48_load.md`): the second operand placed at the first-operand location, the condition code unchanged. -/

namespace Sys2Proof.Machine

/-- LR: the low half of R2 to the low half of R1 (R175). -/
def execLr (r1 r2 : Reg) (s : State) : Result :=
  (s.setGrLo r1 (lo32 (s.gr r2))).complete 2

/-- LGR: R2 to R1 (R176). -/
def execLgr (r1 r2 : Reg) (s : State) : Result :=
  (s.setGr r1 (s.gr r2)).complete 4

/-- LGFR: the sign-extended low half of R2 to R1 (R177). -/
def execLgfr (r1 r2 : Reg) (s : State) : Result :=
  (s.setGr r1 ((lo32 (s.gr r2)).signExtend 64)).complete 4

/-- L: a word of storage to the low half of R1 (R178). -/
def execL (r1 x2 b2 : Reg) (d2 : Nat) (s : State) : Result :=
  s.withWord 4 (s.eaX (shortDisp d2) x2 b2) fun m => (s.setGrLo r1 m).complete 4

/-- LY: as L with the long displacement (R179). -/
def execLy (r1 x2 b2 : Reg) (d2 : Int) (s : State) : Result :=
  s.withFacility 6 <| s.withWord 6 (s.eaX (longDisp d2) x2 b2) fun m => (s.setGrLo r1 m).complete 6

/-- LG: a doubleword of storage to R1 (R180). -/
def execLg (r1 x2 b2 : Reg) (d2 : Int) (s : State) : Result :=
  s.withDword 6 (s.eaX (s.olderDisp d2) x2 b2) fun m => (s.setGr r1 m).complete 6

/-- LGF: a sign-extended word of storage to R1 (R181). -/
def execLgf (r1 x2 b2 : Reg) (d2 : Int) (s : State) : Result :=
  s.withWord 6 (s.eaX (s.olderDisp d2) x2 b2) fun m => (s.setGr r1 (m.signExtend 64)).complete 6

end Sys2Proof.Machine
end

