-- ==== Sys2Proof/Machine/LoadAddress.lean ====
section
/-! DEFINITION. LOAD ACCESS MULTIPLE, LOAD ADDRESS and LOAD ADDRESS EXTENDED (`49_load_access_and_address.md`). The condition
code is unchanged by all five. -/

namespace Sys2Proof.Machine

/-- LOAD ACCESS MULTIPLE from the second-operand address: a specification exception if it is no multiple of 4, before any
storage reference; an access exception with no register changed if some word cannot be fetched; otherwise the access
registers R1 to R3 are loaded (R190, R191, R193; `20_memory.md` R61). -/
def State.loadAccessMultiple (s : State) (ilen : Nat) (r1 r3 : Reg) (addr : Dword) : Result :=
  if addr.toNat % 4 ≠ 0 then s.raise .specification ilen
  else
    match s.fetchWords addr (accessRegisterCount r1 r3) with
    | .error d => s.raise (.access .fetch d) ilen
    | .ok ws => (s.setArs r1 ws).complete ilen

/-- LAM (R191). -/
def execLam (r1 r3 b2 : Reg) (d2 : Nat) (s : State) : Result :=
  s.loadAccessMultiple 4 r1 r3 (s.eaB (shortDisp d2) b2)

/-- LAMY: as LAM with the long displacement (R192). -/
def execLamy (r1 r3 b2 : Reg) (d2 : Int) (s : State) : Result :=
  s.withFacility 6 <| s.loadAccessMultiple 6 r1 r3 (s.eaB (longDisp d2) b2)

/-- LA: the second-operand address to R1, as the addressing mode places it; no storage reference (R195, R196). -/
def execLa (r1 x2 b2 : Reg) (d2 : Nat) (s : State) : Result :=
  (s.placeAddress r1 (s.eaX (shortDisp d2) x2 b2)).complete 4

/-- LAY: as LA with the long displacement (R197). -/
def execLay (r1 x2 b2 : Reg) (d2 : Int) (s : State) : Result :=
  s.withFacility 6 <| (s.placeAddress r1 (s.eaX (longDisp d2) x2 b2)).complete 6

/-- What LAE loads into access register R1, by the address-space control (R203; the spec's own inference, log entry 13):
00 gives 0, 10 gives 1, 11 gives 2, and 01 gives the access register of B2, or 0 when B2 is 0. -/
def State.extendedAccess (s : State) (b2 : Reg) : Word :=
  if s.psw.asc = 0 then 0
  else if s.psw.asc = 2 then 1
  else if s.psw.asc = 1 then (if b2 = 0 then 0 else s.ar b2)
  else 2

/-- LAE: as LA, and access register R1 loaded; both from the state before the instruction (R203). -/
def execLae (r1 x2 b2 : Reg) (d2 : Nat) (s : State) : Result :=
  ((s.placeAddress r1 (s.eaX (shortDisp d2) x2 b2)).setAr r1 (s.extendedAccess b2)).complete 4

end Sys2Proof.Machine
end

