-- ==== Sys2Proof/Machine/ProgramMask.lean ====
section
/-! DEFINITION. INSERT PROGRAM MASK (`47_insert_program_mask.md`). -/

namespace Sys2Proof.Machine

/-- IPM: bits 32-39 of R1 become two zeros, the condition code and the program mask; its other bits and the condition code
are unchanged (R170). -/
def execIpm (r1 : Reg) (s : State) : Result :=
  let old := s.gr r1
  (s.setGr r1 (hi32 old ++ (0 : BitVec 2) ++ s.psw.cc ++ s.psw.pm ++ old.extractLsb' 0 24)).complete 4

end Sys2Proof.Machine
end

