-- ==== Sys2Proof/Machine/Dispatch.lean ====
section
/-! DEFINITION. The meaning of each instruction, one arm per constructor of Instr. -/

namespace Sys2Proof.Machine

def exec (i : Instr) (s : State) : Host.Outcome State Fault Refusal :=
  match i with
  -- ADD
  | .ar r1 r2 => Sys2Proof.Machine.execAr r1 r2 s
  | .agr r1 r2 => Sys2Proof.Machine.execAgr r1 r2 s
  | .agfr r1 r2 => Sys2Proof.Machine.execAgfr r1 r2 s
  | .a r1 x2 b2 d2 => Sys2Proof.Machine.execA r1 x2 b2 d2 s
  | .ay r1 x2 b2 d2 => Sys2Proof.Machine.execAy r1 x2 b2 d2 s
  | .ag r1 x2 b2 d2 => Sys2Proof.Machine.execAg r1 x2 b2 d2 s
  | .agf r1 x2 b2 d2 => Sys2Proof.Machine.execAgf r1 x2 b2 d2 s
  -- ADD HALFWORD
  | .ah r1 x2 b2 d2 => Sys2Proof.Machine.execAh r1 x2 b2 d2 s
  | .ahy r1 x2 b2 d2 => Sys2Proof.Machine.execAhy r1 x2 b2 d2 s
  -- ADD HALFWORD IMMEDIATE
  | .ahi r1 i2 => Sys2Proof.Machine.execAhi r1 i2 s
  | .aghi r1 i2 => Sys2Proof.Machine.execAghi r1 i2 s
  -- ADD LOGICAL
  | .alr r1 r2 => Sys2Proof.Machine.execAlr r1 r2 s
  | .algr r1 r2 => Sys2Proof.Machine.execAlgr r1 r2 s
  | .algfr r1 r2 => Sys2Proof.Machine.execAlgfr r1 r2 s
  | .al r1 x2 b2 d2 => Sys2Proof.Machine.execAl r1 x2 b2 d2 s
  | .aly r1 x2 b2 d2 => Sys2Proof.Machine.execAly r1 x2 b2 d2 s
  | .alg r1 x2 b2 d2 => Sys2Proof.Machine.execAlg r1 x2 b2 d2 s
  | .algf r1 x2 b2 d2 => Sys2Proof.Machine.execAlgf r1 x2 b2 d2 s
  -- ADD LOGICAL WITH CARRY
  | .alcr r1 r2 => Sys2Proof.Machine.execAlcr r1 r2 s
  | .alcgr r1 r2 => Sys2Proof.Machine.execAlcgr r1 r2 s
  | .alc r1 x2 b2 d2 => Sys2Proof.Machine.execAlc r1 x2 b2 d2 s
  | .alcg r1 x2 b2 d2 => Sys2Proof.Machine.execAlcg r1 x2 b2 d2 s
  -- AND
  | .nr r1 r2 => Sys2Proof.Machine.execNr r1 r2 s
  | .ngr r1 r2 => Sys2Proof.Machine.execNgr r1 r2 s
  | .n r1 x2 b2 d2 => Sys2Proof.Machine.execN r1 x2 b2 d2 s
  | .ny r1 x2 b2 d2 => Sys2Proof.Machine.execNy r1 x2 b2 d2 s
  | .ng r1 x2 b2 d2 => Sys2Proof.Machine.execNg r1 x2 b2 d2 s
  | .ni b1 d1 i2 => Sys2Proof.Machine.execNi b1 d1 i2 s
  -- CIPHER MESSAGE
  | .km r1 r2 => Sys2Proof.Machine.execKm r1 r2 s
  -- CIPHER MESSAGE WITH CHAINING
  | .kmc r1 r2 => Sys2Proof.Machine.execKmc r1 r2 s
  -- COMPARE
  | .cr r1 r2 => Sys2Proof.Machine.execCr r1 r2 s
  | .cgr r1 r2 => Sys2Proof.Machine.execCgr r1 r2 s
  | .cgfr r1 r2 => Sys2Proof.Machine.execCgfr r1 r2 s
  | .c r1 x2 b2 d2 => Sys2Proof.Machine.execC r1 x2 b2 d2 s
  | .cy r1 x2 b2 d2 => Sys2Proof.Machine.execCy r1 x2 b2 d2 s
  | .cg r1 x2 b2 d2 => Sys2Proof.Machine.execCg r1 x2 b2 d2 s
  | .cgf r1 x2 b2 d2 => Sys2Proof.Machine.execCgf r1 x2 b2 d2 s
  -- COMPARE AND FORM CODEWORD
  | .cfc b2 d2 => Sys2Proof.Machine.execCfc b2 d2 s
  -- INSERT PROGRAM MASK
  | .ipm r1 => Sys2Proof.Machine.execIpm r1 s
  -- LOAD
  | .lr r1 r2 => Sys2Proof.Machine.execLr r1 r2 s
  | .lgr r1 r2 => Sys2Proof.Machine.execLgr r1 r2 s
  | .lgfr r1 r2 => Sys2Proof.Machine.execLgfr r1 r2 s
  | .l r1 x2 b2 d2 => Sys2Proof.Machine.execL r1 x2 b2 d2 s
  | .ly r1 x2 b2 d2 => Sys2Proof.Machine.execLy r1 x2 b2 d2 s
  | .lg r1 x2 b2 d2 => Sys2Proof.Machine.execLg r1 x2 b2 d2 s
  | .lgf r1 x2 b2 d2 => Sys2Proof.Machine.execLgf r1 x2 b2 d2 s
  -- LOAD ACCESS MULTIPLE
  | .lam r1 r3 b2 d2 => Sys2Proof.Machine.execLam r1 r3 b2 d2 s
  | .lamy r1 r3 b2 d2 => Sys2Proof.Machine.execLamy r1 r3 b2 d2 s
  -- LOAD ADDRESS
  | .la r1 x2 b2 d2 => Sys2Proof.Machine.execLa r1 x2 b2 d2 s
  | .lay r1 x2 b2 d2 => Sys2Proof.Machine.execLay r1 x2 b2 d2 s
  -- LOAD ADDRESS EXTENDED
  | .lae r1 x2 b2 d2 => Sys2Proof.Machine.execLae r1 x2 b2 d2 s

end Sys2Proof.Machine
end

