-- ==== Sys2Proof/Machine/Fetch.lean ====
section
/-! DEFINITION. Fetching the instruction at the instruction address, and what a step finds there before any instruction is
executed (`30_encoding.md` R72, R73; `60_exceptions.md` R212, R213, R216, R219). -/

namespace Sys2Proof.Machine

/-- What a step finds. -/
inductive Fetched where
  /-- A program exception of the PSW or of the instruction fetch, with the halfwords its instruction-length code counts. -/
  | trap (e : ProgramException) (halfwords : Nat)
  /-- The bytes of the instruction. -/
  | instruction (bytes : List Byte)
  deriving DecidableEq, Repr

/-- The instruction address is odd (`10_state.md` R18). -/
def Psw.iaOdd (p : Psw) : Bool := p.ia.getLsbD 0

/-- The length in bytes of the instruction at the instruction address, told by its first byte (`30_encoding.md` R73). -/
def State.lengthAtIa (s : State) : Nat := instrLength (s.mem.read (s.wrap s.psw.ia).toNat)

/-- The instruction fetch, in the order of `60_exceptions.md` R219 and `92_eei_decisions.md` D25: an invalid PSW
(`10_state.md` R17; log entry 12) and an odd instruction address (R18, R216) are specification exceptions, the second with
R212's length code 0 and, as no length is known, the odd address itself saved (DESIGN CHOICE, log entry 21); then the first
halfword is fetched, which tells the length, then the rest. The length code is the instruction's, or, when the first
halfword cannot be fetched, free (log entry 6). The wait state is not modelled (R232; log entry 14). -/
def State.fetchInstr (s : State) : Fetched :=
  if !s.psw.modeValid then .trap .specification 0
  else if s.psw.iaOdd then .trap .specification 0
  else
    match s.firstDenied .fetch s.psw.ia 2 with
    | some d => .trap (.access .fetch d) ((Config.unreadHalfwords s.interruptions).val + 1)
    | none =>
      match s.firstDenied .fetch s.psw.ia s.lengthAtIa with
      | some d => .trap (.access .fetch d) (s.lengthAtIa / 2)
      | none => .instruction (s.bytesAt s.psw.ia s.lengthAtIa)

/-- The bytes stored at consecutive addresses from `a`, each reduced to the addressing mode. -/
def State.placeBytes : State → Dword → List Byte → State
  | s, _, [] => s
  | s, a, b :: bs => State.placeBytes (s.setMem (s.mem.write (s.wrap a).toNat b)) (a + 1) bs

/-- The state with what an instruction fetch needs: a valid addressing mode, an even instruction address, and the longest
instruction's bytes at it admitted for fetch. Nothing changes where the state has it already. -/
def State.readyToFetch (s : State) : State :=
  let p := s.psw
  let t : State :=
    { s with psw := { p with
        ba := if p.modeValid then p.ba else 1
        ia := if p.iaOdd then p.ia - 1 else p.ia } }
  if (t.firstDenied .fetch t.psw.ia 6).isNone then t
  else { t with admits := ⟨0, 2 ^ 64, true, false⟩ :: t.admits }

end Sys2Proof.Machine
end

