-- ==== Sys2Proof/Machine/Step.lean ====
section
/-! DEFINITION. One step of the machine: fetch, decode, execute (`70_reset_and_hazards.md` R253). -/

namespace Sys2Proof.Machine

/-- One instruction, or the interruption its fetch meets. Bytes that match no row are refused
(`30_encoding.md` R88). -/
def step (s : State) : Host.Outcome State Fault Refusal :=
  match s.fetchInstr with
  | .trap e halfwords => .next (s.suppress e halfwords)
  | .instruction bytes =>
    match decode bytes with
    | .ok i => exec i s
    | .error why => .refused (.notInTable why)

/-- The state with a row's bits placed where `step` fetches its next instruction: the bytes at the instruction address, and
whatever the fetch needs that the state lacks (nothing at reset). -/
def State.withFetchWord (s : State) (nbits w : Nat) : State :=
  let t := s.readyToFetch
  t.placeBytes t.psw.ia (tableWordBytes nbits w)

end Sys2Proof.Machine
end

