-- ==== Sys2Proof/Machine/Run.lean ====
section
/-! DEFINITION. A run as the spec's claims see it: it ends at `end_pc`, or at the first program interruption, or at a refusal
(`70_reset_and_hazards.md` R253, `60_exceptions.md` R222). -/

namespace Sys2Proof.Machine

/-- The state that the ending of the interrupted instruction leaves (`60_exceptions.md` R222, `92_eei_decisions.md` D8), where
the step from `s` answered `t`: for a fixed-point overflow the result stored, code 3 set and the instruction address
advanced; for any other exception the state before the instruction. The PSW swap of R221 is no part of it. -/
def State.ending (s t : State) (e : ProgramException) : State :=
  match e with
  | .fixedPointOverflow => { (s.setCc 3).advance s.lengthAtIa with grs := t.grs }
  | .operation | .specification | .access _ _ => s

/-- A step as R222 sees it: one that takes a program interruption is a fault with the exception, its information and the
ending's state. Every other step is the machine's. -/
def runStep (s : State) : Result :=
  match step s with
  | .next t =>
    match t.lastInterruption with
    | some e => if t.interruptions = s.interruptions then .next t else .fault (.programInterruption e (s.ending t e))
    | none => .next t
  | r => r

/-- How a run ends (R253). -/
inductive RunEnd where
  /-- `pc = end_pc`: the final state. -/
  | final (s : State)
  /-- A program interruption, with the state its ending leaves: never a final state (R222). -/
  | interrupted (e : ProgramException) (ending : State)
  /-- A refusal. -/
  | refused (r : Refusal)
  /-- The steps ran out. -/
  | unfinished (s : State)
  deriving DecidableEq, Repr

/-- A run of at most `k` steps that ends at `endPc` (the parameter `end_pc` of `00_scope.md` R4). -/
def runTo (endPc : Dword) : Nat → State → RunEnd
  | k, s =>
    if s.psw.ia = endPc then .final s
    else
      match k with
      | 0 => .unfinished s
      | j + 1 =>
        match runStep s with
        | .next t => runTo endPc j t
        | .fault (.programInterruption e u) => .interrupted e u
        | .refused r => .refused r

end Sys2Proof.Machine
end

