-- ==== Sys2Proof/Safety.lean ====
section
/-! DEFINITION. What counts as a safe run, and what a launch state must meet, in the terms claims use. -/

namespace Sys2Proof.Machine

/-- No program interruption has been taken (`60_exceptions.md` R222: every claim carries it). -/
abbrev State.uninterrupted (s : State) : Prop := s.interruptions = 0 ∧ s.lastInterruption = none

/-! The launch premises of `70_reset_and_hazards.md` R252. Premises 4 (`mem_admits` fixed), 5 (no asynchronous
interruption) and 7 (z/Architecture mode) hold of every run of this model. -/

/-- Premise 9: address translation is off, or the machine's translation, which the spec leaves out (`20_memory.md` R54) and a
claim supplies, is the identity on every address the program can use, which is every address that is admitted. -/
abbrev State.translationInvisible (s : State) (translate : Dword → Dword) : Prop :=
  s.psw.dat = 0 ∨ ∀ x k, s.admitsByte k x = true → translate x = x

/-- The premises a state alone can show: an even `pc` (1) that fits a valid addressing mode (2), program-event recording off
(6), translation off or invisible (9); and the model's own two: the CPU is not in the wait state, which is not modelled
(log entry 14), and storage has its canonical form (log entry 2). -/
abbrev State.launchable (s : State) (translate : Dword → Dword) : Prop :=
  s.psw.modeValid = true ∧ s.psw.iaOdd = false ∧ s.wrap s.psw.ia = s.psw.ia ∧ s.psw.per = 0 ∧
    s.translationInvisible translate ∧ s.psw.wait = 0 ∧ s.mem.wf = true

/-- Premise 3, its first half: the bytes of the program are in storage from `a` on and are admitted for fetch. -/
abbrev State.holdsProgram (s : State) (a : Dword) (code : List Byte) : Prop :=
  s.bytesAt a code.length = code ∧ s.firstDenied .fetch a code.length = none

/-- The byte of storage that the instruction at `pc` stores into: NI's first operand, and none for any other instruction
(`20_memory.md` R58). -/
def State.storeTarget (s : State) : Option Dword :=
  match s.fetchInstr with
  | .trap _ _ => none
  | .instruction bytes =>
    match decode bytes with
    | .ok (.ni b1 d1 _) => some (s.eaB (shortDisp d1) b1)
    | _ => none

/-- The instruction at `pc` stores into none of the `n` bytes of the program at `a`. -/
def State.stepSparesProgram (s : State) (a : Dword) (n : Nat) : Bool :=
  match s.storeTarget with
  | none => true
  | some x => !(s.byteAddresses a n).contains x

/-- Premise 3, its second half (`92_eei_decisions.md` D11): no step of the run `runTo endPc k` stores into the program. -/
def State.runSparesProgram (a : Dword) (n : Nat) (endPc : Dword) : Nat → State → Bool
  | 0, _ => true
  | k + 1, s =>
    s.psw.ia = endPc || (s.stepSparesProgram a n &&
      match runStep s with
      | .next t => State.runSparesProgram a n endPc k t
      | _ => true)

/-- What a claim about a program says of its launch (R252; `00_scope.md` R4). -/
structure Launch where
  /-- The bytes of the program, which lie at the launch `pc` (premises 1 and 3). -/
  code : List Byte
  /-- `end_pc`. -/
  endPc : Dword
  /-- How many steps the run may take. -/
  steps : Nat
  /-- The value of `ld_installed` (premise 8). -/
  facility : Bool
  /-- The machine's address translation (premise 9). -/
  translate : Dword → Dword

/-- The launch state meets every premise of R252 that does not hold by itself. -/
abbrev State.meetsPremises (s : State) (l : Launch) : Prop :=
  s.launchable l.translate ∧ s.holdsProgram s.psw.ia l.code ∧
    State.runSparesProgram s.psw.ia l.code.length l.endPc l.steps s = true ∧ s.ldInstalled = l.facility

/-- A run is safe when it ends at `end_pc` (R253): no program interruption, no refusal. -/
def RunEnd.safe : RunEnd → Bool
  | .final _ => true
  | .interrupted _ _ => false
  | .refused _ => false
  | .unfinished _ => false

end Sys2Proof.Machine
end

