-- ==== Sys2Proof/WellFormed.lean ====
section
/-! DEFINITION. Which instructions can be encoded: every register number is valid (`30_encoding.md` R93), and each
displacement or immediate lies in the range R90 gives its field. -/

namespace Sys2Proof

/-- A 12-bit unsigned displacement, 0 to 4095 (`30_encoding.md` R80). -/
def fitsU12 (d : Nat) : Bool := decide (d < 4096)

/-- A 20-bit signed displacement, -524288 to 524287 (R81). -/
def fitsS20 (d : Int) : Bool := decide (-524288 ≤ d ∧ d ≤ 524287)

/-- A 16-bit signed immediate, -32768 to 32767 (R85). -/
def fitsS16 (i : Int) : Bool := decide (-32768 ≤ i ∧ i ≤ 32767)

/-- Every operand of the instruction fits its field. -/
def Instr.wellFormed : Instr → Bool
  | .ar _ _ => true
  | .agr _ _ => true
  | .agfr _ _ => true
  | .a _ _ _ d2 => fitsU12 d2
  | .ay _ _ _ d2 => fitsS20 d2
  | .ag _ _ _ d2 => fitsS20 d2
  | .agf _ _ _ d2 => fitsS20 d2
  | .ah _ _ _ d2 => fitsU12 d2
  | .ahy _ _ _ d2 => fitsS20 d2
  | .ahi _ i2 => fitsS16 i2
  | .aghi _ i2 => fitsS16 i2
  | .alr _ _ => true
  | .algr _ _ => true
  | .algfr _ _ => true
  | .al _ _ _ d2 => fitsU12 d2
  | .aly _ _ _ d2 => fitsS20 d2
  | .alg _ _ _ d2 => fitsS20 d2
  | .algf _ _ _ d2 => fitsS20 d2
  | .alcr _ _ => true
  | .alcgr _ _ => true
  | .alc _ _ _ d2 => fitsS20 d2
  | .alcg _ _ _ d2 => fitsS20 d2
  | .nr _ _ => true
  | .ngr _ _ => true
  | .n _ _ _ d2 => fitsU12 d2
  | .ny _ _ _ d2 => fitsS20 d2
  | .ng _ _ _ d2 => fitsS20 d2
  | .ni _ d1 _ => fitsU12 d1
  | .km _ _ => true
  | .kmc _ _ => true
  | .cr _ _ => true
  | .cgr _ _ => true
  | .cgfr _ _ => true
  | .c _ _ _ d2 => fitsU12 d2
  | .cy _ _ _ d2 => fitsS20 d2
  | .cg _ _ _ d2 => fitsS20 d2
  | .cgf _ _ _ d2 => fitsS20 d2
  | .cfc _ d2 => fitsU12 d2
  | .ipm _ => true
  | .lr _ _ => true
  | .lgr _ _ => true
  | .lgfr _ _ => true
  | .l _ _ _ d2 => fitsU12 d2
  | .ly _ _ _ d2 => fitsS20 d2
  | .lg _ _ _ d2 => fitsS20 d2
  | .lgf _ _ _ d2 => fitsS20 d2
  | .lam _ _ _ d2 => fitsU12 d2
  | .lamy _ _ _ d2 => fitsS20 d2
  | .la _ _ _ d2 => fitsU12 d2
  | .lay _ _ _ d2 => fitsS20 d2
  | .lae _ _ _ d2 => fitsU12 d2

end Sys2Proof
end

