-- ==== Sys2Proof/Certificates/Slice0/Obligations.lean ====
section
/-! DEFINITION. The statements for the provers. First the words they are said in: exact sums, condition codes as the rules
list them, operands in storage, and what an instruction leaves unchanged. -/

namespace Sys2Proof.Claims

open Sys2Proof.Machine

/-! ## Condition codes, from exact integers -/

/-- `40_add.md` R100 from the exact sum `x`: 3 if it is outside the range of `n` bits, else 0, 1 or 2 by its sign. -/
def signedCode (n : Nat) (x : Int) : Cc :=
  if x < -(2 ^ (n - 1)) ∨ 2 ^ (n - 1) ≤ x then 3 else if x = 0 then 0 else if x < 0 then 1 else 2

/-- `40_add.md` R101 from the exact sum `t`: twice the carry out, plus one when the truncated sum is not zero. -/
def logicalCode (n t : Nat) : Cc :=
  BitVec.ofNat 2 (2 * (if 2 ^ n ≤ t then 1 else 0) + (if t % 2 ^ n = 0 then 0 else 1))

/-- `46_compare.md` R155: 0 equal, 1 first operand low, 2 first operand high. -/
def compareCode (x y : Int) : Cc := if x = y then 0 else if x < y then 1 else 2

/-- `43_add_logical_with_carry.md` R130: the carry in is 1 exactly when the condition code is 2 or 3. -/
def carryIn (s : State) : Nat := if 2 ≤ s.psw.cc.toNat then 1 else 0

/-! ## Operands in storage -/

/-- All `n` bytes of the operand at `a` may be referenced (`20_memory.md` R44, R47). -/
def Admitted (s : State) (kind : AccessKind) (a : Dword) (n : Nat) : Prop :=
  ∀ k < n, s.admitsByte kind (s.wrap (a + BitVec.ofNat 64 k)) = true

/-- The first byte of the operand that may not be referenced is at `d` (`60_exceptions.md` R213). -/
def DeniedAt (s : State) (kind : AccessKind) (a : Dword) (n : Nat) (d : Dword) : Prop :=
  ∃ k < n, d = s.wrap (a + BitVec.ofNat 64 k) ∧ s.admitsByte kind d = false ∧ Admitted s kind a k

/-- The byte of an operand at `a` that is `k` further on (R47). -/
def byteAt (s : State) (a : Dword) (k : Nat) : Byte := s.mem.read (s.wrap (a + BitVec.ofNat 64 k)).toNat

/-- The halfword at `a`, big-endian (R41). -/
def halfAt (s : State) (a : Dword) : Half := byteAt s a 0 ++ byteAt s a 1

/-- The word at `a`, big-endian (R41). -/
def wordAt (s : State) (a : Dword) : Word := byteAt s a 0 ++ byteAt s a 1 ++ byteAt s a 2 ++ byteAt s a 3

/-- The doubleword at `a`, big-endian (R41). -/
def dwordAt (s : State) (a : Dword) : Dword := wordAt s a ++ wordAt s (a + 4)

/-! ## What changes and what does not -/

/-- The address of the next sequential instruction (`10_state.md` R19). -/
def nextIa (s : State) (ilen : Nat) : Dword := s.wrap (s.psw.ia + BitVec.ofNat 64 ilen)

/-- The launch parameters and the interruption record are unchanged. -/
def SameLaunch (s t : State) : Prop :=
  t.ldInstalled = s.ldInstalled ∧ t.admits = s.admits ∧ t.interruptions = s.interruptions ∧
    t.lastInterruption = s.lastInterruption

/-- Of the PSW only the condition code, now `c`, and the instruction address, now the next instruction's, may differ. -/
def PswAfter (s t : State) (c : Cc) (ilen : Nat) : Prop := t.psw = { s.psw with cc := c, ia := nextIa s ilen }

/-- The instruction is completed, with `v` in general register `r1` and condition code `c`: every other general register,
every access register, every byte of storage, the rest of the PSW, the launch parameters are unchanged. -/
def WritesGr (s t : State) (r1 : Reg) (v : Dword) (c : Cc) (ilen : Nat) : Prop :=
  t.gr r1 = v ∧ (∀ r, r ≠ r1 → t.gr r = s.gr r) ∧ (∀ r, t.ar r = s.ar r) ∧ (∀ a, t.mem.read a = s.mem.read a) ∧
    PswAfter s t c ilen ∧ SameLaunch s t

/-- The instruction is completed and only the condition code, now `c`, and the instruction address differ. -/
def WritesCc (s t : State) (c : Cc) (ilen : Nat) : Prop :=
  (∀ r, t.gr r = s.gr r) ∧ (∀ r, t.ar r = s.ar r) ∧ (∀ a, t.mem.read a = s.mem.read a) ∧ PswAfter s t c ilen ∧
    SameLaunch s t

/-- A 32-bit or 64-bit result in a general register: a 32-bit one leaves bits 0-31 (`10_state.md` R11). -/
def result (s : State) (r1 : Reg) (wide : Bool) (x : Int) : Dword :=
  if wide then BitVec.ofInt 64 x else hi32 (s.gr r1) ++ BitVec.ofInt 32 x

/-- The width of a result. -/
def width (wide : Bool) : Nat := if wide then 64 else 32

/-! ## The operands of each family -/

/-- In state `s` the ADD, ADD HALFWORD or ADD HALFWORD IMMEDIATE instruction `i`, `ilen` bytes long, adds its operands to
the exact sum `x`, for a result of 64 (`wide`) or 32 bits in R1 (`40_add.md` R102 to R108, `41_add_halfword.md` R113 to
R116). A storage operand is admitted and the facility the instruction needs is installed. -/
inductive SignedAdd (s : State) : Instr → Nat → Reg → Bool → Int → Prop
  | ar (r1 r2 : Reg) : SignedAdd s (.ar r1 r2) 2 r1 false ((lo32 (s.gr r1)).toInt + (lo32 (s.gr r2)).toInt)
  | agr (r1 r2 : Reg) : SignedAdd s (.agr r1 r2) 4 r1 true ((s.gr r1).toInt + (s.gr r2).toInt)
  | agfr (r1 r2 : Reg) : SignedAdd s (.agfr r1 r2) 4 r1 true ((s.gr r1).toInt + (lo32 (s.gr r2)).toInt)
  | a (r1 x2 b2 : Reg) (d2 : Nat) (h : Admitted s .fetch (s.eaX (shortDisp d2) x2 b2) 4) :
      SignedAdd s (.a r1 x2 b2 d2) 4 r1 false
        ((lo32 (s.gr r1)).toInt + (wordAt s (s.eaX (shortDisp d2) x2 b2)).toInt)
  | ay (r1 x2 b2 : Reg) (d2 : Int) (hf : s.ldInstalled = true) (h : Admitted s .fetch (s.eaX (longDisp d2) x2 b2) 4) :
      SignedAdd s (.ay r1 x2 b2 d2) 6 r1 false
        ((lo32 (s.gr r1)).toInt + (wordAt s (s.eaX (longDisp d2) x2 b2)).toInt)
  | ag (r1 x2 b2 : Reg) (d2 : Int) (h : Admitted s .fetch (s.eaX (s.olderDisp d2) x2 b2) 8) :
      SignedAdd s (.ag r1 x2 b2 d2) 6 r1 true
        ((s.gr r1).toInt + (dwordAt s (s.eaX (s.olderDisp d2) x2 b2)).toInt)
  | agf (r1 x2 b2 : Reg) (d2 : Int) (h : Admitted s .fetch (s.eaX (s.olderDisp d2) x2 b2) 4) :
      SignedAdd s (.agf r1 x2 b2 d2) 6 r1 true
        ((s.gr r1).toInt + (wordAt s (s.eaX (s.olderDisp d2) x2 b2)).toInt)
  | ah (r1 x2 b2 : Reg) (d2 : Nat) (h : Admitted s .fetch (s.eaX (shortDisp d2) x2 b2) 2) :
      SignedAdd s (.ah r1 x2 b2 d2) 4 r1 false
        ((lo32 (s.gr r1)).toInt + (halfAt s (s.eaX (shortDisp d2) x2 b2)).toInt)
  | ahy (r1 x2 b2 : Reg) (d2 : Int) (hf : s.ldInstalled = true) (h : Admitted s .fetch (s.eaX (longDisp d2) x2 b2) 2) :
      SignedAdd s (.ahy r1 x2 b2 d2) 6 r1 false
        ((lo32 (s.gr r1)).toInt + (halfAt s (s.eaX (longDisp d2) x2 b2)).toInt)
  | ahi (r1 : Reg) (i2 : Int) (hw : fitsS16 i2 = true) :
      SignedAdd s (.ahi r1 i2) 4 r1 false ((lo32 (s.gr r1)).toInt + i2)
  | aghi (r1 : Reg) (i2 : Int) (hw : fitsS16 i2 = true) :
      SignedAdd s (.aghi r1 i2) 4 r1 true ((s.gr r1).toInt + i2)

/-- In state `s` the ADD LOGICAL instruction `i` adds its operands to the exact sum `t` (`42_add_logical.md` R120 to
R126). -/
inductive LogicalAdd (s : State) : Instr → Nat → Reg → Bool → Nat → Prop
  | alr (r1 r2 : Reg) : LogicalAdd s (.alr r1 r2) 2 r1 false ((lo32 (s.gr r1)).toNat + (lo32 (s.gr r2)).toNat)
  | algr (r1 r2 : Reg) : LogicalAdd s (.algr r1 r2) 4 r1 true ((s.gr r1).toNat + (s.gr r2).toNat)
  | algfr (r1 r2 : Reg) : LogicalAdd s (.algfr r1 r2) 4 r1 true ((s.gr r1).toNat + (lo32 (s.gr r2)).toNat)
  | al (r1 x2 b2 : Reg) (d2 : Nat) (h : Admitted s .fetch (s.eaX (shortDisp d2) x2 b2) 4) :
      LogicalAdd s (.al r1 x2 b2 d2) 4 r1 false
        ((lo32 (s.gr r1)).toNat + (wordAt s (s.eaX (shortDisp d2) x2 b2)).toNat)
  | aly (r1 x2 b2 : Reg) (d2 : Int) (hf : s.ldInstalled = true) (h : Admitted s .fetch (s.eaX (longDisp d2) x2 b2) 4) :
      LogicalAdd s (.aly r1 x2 b2 d2) 6 r1 false
        ((lo32 (s.gr r1)).toNat + (wordAt s (s.eaX (longDisp d2) x2 b2)).toNat)
  | alg (r1 x2 b2 : Reg) (d2 : Int) (h : Admitted s .fetch (s.eaX (s.olderDisp d2) x2 b2) 8) :
      LogicalAdd s (.alg r1 x2 b2 d2) 6 r1 true
        ((s.gr r1).toNat + (dwordAt s (s.eaX (s.olderDisp d2) x2 b2)).toNat)
  | algf (r1 x2 b2 : Reg) (d2 : Int) (h : Admitted s .fetch (s.eaX (s.olderDisp d2) x2 b2) 4) :
      LogicalAdd s (.algf r1 x2 b2 d2) 6 r1 true
        ((s.gr r1).toNat + (wordAt s (s.eaX (s.olderDisp d2) x2 b2)).toNat)

/-- In state `s` the ADD LOGICAL WITH CARRY instruction `i` adds its operands, without the carry, to the exact sum `t`
(`43_add_logical_with_carry.md` R131 to R134). -/
inductive CarryAdd (s : State) : Instr → Nat → Reg → Bool → Nat → Prop
  | alcr (r1 r2 : Reg) : CarryAdd s (.alcr r1 r2) 4 r1 false ((lo32 (s.gr r1)).toNat + (lo32 (s.gr r2)).toNat)
  | alcgr (r1 r2 : Reg) : CarryAdd s (.alcgr r1 r2) 4 r1 true ((s.gr r1).toNat + (s.gr r2).toNat)
  | alc (r1 x2 b2 : Reg) (d2 : Int) (h : Admitted s .fetch (s.eaX (s.olderDisp d2) x2 b2) 4) :
      CarryAdd s (.alc r1 x2 b2 d2) 6 r1 false
        ((lo32 (s.gr r1)).toNat + (wordAt s (s.eaX (s.olderDisp d2) x2 b2)).toNat)
  | alcg (r1 x2 b2 : Reg) (d2 : Int) (h : Admitted s .fetch (s.eaX (s.olderDisp d2) x2 b2) 8) :
      CarryAdd s (.alcg r1 x2 b2 d2) 6 r1 true
        ((s.gr r1).toNat + (dwordAt s (s.eaX (s.olderDisp d2) x2 b2)).toNat)

/-- In state `s` the AND instruction `i` with a register result has the first operand `a` and the second `b`, zero-extended
when they are 32 bits (`44_and.md`). -/
inductive AndOperands (s : State) : Instr → Nat → Reg → Bool → Dword → Dword → Prop
  | nr (r1 r2 : Reg) :
      AndOperands s (.nr r1 r2) 2 r1 false ((lo32 (s.gr r1)).setWidth 64) ((lo32 (s.gr r2)).setWidth 64)
  | ngr (r1 r2 : Reg) : AndOperands s (.ngr r1 r2) 4 r1 true (s.gr r1) (s.gr r2)
  | n (r1 x2 b2 : Reg) (d2 : Nat) (h : Admitted s .fetch (s.eaX (shortDisp d2) x2 b2) 4) :
      AndOperands s (.n r1 x2 b2 d2) 4 r1 false ((lo32 (s.gr r1)).setWidth 64)
        ((wordAt s (s.eaX (shortDisp d2) x2 b2)).setWidth 64)
  | ny (r1 x2 b2 : Reg) (d2 : Int) (hf : s.ldInstalled = true) (h : Admitted s .fetch (s.eaX (longDisp d2) x2 b2) 4) :
      AndOperands s (.ny r1 x2 b2 d2) 6 r1 false ((lo32 (s.gr r1)).setWidth 64)
        ((wordAt s (s.eaX (longDisp d2) x2 b2)).setWidth 64)
  | ng (r1 x2 b2 : Reg) (d2 : Int) (h : Admitted s .fetch (s.eaX (s.olderDisp d2) x2 b2) 8) :
      AndOperands s (.ng r1 x2 b2 d2) 6 r1 true (s.gr r1) (dwordAt s (s.eaX (s.olderDisp d2) x2 b2))

/-- In state `s` the COMPARE instruction `i` compares the integers `x` and `y` (`46_compare.md` R156 to R162). -/
inductive Compared (s : State) : Instr → Nat → Int → Int → Prop
  | cr (r1 r2 : Reg) : Compared s (.cr r1 r2) 2 (lo32 (s.gr r1)).toInt (lo32 (s.gr r2)).toInt
  | cgr (r1 r2 : Reg) : Compared s (.cgr r1 r2) 4 (s.gr r1).toInt (s.gr r2).toInt
  | cgfr (r1 r2 : Reg) : Compared s (.cgfr r1 r2) 4 (s.gr r1).toInt (lo32 (s.gr r2)).toInt
  | c (r1 x2 b2 : Reg) (d2 : Nat) (h : Admitted s .fetch (s.eaX (shortDisp d2) x2 b2) 4) :
      Compared s (.c r1 x2 b2 d2) 4 (lo32 (s.gr r1)).toInt (wordAt s (s.eaX (shortDisp d2) x2 b2)).toInt
  | cy (r1 x2 b2 : Reg) (d2 : Int) (hf : s.ldInstalled = true) (h : Admitted s .fetch (s.eaX (longDisp d2) x2 b2) 4) :
      Compared s (.cy r1 x2 b2 d2) 6 (lo32 (s.gr r1)).toInt (wordAt s (s.eaX (longDisp d2) x2 b2)).toInt
  | cg (r1 x2 b2 : Reg) (d2 : Int) (h : Admitted s .fetch (s.eaX (s.olderDisp d2) x2 b2) 8) :
      Compared s (.cg r1 x2 b2 d2) 6 (s.gr r1).toInt (dwordAt s (s.eaX (s.olderDisp d2) x2 b2)).toInt
  | cgf (r1 x2 b2 : Reg) (d2 : Int) (h : Admitted s .fetch (s.eaX (s.olderDisp d2) x2 b2) 4) :
      Compared s (.cgf r1 x2 b2 d2) 6 (s.gr r1).toInt (wordAt s (s.eaX (s.olderDisp d2) x2 b2)).toInt

/-- In state `s` the LOAD instruction `i` puts `v` in R1 (`48_load.md` R175 to R181). -/
inductive Loaded (s : State) : Instr → Nat → Reg → Dword → Prop
  | lr (r1 r2 : Reg) : Loaded s (.lr r1 r2) 2 r1 (hi32 (s.gr r1) ++ lo32 (s.gr r2))
  | lgr (r1 r2 : Reg) : Loaded s (.lgr r1 r2) 4 r1 (s.gr r2)
  | lgfr (r1 r2 : Reg) : Loaded s (.lgfr r1 r2) 4 r1 (BitVec.ofInt 64 (lo32 (s.gr r2)).toInt)
  | l (r1 x2 b2 : Reg) (d2 : Nat) (h : Admitted s .fetch (s.eaX (shortDisp d2) x2 b2) 4) :
      Loaded s (.l r1 x2 b2 d2) 4 r1 (hi32 (s.gr r1) ++ wordAt s (s.eaX (shortDisp d2) x2 b2))
  | ly (r1 x2 b2 : Reg) (d2 : Int) (hf : s.ldInstalled = true) (h : Admitted s .fetch (s.eaX (longDisp d2) x2 b2) 4) :
      Loaded s (.ly r1 x2 b2 d2) 6 r1 (hi32 (s.gr r1) ++ wordAt s (s.eaX (longDisp d2) x2 b2))
  | lg (r1 x2 b2 : Reg) (d2 : Int) (h : Admitted s .fetch (s.eaX (s.olderDisp d2) x2 b2) 8) :
      Loaded s (.lg r1 x2 b2 d2) 6 r1 (dwordAt s (s.eaX (s.olderDisp d2) x2 b2))
  | lgf (r1 x2 b2 : Reg) (d2 : Int) (h : Admitted s .fetch (s.eaX (s.olderDisp d2) x2 b2) 4) :
      Loaded s (.lgf r1 x2 b2 d2) 6 r1 (BitVec.ofInt 64 (wordAt s (s.eaX (s.olderDisp d2) x2 b2)).toInt)

/-- In state `s` the LOAD ACCESS MULTIPLE instruction `i` loads access registers R1 to R3 from `addr`
(`49_load_access_and_address.md` R191, R192). -/
inductive AccessLoad (s : State) : Instr → Nat → Reg → Reg → Dword → Prop
  | lam (r1 r3 b2 : Reg) (d2 : Nat) : AccessLoad s (.lam r1 r3 b2 d2) 4 r1 r3 (s.eaB (shortDisp d2) b2)
  | lamy (r1 r3 b2 : Reg) (d2 : Int) (hf : s.ldInstalled = true) :
      AccessLoad s (.lamy r1 r3 b2 d2) 6 r1 r3 (s.eaB (longDisp d2) b2)

/-- In state `s` the LOAD ADDRESS instruction `i` computes the effective address `ea`
(`49_load_access_and_address.md` R196, R197). -/
inductive AddressLoad (s : State) : Instr → Nat → Reg → Dword → Prop
  | la (r1 x2 b2 : Reg) (d2 : Nat) : AddressLoad s (.la r1 x2 b2 d2) 4 r1 (s.eaX (shortDisp d2) x2 b2)
  | lay (r1 x2 b2 : Reg) (d2 : Int) (hf : s.ldInstalled = true) :
      AddressLoad s (.lay r1 x2 b2 d2) 6 r1 (s.eaX (longDisp d2) x2 b2)

/-- An address as the addressing mode places it in a general register (`49_load_access_and_address.md` R195): all of it in
the 64-bit mode; below unchanged bits 0-31, its low 31 bits under a zero, or its low 24 bits under eight zeros. -/
def placed (s : State) (r1 : Reg) (ea : Dword) : Dword :=
  match s.psw.amode with
  | .bits64 => ea
  | .bits31 => hi32 (s.gr r1) ++ BitVec.ofNat 32 (ea.toNat % 2 ^ 31)
  | .bits24 => hi32 (s.gr r1) ++ BitVec.ofNat 32 (ea.toNat % 2 ^ 24)

/-- The instructions of the long-displacement facility (`30_encoding.md` R89), all 6 bytes long. -/
inductive NeedsFacility : Instr → Prop
  | ay (r1 x2 b2 : Reg) (d2 : Int) : NeedsFacility (.ay r1 x2 b2 d2)
  | ahy (r1 x2 b2 : Reg) (d2 : Int) : NeedsFacility (.ahy r1 x2 b2 d2)
  | aly (r1 x2 b2 : Reg) (d2 : Int) : NeedsFacility (.aly r1 x2 b2 d2)
  | ny (r1 x2 b2 : Reg) (d2 : Int) : NeedsFacility (.ny r1 x2 b2 d2)
  | cy (r1 x2 b2 : Reg) (d2 : Int) : NeedsFacility (.cy r1 x2 b2 d2)
  | ly (r1 x2 b2 : Reg) (d2 : Int) : NeedsFacility (.ly r1 x2 b2 d2)
  | lamy (r1 r3 b2 : Reg) (d2 : Int) : NeedsFacility (.lamy r1 r3 b2 d2)
  | lay (r1 x2 b2 : Reg) (d2 : Int) : NeedsFacility (.lay r1 x2 b2 d2)

/-- In state `s` the instruction `i`, `ilen` bytes long, fetches the `n` bytes at `a` as its storage operand, and is not
stopped before that (`20_memory.md` R43; the facility installed, and for LAM and LAMY the operand on a word boundary). -/
inductive FetchesOperand (s : State) : Instr → Nat → Dword → Nat → Prop
  | a (r1 x2 b2 : Reg) (d2 : Nat) : FetchesOperand s (.a r1 x2 b2 d2) 4 (s.eaX (shortDisp d2) x2 b2) 4
  | ah (r1 x2 b2 : Reg) (d2 : Nat) : FetchesOperand s (.ah r1 x2 b2 d2) 4 (s.eaX (shortDisp d2) x2 b2) 2
  | al (r1 x2 b2 : Reg) (d2 : Nat) : FetchesOperand s (.al r1 x2 b2 d2) 4 (s.eaX (shortDisp d2) x2 b2) 4
  | n (r1 x2 b2 : Reg) (d2 : Nat) : FetchesOperand s (.n r1 x2 b2 d2) 4 (s.eaX (shortDisp d2) x2 b2) 4
  | c (r1 x2 b2 : Reg) (d2 : Nat) : FetchesOperand s (.c r1 x2 b2 d2) 4 (s.eaX (shortDisp d2) x2 b2) 4
  | l (r1 x2 b2 : Reg) (d2 : Nat) : FetchesOperand s (.l r1 x2 b2 d2) 4 (s.eaX (shortDisp d2) x2 b2) 4
  | ay (r1 x2 b2 : Reg) (d2 : Int) (hf : s.ldInstalled = true) :
      FetchesOperand s (.ay r1 x2 b2 d2) 6 (s.eaX (longDisp d2) x2 b2) 4
  | ahy (r1 x2 b2 : Reg) (d2 : Int) (hf : s.ldInstalled = true) :
      FetchesOperand s (.ahy r1 x2 b2 d2) 6 (s.eaX (longDisp d2) x2 b2) 2
  | aly (r1 x2 b2 : Reg) (d2 : Int) (hf : s.ldInstalled = true) :
      FetchesOperand s (.aly r1 x2 b2 d2) 6 (s.eaX (longDisp d2) x2 b2) 4
  | ny (r1 x2 b2 : Reg) (d2 : Int) (hf : s.ldInstalled = true) :
      FetchesOperand s (.ny r1 x2 b2 d2) 6 (s.eaX (longDisp d2) x2 b2) 4
  | cy (r1 x2 b2 : Reg) (d2 : Int) (hf : s.ldInstalled = true) :
      FetchesOperand s (.cy r1 x2 b2 d2) 6 (s.eaX (longDisp d2) x2 b2) 4
  | ly (r1 x2 b2 : Reg) (d2 : Int) (hf : s.ldInstalled = true) :
      FetchesOperand s (.ly r1 x2 b2 d2) 6 (s.eaX (longDisp d2) x2 b2) 4
  | ag (r1 x2 b2 : Reg) (d2 : Int) : FetchesOperand s (.ag r1 x2 b2 d2) 6 (s.eaX (s.olderDisp d2) x2 b2) 8
  | agf (r1 x2 b2 : Reg) (d2 : Int) : FetchesOperand s (.agf r1 x2 b2 d2) 6 (s.eaX (s.olderDisp d2) x2 b2) 4
  | alg (r1 x2 b2 : Reg) (d2 : Int) : FetchesOperand s (.alg r1 x2 b2 d2) 6 (s.eaX (s.olderDisp d2) x2 b2) 8
  | algf (r1 x2 b2 : Reg) (d2 : Int) : FetchesOperand s (.algf r1 x2 b2 d2) 6 (s.eaX (s.olderDisp d2) x2 b2) 4
  | alc (r1 x2 b2 : Reg) (d2 : Int) : FetchesOperand s (.alc r1 x2 b2 d2) 6 (s.eaX (s.olderDisp d2) x2 b2) 4
  | alcg (r1 x2 b2 : Reg) (d2 : Int) : FetchesOperand s (.alcg r1 x2 b2 d2) 6 (s.eaX (s.olderDisp d2) x2 b2) 8
  | ng (r1 x2 b2 : Reg) (d2 : Int) : FetchesOperand s (.ng r1 x2 b2 d2) 6 (s.eaX (s.olderDisp d2) x2 b2) 8
  | cg (r1 x2 b2 : Reg) (d2 : Int) : FetchesOperand s (.cg r1 x2 b2 d2) 6 (s.eaX (s.olderDisp d2) x2 b2) 8
  | cgf (r1 x2 b2 : Reg) (d2 : Int) : FetchesOperand s (.cgf r1 x2 b2 d2) 6 (s.eaX (s.olderDisp d2) x2 b2) 4
  | lg (r1 x2 b2 : Reg) (d2 : Int) : FetchesOperand s (.lg r1 x2 b2 d2) 6 (s.eaX (s.olderDisp d2) x2 b2) 8
  | lgf (r1 x2 b2 : Reg) (d2 : Int) : FetchesOperand s (.lgf r1 x2 b2 d2) 6 (s.eaX (s.olderDisp d2) x2 b2) 4
  | ni (b1 : Reg) (d1 : Nat) (i2 : Byte) : FetchesOperand s (.ni b1 d1 i2) 4 (s.eaB (shortDisp d1) b1) 1
  | lam (r1 r3 b2 : Reg) (d2 : Nat) (hb : (s.eaB (shortDisp d2) b2).toNat % 4 = 0) :
      FetchesOperand s (.lam r1 r3 b2 d2) 4 (s.eaB (shortDisp d2) b2) (4 * ((r3 - r1).toNat + 1))
  | lamy (r1 r3 b2 : Reg) (d2 : Int) (hf : s.ldInstalled = true) (hb : (s.eaB (longDisp d2) b2).toNat % 4 = 0) :
      FetchesOperand s (.lamy r1 r3 b2 d2) 6 (s.eaB (longDisp d2) b2) (4 * ((r3 - r1).toNat + 1))

/-- The exceptions the table of `60_exceptions.md` R210 gives an instruction while it is executed. -/
def MayRaise (i : Instr) (e : ProgramException) : Prop :=
  match i, e with
  | .ar .., .fixedPointOverflow | .agr .., .fixedPointOverflow | .agfr .., .fixedPointOverflow
  | .a .., .fixedPointOverflow | .ag .., .fixedPointOverflow | .agf .., .fixedPointOverflow
  | .ay .., .fixedPointOverflow | .ah .., .fixedPointOverflow | .ahy .., .fixedPointOverflow
  | .ahi .., .fixedPointOverflow | .aghi .., .fixedPointOverflow => True
  | .a .., .access .fetch _ | .ag .., .access .fetch _ | .agf .., .access .fetch _ | .ay .., .access .fetch _
  | .ah .., .access .fetch _ | .ahy .., .access .fetch _ | .al .., .access .fetch _ | .alg .., .access .fetch _
  | .algf .., .access .fetch _ | .aly .., .access .fetch _ | .alc .., .access .fetch _ | .alcg .., .access .fetch _
  | .c .., .access .fetch _ | .cg .., .access .fetch _ | .cgf .., .access .fetch _ | .cy .., .access .fetch _
  | .l .., .access .fetch _ | .lg .., .access .fetch _ | .lgf .., .access .fetch _ | .ly .., .access .fetch _
  | .lam .., .access .fetch _ | .lamy .., .access .fetch _ | .n .., .access .fetch _ | .ng .., .access .fetch _
  | .ny .., .access .fetch _ => True
  | .ni .., .access _ _ => True
  | .ay .., .operation | .ahy .., .operation | .aly .., .operation | .cy .., .operation | .ly .., .operation
  | .lamy .., .operation | .lay .., .operation | .ny .., .operation => True
  | .lam .., .specification | .lamy .., .specification => True
  | _, _ => False

/-- The instructions that never set the condition code: the last lines of `10_state.md` R23 ("IPM, LOAD family, LAM, LAMY,
LA, LAY"), and LAE (R203). -/
def LeavesCc (i : Instr) : Bool :=
  match i with
  | .ipm .. | .lr .. | .lgr .. | .lgfr .. | .l .. | .ly .. | .lg .. | .lgf .. | .lam .. | .lamy .. | .la .. | .lay ..
  | .lae .. => true
  | _ => false

/-- The instructions that load access registers (`10_state.md` R12). -/
def LoadsAccess (i : Instr) : Bool :=
  match i with
  | .lam .. | .lamy .. | .lae .. => true
  | _ => false

/-- The instructions that raise a fixed-point overflow (`60_exceptions.md` R215). -/
def IsSignedAdd (i : Instr) : Bool :=
  match i with
  | .ar .. | .agr .. | .agfr .. | .a .. | .ay .. | .ag .. | .agf .. | .ah .. | .ahy .. | .ahi .. | .aghi .. => true
  | _ => false

/-- The COMPARE instructions, which never set code 3 (R23). -/
def IsCompare (i : Instr) : Bool :=
  match i with
  | .cr .. | .cgr .. | .cgfr .. | .c .. | .cy .. | .cg .. | .cgf .. => true
  | _ => false

/-- The AND instructions, which set code 0 or 1 only (R23, there as general knowledge). -/
def IsAnd (i : Instr) : Bool :=
  match i with
  | .nr .. | .ngr .. | .n .. | .ny .. | .ng .. | .ni .. => true
  | _ => false

/-- Whether an instruction is NI. -/
def IsNi (i : Instr) : Bool :=
  match i with
  | .ni .. => true
  | _ => false

/-- Whether an instruction is LAE. -/
def IsLae (i : Instr) : Bool :=
  match i with
  | .lae .. => true
  | _ => false

/-- A general register's value in the addressing mode after adding to its rightmost bits (R198). -/
def incremented (s : State) (r : Reg) (d : Int) : Dword :=
  match s.psw.amode with
  | .bits64 => BitVec.ofInt 64 ((s.gr r).toNat + d)
  | .bits31 => hi32 (s.gr r) ++ BitVec.ofInt 32 (((s.gr r).toNat + d) % 2 ^ 31)
  | .bits24 => hi32 (s.gr r) ++ BitVec.ofInt 32 (((s.gr r).toNat + d) % 2 ^ 24)

/-- The state with the PSW bits that no rule reads (`10_state.md` R20) and the address-space control taken from `p`. -/
def withUnreadBits (s : State) (p : Psw) : State :=
  { s with psw := { p with cc := s.psw.cc, pm := s.psw.pm, ea := s.psw.ea, ba := s.psw.ba, ia := s.psw.ia } }

/-- The state with the PSW bits of `10_state.md` R20 alone taken from `p`. -/
def withOpaqueBits (s : State) (p : Psw) : State := withUnreadBits s { p with asc := s.psw.asc }

end Sys2Proof.Claims

section Statements

open Sys2Proof Sys2Proof.Machine Sys2Proof.Claims

/-! ## The laws -/

/-- The signed addition law (R100), for both widths: the result is the exact signed sum truncated, the condition code is 3
exactly when the exact sum is out of range and otherwise tells its sign, and the overflow the bits show is that of the
integers, which operands of different signs never give. And whether or not the overflow interruption then occurs, every ADD,
ADD HALFWORD and ADD HALFWORD IMMEDIATE stores that result and sets that code. That the interruption is taken, and the
instruction so answers a next state, is the model's choice of R221 (log entry 4, against R222). -/
def Obligations.SignedAdditionLaw : Prop :=
  (∀ a b : BitVec 32, addSigned a b = (BitVec.ofInt 32 (a.toInt + b.toInt), signedCode 32 (a.toInt + b.toInt)) ∧
    (signedOverflow a b = true ↔ (a.toInt + b.toInt < -2 ^ 31 ∨ 2 ^ 31 - 1 < a.toInt + b.toInt)) ∧
    (a.msb ≠ b.msb → signedOverflow a b = false)) ∧
  (∀ a b : BitVec 64, addSigned a b = (BitVec.ofInt 64 (a.toInt + b.toInt), signedCode 64 (a.toInt + b.toInt)) ∧
    (signedOverflow a b = true ↔ (a.toInt + b.toInt < -2 ^ 63 ∨ 2 ^ 63 - 1 < a.toInt + b.toInt)) ∧
    (a.msb ≠ b.msb → signedOverflow a b = false)) ∧
  ∀ (s : State) (i : Instr) (ilen : Nat) (r1 : Reg) (wide : Bool) (x : Int), SignedAdd s i ilen r1 wide x →
    ∃ t, WritesGr s t r1 (result s r1 wide x) (signedCode (width wide) x) ilen ∧
      (exec i s = .next t ∨ exec i s = .next (t.interrupt .fixedPointOverflow (ilen / 2)))

/-- R101: the result is the exact sum with the carry in, truncated; the code is twice the carry out plus one when the result
is not zero; with no carry in code 0 means 0 + 0, with a carry in code 0 cannot arise, and two operands of all ones give all
ones and code 3. No instruction that adds so is interrupted for a carry. -/
def Obligations.UnsignedAdditionLaw : Prop :=
  (∀ (n : Nat), 0 < n → ∀ (a b : BitVec n) (cin : Bool),
    (addLogical a b cin).1.toNat = (a.toNat + b.toNat + cin.toNat) % 2 ^ n ∧
    (addLogical a b cin).2 = logicalCode n (a.toNat + b.toNat + cin.toNat) ∧
    ((addLogical a b false).2 = 0 ↔ a = 0 ∧ b = 0) ∧ (addLogical a b true).2 ≠ 0 ∧
    addLogical (BitVec.allOnes n) (BitVec.allOnes n) true = (BitVec.allOnes n, 3)) ∧
  ∀ (s : State) (i : Instr) (ilen : Nat) (r1 : Reg) (wide : Bool) (x : Nat),
    LogicalAdd s i ilen r1 wide x ∨ CarryAdd s i ilen r1 wide x →
    ∃ t, exec i s = .next t ∧ t.interruptions = s.interruptions

/-- R155: the comparison is of the integers and code 3 is never set; every COMPARE sets only the condition code, so, and
changes no register and no storage and is not interrupted. -/
def Obligations.ComparisonLaw : Prop :=
  (∀ (n : Nat) (a b : BitVec n),
    (compareSigned a b = 0 ↔ a.toInt = b.toInt) ∧ (compareSigned a b = 1 ↔ a.toInt < b.toInt) ∧
    (compareSigned a b = 2 ↔ b.toInt < a.toInt) ∧ compareSigned a b ≠ 3) ∧
  ∀ (s : State) (i : Instr) (ilen : Nat) (x y : Int), Compared s i ilen x y →
    ∃ t, exec i s = .next t ∧ WritesCc s t (compareCode x y) ilen

/-- The AND law of `44_and.md` (the spec's own inference, log entry 13): a result bit is one only if both operand bits are
one; code 0 for a zero result, 1 otherwise, never 2 or 3. -/
def Obligations.AndLawBitByBit : Prop :=
  ∀ (n : Nat) (a b : BitVec n),
    (∀ i, (andLaw a b).1.getLsbD i = (a.getLsbD i && b.getLsbD i)) ∧
    ((andLaw a b).2 = 0 ↔ (andLaw a b).1 = 0) ∧ ((andLaw a b).2 = 1 ↔ (andLaw a b).1 ≠ 0)

/-! ## What each instruction does -/

/-- ADD, ADD HALFWORD and ADD HALFWORD IMMEDIATE complete with the truncated exact sum and the code of R100, unless the sum
overflows with the fixed-point-overflow mask one; nothing else changes. -/
def Obligations.AddCompletes : Prop :=
  ∀ (s : State) (i : Instr) (ilen : Nat) (r1 : Reg) (wide : Bool) (x : Int), SignedAdd s i ilen r1 wide x →
    ¬(signedCode (width wide) x = 3 ∧ s.psw.foMask = true) →
    ∃ t, exec i s = .next t ∧ WritesGr s t r1 (result s r1 wide x) (signedCode (width wide) x) ilen

/-- An ADD, ADD HALFWORD or ADD HALFWORD IMMEDIATE whose sum overflows is completed, the truncated sum stored, code 3 set and
the instruction address advanced, and then, with the fixed-point-overflow mask (PSW bit 20) one, the interruption is taken
from that state; with the mask zero none is. No other instruction raises it (R215). That the interruption is taken, and the
instruction so answers a next state, is the model's choice of R221 (log entry 4, against R222). -/
def Obligations.AddOverflowCompletesThenInterrupts : Prop :=
  ∀ s : State, s.psw.foMask = s.psw.toBits.getMsbD 20 ∧
    (∀ (i : Instr) (ilen : Nat) (r1 : Reg) (wide : Bool) (x : Int), SignedAdd s i ilen r1 wide x →
      signedCode (width wide) x = 3 →
      ∃ t, WritesGr s t r1 (result s r1 wide x) 3 ilen ∧
        exec i s = .next (if s.psw.foMask then t.interrupt .fixedPointOverflow (ilen / 2) else t)) ∧
    ∀ (i : Instr) (t : State), exec i s = .next t → t.interruptions ≠ s.interruptions →
      t.lastInterruption = some .fixedPointOverflow → IsSignedAdd i = true

/-- ADD LOGICAL completes with the truncated exact sum and the code of R101, and changes nothing else. -/
def Obligations.AddLogicalCompletes : Prop :=
  ∀ (s : State) (i : Instr) (ilen : Nat) (r1 : Reg) (wide : Bool) (x : Nat), LogicalAdd s i ilen r1 wide x →
    ∃ t, exec i s = .next t ∧ WritesGr s t r1 (result s r1 wide x) (logicalCode (width wide) x) ilen

/-- R130: ADD LOGICAL WITH CARRY adds one more when the condition code, as it stands when the instruction begins, is 2 or
3, which is to say when PSW bit 18 is one; it completes with the truncated exact sum and the code of R101, and changes
nothing else. -/
def Obligations.AddLogicalWithCarryCompletes : Prop :=
  ∀ s : State, (carryIn s = if s.psw.toBits.getMsbD 18 then 1 else 0) ∧
    ∀ (i : Instr) (ilen : Nat) (r1 : Reg) (wide : Bool) (x : Nat), CarryAdd s i ilen r1 wide x →
      ∃ t, exec i s = .next t ∧
        WritesGr s t r1 (result s r1 wide (x + carryIn s)) (logicalCode (width wide) (x + carryIn s)) ilen

/-- The AND instructions with a register result (the spec's own inference, log entry 13) complete with the product of their
operands, code 0 for a zero product and 1 otherwise, and change nothing else. -/
def Obligations.AndRegisterCompletes : Prop :=
  ∀ (s : State) (i : Instr) (ilen : Nat) (r1 : Reg) (wide : Bool) (a b : Dword), AndOperands s i ilen r1 wide a b →
    ∃ t, exec i s = .next t ∧
      WritesGr s t r1 (result s r1 wide (a &&& b).toInt) (if a &&& b = 0 then 0 else 1) ilen

/-- NI (the spec's own inference, log entry 13) completes when its byte is admitted for fetch and store: the byte at the
first-operand address becomes the product, every other byte, every register and the rest of the PSW are unchanged. -/
def Obligations.AndImmediateStoresOneByte : Prop :=
  ∀ (s : State) (b1 : Reg) (d1 : Nat) (i2 : Byte), s.mem.wf = true →
    Admitted s .fetch (s.eaB (shortDisp d1) b1) 1 → Admitted s .store (s.eaB (shortDisp d1) b1) 1 →
    ∃ t, exec (.ni b1 d1 i2) s = .next t ∧
      t.mem.read (s.eaB (shortDisp d1) b1).toNat = (byteAt s (s.eaB (shortDisp d1) b1) 0 &&& i2) ∧
      (∀ a, a ≠ (s.eaB (shortDisp d1) b1).toNat → t.mem.read a = s.mem.read a) ∧
      (∀ r, t.gr r = s.gr r) ∧ (∀ r, t.ar r = s.ar r) ∧
      PswAfter s t (if byteAt s (s.eaB (shortDisp d1) b1) 0 &&& i2 = 0 then 0 else 1) 4 ∧ SameLaunch s t

/-- COMPARE completes, sets the condition code by the exact comparison of R155, and changes nothing else. -/
def Obligations.CompareCompletes : Prop :=
  ∀ (s : State) (i : Instr) (ilen : Nat) (x y : Int), Compared s i ilen x y →
    ∃ t, exec i s = .next t ∧ WritesCc s t (compareCode x y) ilen

/-- INSERT PROGRAM MASK completes: bits 32-33 of R1 zero, 34-35 the condition code, 36-39 the program mask, bits 0-31 and
40-63 as before; the condition code and everything else unchanged. -/
def Obligations.InsertProgramMaskCompletes : Prop :=
  ∀ (s : State) (r1 : Reg), ∃ t v, exec (.ipm r1) s = .next t ∧ WritesGr s t r1 v s.psw.cc 4 ∧
    bitField v 32 2 = 0 ∧ bitField v 34 2 = s.psw.cc ∧ bitField v 36 4 = s.psw.pm ∧
    bitField v 0 32 = bitField (s.gr r1) 0 32 ∧ bitField v 40 24 = bitField (s.gr r1) 40 24

/-- R171: after IPM the condition code, the program mask and the fixed-point-overflow mask are read from the register by
shifting. -/
def Obligations.InsertedMaskReadsBack : Prop :=
  ∀ (s t : State) (r1 : Reg), exec (.ipm r1) s = .next t →
    (lo32 (t.gr r1) >>> 28) &&& 3 = s.psw.cc.setWidth 32 ∧ (lo32 (t.gr r1) >>> 24) &&& 15 = s.psw.pm.setWidth 32 ∧
    (lo32 (t.gr r1) >>> 27) &&& 1 = (BitVec.ofBool s.psw.foMask).setWidth 32

/-- LOAD completes with its second operand in R1 (sign-extended for LGFR and LGF, the low half alone for LR, L and LY); the
condition code and everything else are unchanged. -/
def Obligations.LoadCompletes : Prop :=
  ∀ (s : State) (i : Instr) (ilen : Nat) (r1 : Reg) (v : Dword), Loaded s i ilen r1 v →
    ∃ t, exec i s = .next t ∧ WritesGr s t r1 v s.psw.cc ilen

/-- LOAD ACCESS MULTIPLE completes at a word boundary when all its words are admitted: the k-th access register from R1,
register 0 following 15, up to and including R3, receives the word at `addr + 4k`; the other access registers and everything
else are unchanged. -/
def Obligations.LoadAccessMultipleCompletes : Prop :=
  ∀ (s : State) (i : Instr) (ilen : Nat) (r1 r3 : Reg) (addr : Dword), AccessLoad s i ilen r1 r3 addr →
    addr.toNat % 4 = 0 → Admitted s .fetch addr (4 * ((r3 - r1).toNat + 1)) →
    ∃ t, exec i s = .next t ∧
      (∀ r, t.ar r = if (r - r1).toNat ≤ (r3 - r1).toNat
        then wordAt s (addr + BitVec.ofNat 64 (4 * (r - r1).toNat)) else s.ar r) ∧
      (∀ r, t.gr r = s.gr r) ∧ (∀ a, t.mem.read a = s.mem.read a) ∧ PswAfter s t s.psw.cc ilen ∧ SameLaunch s t

/-- LOAD ADDRESS completes whatever is admitted: R1 receives the effective address, computed from the registers before R1 is
written, as R195 places it, the condition code and everything else are unchanged. -/
def Obligations.LoadAddressCompletes : Prop :=
  ∀ (s : State) (i : Instr) (ilen : Nat) (r1 : Reg) (ea : Dword), AddressLoad s i ilen r1 ea →
    ∃ t, exec i s = .next t ∧ WritesGr s t r1 (placed s r1 ea) s.psw.cc ilen ∧
      (s.psw.amode ≠ .bits64 → placed s r1 ea = hi32 (s.gr r1) ++ lo32 ea)

/-- LOAD ADDRESS EXTENDED (the access-register values are the spec's own inference, log entry 13): R1 receives the address,
access register R1 receives 0, the access register of B2 (0 when B2 is 0), 1 or 2 as the address-space control is 00, 01, 10
or 11; everything else is unchanged. -/
def Obligations.LoadAddressExtendedCompletes : Prop :=
  ∀ (s : State) (r1 x2 b2 : Reg) (d2 : Nat), ∃ t, exec (.lae r1 x2 b2 d2) s = .next t ∧
    t.gr r1 = placed s r1 (s.eaX (shortDisp d2) x2 b2) ∧ (∀ r, r ≠ r1 → t.gr r = s.gr r) ∧
    (s.psw.asc = 0 → t.ar r1 = 0) ∧ (s.psw.asc = 1 → t.ar r1 = if b2 = 0 then 0 else s.ar b2) ∧
    (s.psw.asc = 2 → t.ar r1 = 1) ∧ (s.psw.asc = 3 → t.ar r1 = 2) ∧ (∀ r, r ≠ r1 → t.ar r = s.ar r) ∧
    (∀ a, t.mem.read a = s.mem.read a) ∧ PswAfter s t s.psw.cc 4 ∧ SameLaunch s t

/-- R198: with R1 also the index (base zero) or the base (index zero), and not register 0, LOAD ADDRESS increments the
rightmost 24, 31 or 64 bits of the register by its displacement, and LAY by its signed one, clearing bits 32-39 or bit 32 in
the 24-bit and 31-bit modes, with no condition code and no overflow; register 0 so named receives the displacement alone. -/
def Obligations.LoadAddressIncrements : Prop :=
  ∀ (s : State) (r : Reg),
    (∀ d : Nat, fitsU12 d = true → ∀ x2 b2 : Reg, (x2 = 0 ∧ b2 = r) ∨ (x2 = r ∧ b2 = 0) →
      ∃ t, exec (.la r x2 b2 d) s = .next t ∧
        WritesGr s t r (if r = 0 then placed s 0 (s.wrap (shortDisp d)) else incremented s r d) s.psw.cc 4) ∧
    (s.ldInstalled = true → ∀ d : Int, fitsS20 d = true → ∀ x2 b2 : Reg, (x2 = 0 ∧ b2 = r) ∨ (x2 = r ∧ b2 = 0) →
      ∃ t, exec (.lay r x2 b2 d) s = .next t ∧
        WritesGr s t r (if r = 0 then placed s 0 (s.wrap (longDisp d)) else incremented s r d) s.psw.cc 6)

/-- R135, a 128-bit addition: ALGR on the low doublewords and then ALCGR on the high ones leave the sum modulo 2^128 in the
two result registers, and the carry out of the whole sum is the left bit of the condition code. -/
def Obligations.CarryChainAddsDoubleWidth : Prop :=
  ∀ (s : State) (l1 l2 h1 h2 : Reg), h1 ≠ l1 → h2 ≠ l1 →
    ∃ u t, exec (.algr l1 l2) s = .next u ∧ exec (.alcgr h1 h2) u = .next t ∧
      (t.gr h1).toNat * 2 ^ 64 + (t.gr l1).toNat + (carryIn t) * 2 ^ 128 =
        ((s.gr h1).toNat * 2 ^ 64 + (s.gr l1).toNat) + ((s.gr h2).toNat * 2 ^ 64 + (s.gr l2).toNat)

/-- R163: after any COMPARE whose first operand is high, PSW bit 18 is one and a following ALCR, ALCGR, ALC or ALCG adds a
carry of one. -/
def Obligations.CompareHighLeavesCarry : Prop :=
  ∀ (s : State) (i : Instr) (ilen : Nat) (x y : Int), Compared s i ilen x y → y < x →
    ∃ u, exec i s = .next u ∧ u.psw.toBits.getMsbD 18 = true ∧
      ∀ (j : Instr) (jlen : Nat) (r1 : Reg) (wide : Bool) (z : Nat), CarryAdd u j jlen r1 wide z →
        ∃ t, exec j u = .next t ∧ t.gr r1 = result u r1 wide (z + 1)

/-! ## Where instructions trap -/

/-- Without the long-displacement facility its eight instructions take the operation exception, whatever their operands; the
saved address is the next instruction's, the length code 3 (R214; R212's columns and NY are the spec's general knowledge).
That the interruption is taken, in a next state, is the model's choice of R221 (log entry 4, against R222). -/
def Obligations.FacilityAbsentTraps : Prop :=
  ∀ (s : State) (i : Instr), NeedsFacility i → s.ldInstalled = false →
    exec i s = .next ((s.advance 6).interrupt .operation 3)

/-- LAM and LAMY off a word boundary take the specification exception, whatever is admitted (R216); the saved address is the
next instruction's and the length code the instruction's own (R212's columns, general knowledge). That the interruption is
taken, in a next state, is the model's choice of R221 (log entry 4, against R222). -/
def Obligations.AccessMultipleOffBoundaryTraps : Prop :=
  ∀ (s : State) (i : Instr) (ilen : Nat) (r1 r3 : Reg) (addr : Dword), AccessLoad s i ilen r1 r3 addr →
    addr.toNat % 4 ≠ 0 → exec i s = .next ((s.advance ilen).interrupt .specification (ilen / 2))

/-- A storage operand some byte of which is not admitted for fetch: the access exception is taken with the address of the
first such byte (log entry 8), and the instruction does nothing (`State.suppress`). That the interruption is taken, in a next
state, is the model's choice of R221 (log entry 4, against R222); which access exception it is, and so its code and ending,
is a free value (log entry 5); the forms N, NY, NG and NI are the spec's general knowledge (log entry 13). -/
def Obligations.OperandNotAdmittedTraps : Prop :=
  ∀ (s : State) (i : Instr) (ilen : Nat) (a d : Dword) (n : Nat), FetchesOperand s i ilen a n →
    DeniedAt s .fetch a n d → exec i s = .next (s.suppress (.access .fetch d) (ilen / 2))

/-- NI with its byte admitted for fetch but not for store takes the access exception of the store and does nothing (the
spec's own inference, log entry 13). That the interruption is taken, in a next state, is the model's choice of R221 (log
entry 4, against R222); which access exception it is is a free value (log entry 5). -/
def Obligations.AndImmediateStoreNotAdmittedTraps : Prop :=
  ∀ (s : State) (b1 : Reg) (d1 : Nat) (i2 : Byte), Admitted s .fetch (s.eaB (shortDisp d1) b1) 1 →
    s.admitsByte .store (s.eaB (shortDisp d1) b1) = false →
    exec (.ni b1 d1 i2) s = .next (s.suppress (.access .store (s.eaB (shortDisp d1) b1)) 2)

/-- The table of R210: an instruction that takes an interruption (log entry 4) takes one its row lists, and no other. The rows
of NR to LAE are the spec's general knowledge (log entry 13). -/
def Obligations.OnlyListedExceptions : Prop :=
  ∀ (s t : State) (i : Instr), exec i s = .next t → t.interruptions ≠ s.interruptions →
    ∃ e, t.lastInterruption = some e ∧ MayRaise i e ∧ t.interruptions = s.interruptions + 1

/-- An instruction interrupted by anything but a fixed-point overflow has changed no register, no access register and no
byte of storage but those the interruption itself stores (R221, log entry 4); an overflow has changed no access register and
no other byte. -/
def Obligations.InterruptedInstructionChangesNothing : Prop :=
  ∀ (s t : State) (i : Instr), exec i s = .next t → t.interruptions ≠ s.interruptions →
    (t.lastInterruption ≠ some .fixedPointOverflow → ∀ r, t.gr r = s.gr r) ∧ (∀ r, t.ar r = s.ar r) ∧
    (∀ a, ¬(141 ≤ a ∧ a < 144) → ¬(168 ≤ a ∧ a < 176) → ¬(336 ≤ a ∧ a < 352) → t.mem.read a = s.mem.read a)

/-- R150: KM and KMC are refused, in every state, and the decoder names them. -/
def Obligations.CipherMessageRefused : Prop :=
  ∀ (s : State) (r1 r2 : Reg), exec (.km r1 r2) s = .refused .cipherMessageLost ∧
    exec (.kmc r1 r2) s = .refused .cipherMessageWithChainingLost ∧
    decode (encode (.km r1 r2)) = .ok (.km r1 r2) ∧ decode (encode (.kmc r1 r2)) = .ok (.kmc r1 r2)

/-- CFC is refused, in every state (R165). -/
def Obligations.CompareAndFormCodewordRefused : Prop :=
  ∀ (s : State) (b2 : Reg) (d2 : Nat), exec (.cfc b2 d2) s = .refused .compareAndFormCodewordLost

/-! ## Taking a program interruption -/

/-- Taking a program interruption (the spec's general knowledge, log entry 4): the PSW can be loaded back from locations 336
to 351; location 141 holds the length code in bits 5-6; locations 142-143 hold the code; the new PSW is what locations 464 to
479 held; no register is changed; no other byte of storage is changed but, for an exception of translation, locations 168 to
175, which then hold the failing address; and it is counted and recorded. -/
def Obligations.InterruptionSavesAndLoadsPsw : Prop :=
  ∀ (s : State) (e : ProgramException) (h : Nat), s.mem.wf = true → h < 4 →
    let t := s.interrupt e h
    Psw.ofBits (BitVec.ofNat 128 (bigEndian (t.mem.readBytes 336 16))) = s.psw ∧
    t.mem.read 141 = BitVec.ofNat 8 (2 * h) ∧
    bigEndian (t.mem.readBytes 142 2) = (s.interruptionCode e).toNat ∧
    t.psw = Psw.ofBits (BitVec.ofNat 128 (bigEndian (s.mem.readBytes 464 16))) ∧
    (∀ r, t.gr r = s.gr r) ∧ (∀ r, t.ar r = s.ar r) ∧
    (match s.failingAddress e with
      | some d => bigEndian (t.mem.readBytes 168 8) = d.toNat
      | none => ∀ a, 168 ≤ a ∧ a < 176 → t.mem.read a = s.mem.read a) ∧
    (∀ a, ¬(141 ≤ a ∧ a < 144) → ¬(336 ≤ a ∧ a < 352) → ¬(168 ≤ a ∧ a < 176) → t.mem.read a = s.mem.read a) ∧
    t.interruptions = s.interruptions + 1 ∧ t.lastInterruption = some e

/-- The codes and endings of `60_exceptions.md` section 1 (general knowledge, log entries 4 and 5): operation 1,
specification 6, fixed-point overflow 8, an access exception one of the codes listed; and an access exception stores its
failing address, and saves the instruction's own address, exactly when its code is neither 4 nor 5. -/
def Obligations.InterruptionCodesAndEndings : Prop :=
  ∀ (s : State), s.interruptionCode .operation = 1 ∧ s.interruptionCode .specification = 6 ∧
    s.interruptionCode .fixedPointOverflow = 8 ∧
    (∀ h, s.suppress .operation h = (s.advance (2 * h)).interrupt .operation h) ∧
    (∀ h, s.suppress .specification h = (s.advance (2 * h)).interrupt .specification h) ∧
    ∀ (k : AccessKind) (d : Dword),
      s.interruptionCode (.access k d) ∈ ([0x04, 0x05, 0x10, 0x11, 0x38, 0x39, 0x3A, 0x3B, 0x28, 0x29, 0x2A, 0x2B, 0x2C,
        0x2D, 0x12] : List Half) ∧
      (if s.interruptionCode (.access k d) = 4 ∨ s.interruptionCode (.access k d) = 5
        then s.failingAddress (.access k d) = none ∧
          ∀ h, s.suppress (.access k d) h = (s.advance (2 * h)).interrupt (.access k d) h
        else s.failingAddress (.access k d) = some d ∧ ∀ h, s.suppress (.access k d) h = s.interrupt (.access k d) h)

/-- The PSW and its 128 bits are each determined by the other, and the fields stand where `10_state.md` R13 to R18 put
them (all but bits 16-19 general knowledge). -/
def Obligations.PswLayout : Prop :=
  (∀ p : Psw, Psw.ofBits p.toBits = p ∧ bitField p.toBits 16 2 = p.asc ∧ bitField p.toBits 18 2 = p.cc ∧
    bitField p.toBits 20 4 = p.pm ∧ (p.foMask = p.toBits.getMsbD 20) ∧ (p.carry = p.toBits.getMsbD 18) ∧
    bitField p.toBits 31 1 = p.ea ∧ bitField p.toBits 32 1 = p.ba ∧ bitField p.toBits 64 64 = p.ia) ∧
  ∀ w : BitVec 128, (Psw.ofBits w).toBits = w

/-! ## Addresses and storage -/

/-- The address arithmetic of `20_memory.md` (general knowledge): displacement plus index plus base, a zero field adding
nothing, modulo 2^24, 2^31 or 2^64 by the addressing mode. -/
def Obligations.EffectiveAddressArithmetic : Prop :=
  ∀ (s : State) (d : Dword) (x2 b2 : Reg),
    let sum := d.toNat + (if x2 = 0 then 0 else (s.gr x2).toNat) + (if b2 = 0 then 0 else (s.gr b2).toNat)
    (s.eaX d x2 b2).toNat = sum % 2 ^ (match s.psw.amode with | .bits64 => 64 | .bits31 => 31 | .bits24 => 24) ∧
    s.eaB d b2 = s.eaX d 0 b2

/-- Byte order (general knowledge): an admitted operand is fetched with the byte at the lowest address leftmost, byte by byte
at wrapped addresses, at any alignment. -/
def Obligations.OperandFetchIsBigEndian : Prop :=
  ∀ (s : State) (a : Dword),
    (Admitted s .fetch a 2 → s.fetch a 2 = .ok (halfAt s a).toNat) ∧
    (Admitted s .fetch a 4 → s.fetch a 4 = .ok (wordAt s a).toNat) ∧
    (Admitted s .fetch a 8 → s.fetch a 8 = .ok (dwordAt s a).toNat)

/-- Displacements: 12 bits unsigned (R80), 20 bits signed (R81), and for the older long forms without the facility the low
12 bits unsigned (the spec's general knowledge, log entry 10). -/
def Obligations.DisplacementValues : Prop :=
  (∀ d, fitsU12 d = true → (shortDisp d).toNat = d) ∧ (∀ d, fitsS20 d = true → (longDisp d).toInt = d) ∧
  ∀ (s : State) (d : Int), fitsS20 d = true →
    (s.ldInstalled = true → (s.olderDisp d).toInt = d) ∧ (s.ldInstalled = false → (s.olderDisp d).toInt = d % 4096)

/-! ## Encoding -/

/-- Decode and encode agree: every well-formed instruction is decoded from its encoding. -/
def Obligations.DecodeEncodeAgree : Prop :=
  ∀ i : Instr, i.wellFormed = true → decode (encode i) = .ok i

/-- What the decoder answers is well formed, as long as its first byte says, and no longer than the bytes given. -/
def Obligations.DecodedIsWellFormed : Prop :=
  ∀ (bs : List Byte) (i : Instr), decode bs = .ok i →
    i.wellFormed = true ∧ i.length ≤ bs.length ∧ bs.head?.map instrLength = some i.length

/-- The other direction: decoded bytes are the encoding of what they decode to, but for the unassigned bits, which are the
third byte of an RRE instruction and the right half of the fourth byte of IPM. -/
def Obligations.EncodeOfDecoded : Prop :=
  ∀ (bs : List Byte) (i : Instr), decode bs = .ok i →
    match i with
    | .ipm _ => ∃ b2 b3, bs.take 4 = [0xB2, 0x22, b2, b3] ∧ encode i = [0xB2, 0x22, 0, bitField b3 0 4 ++ (0 : BitVec 4)]
    | .agr .. | .agfr .. | .algr .. | .algfr .. | .alcr .. | .alcgr .. | .ngr .. | .km .. | .kmc .. | .cgr .. | .cgfr ..
    | .lgr .. | .lgfr .. => ∃ b1 b2 b3, bs.take 4 = [0xB9, b1, b2, b3] ∧ encode i = [0xB9, b1, 0, b3]
    | _ => encode i = bs.take i.length

/-- The unassigned bits 16-23 of an RRE instruction are ignored (the spec's decision, log entry 15). -/
def Obligations.UnassignedBitsIgnored : Prop :=
  ∀ (b1 b2 b2' b3 : Byte) (rest : List Byte),
    decode (0xB9 :: b1 :: b2 :: b3 :: rest) = decode (0xB9 :: b1 :: b2' :: b3 :: rest) ∧
    decode (0xB2 :: 0x22 :: b2 :: b3 :: rest) = decode (0xB2 :: 0x22 :: b2' :: b3 :: rest) ∧
    decode (0xB2 :: 0x22 :: b2 :: b3 :: rest) = decode (0xB2 :: 0x22 :: b2 :: (bitField b3 0 4 ++ (0 : BitVec 4)) :: rest)

/-- Worked encodings of `30_encoding.md` section 8, decoded. -/
def Obligations.WorkedEncodingsDecode : Prop :=
  decode [0x1A, 0x12] = .ok (.ar 1 2) ∧ decode [0xB9, 0x08, 0x00, 0x34] = .ok (.agr 3 4) ∧
  decode [0x5A, 0x12, 0x30, 0x64] = .ok (.a 1 2 3 100) ∧
  decode [0xE3, 0x10, 0x5F, 0xFC, 0xFF, 0x5A] = .ok (.ay 1 0 5 (-4)) ∧
  decode [0xE3, 0x60, 0x70, 0x00, 0x01, 0x08] = .ok (.ag 6 0 7 4096) ∧
  decode [0xA7, 0x1A, 0xFF, 0xFF] = .ok (.ahi 1 (-1)) ∧ decode [0xA7, 0xFB, 0x7F, 0xFF] = .ok (.aghi 15 32767) ∧
  decode [0x94, 0x0F, 0x90, 0x08] = .ok (.ni 9 8 15) ∧ decode [0xB2, 0x22, 0x00, 0x50] = .ok (.ipm 5) ∧
  decode [0x9A, 0xE1, 0x30, 0x00] = .ok (.lam 14 1 3 0) ∧
  decode [0xEB, 0x0F, 0x2F, 0xC0, 0xFF, 0x9A] = .ok (.lamy 0 15 2 (-64)) ∧
  decode [0x41, 0x11, 0x0F, 0xFF] = .ok (.la 1 1 0 4095)

/-! ## The step -/

/-- A step runs the decoded instruction: in a valid addressing mode, at an even instruction address whose instruction's bytes
are admitted for fetch and decode to `i`, the step is `exec i`. -/
def Obligations.StepRunsDecodedInstruction : Prop :=
  ∀ (s : State) (i : Instr), s.psw.modeValid = true → s.psw.iaOdd = false →
    Admitted s .fetch s.psw.ia (instrLength (byteAt s s.psw.ia 0)) →
    decode (s.bytesAt s.psw.ia (instrLength (byteAt s s.psw.ia 0))) = .ok i → step s = exec i s

/-- Bytes that match no row are refused, never executed (R88). -/
def Obligations.StepRefusesOutsideTable : Prop :=
  ∀ (s : State) (why : DecodeError), s.psw.modeValid = true → s.psw.iaOdd = false →
    Admitted s .fetch s.psw.ia (instrLength (byteAt s s.psw.ia 0)) →
    decode (s.bytesAt s.psw.ia (instrLength (byteAt s s.psw.ia 0))) = .error why → step s = .refused (.notInTable why)

/-- Before an instruction is executed (general knowledge and the spec's order; that the interruption is taken is log entry 4's
choice, its access cause log entry 5's free value): an invalid addressing mode (log entry 12) and an odd instruction address
take the specification exception with length code 0, for which the model saves the PSW's own address (log entry 21); an
instruction byte that is not admitted takes the access exception, with the instruction's length code when its first
halfword could be fetched and with some code from 1 to 3 when it could not (log entry 6). -/
def Obligations.StepFetchTraps : Prop :=
  ∀ s : State,
    (s.psw.modeValid = false → step s = .next (s.suppress .specification 0)) ∧
    (s.psw.modeValid = true → s.psw.iaOdd = true → step s = .next (s.suppress .specification 0)) ∧
    (s.psw.modeValid = true → s.psw.iaOdd = false → ∀ d,
      (DeniedAt s .fetch s.psw.ia 2 d →
        ∃ h, 1 ≤ h ∧ h ≤ 3 ∧ step s = .next (s.suppress (.access .fetch d) h)) ∧
      (Admitted s .fetch s.psw.ia 2 → DeniedAt s .fetch s.psw.ia (instrLength (byteAt s s.psw.ia 0)) d →
        step s = .next (s.suppress (.access .fetch d) (instrLength (byteAt s s.psw.ia 0) / 2))))

/-- The PSW bits of R20 (masks, DAT mode, key, wait, problem state, unassigned bits) are carried and read by nothing a step
does (the spec's general knowledge; log entries 14 and 16): two states that differ in them alone step to states that differ
in them alone, or are refused alike, or take the same interruption (log entry 4), which then leaves the same registers, the
same PSW and the same storage but for the old PSW. -/
def Obligations.OpaquePswBitsDoNotInfluenceStep : Prop :=
  ∀ (s : State) (p : Psw), s.mem.wf = true →
    match step s with
    | .next t =>
      if t.interruptions = s.interruptions then step (withOpaqueBits s p) = .next (withOpaqueBits t p)
      else ∃ u, step (withOpaqueBits s p) = .next u ∧ u.lastInterruption = t.lastInterruption ∧
        u.interruptions = t.interruptions ∧ u.psw = t.psw ∧ (∀ r, u.gr r = t.gr r) ∧ (∀ r, u.ar r = t.ar r) ∧
        ∀ a, ¬(336 ≤ a ∧ a < 352) → u.mem.read a = t.mem.read a
    | .fault e => step (withOpaqueBits s p) = .fault e
    | .refused why => step (withOpaqueBits s p) = .refused why

/-! ## Whole-machine rules -/

/-- Every step keeps storage in its canonical form. -/
def Obligations.StepKeepsStorageCanonical : Prop :=
  ∀ s t : State, s.mem.wf = true → step s = .next t → t.mem.wf = true

/-- The state after reset can be launched, whatever the machine's translation, which is off: valid 64-bit mode, even address,
canonical storage; and its values are the model's
(log entries 1, 2, 3 and 7) but for the facility, whose default the spec gives. -/
def Obligations.ResetIsLaunchable : Prop :=
  (∀ translate, State.reset.launchable translate) ∧ State.reset.uninterrupted ∧ State.reset.psw.amode = .bits64 ∧ State.reset.ldInstalled = true ∧
    (∀ r, State.reset.gr r = 0 ∧ State.reset.ar r = 0) ∧ ∀ k a, State.reset.admitsByte k a = true

/-- A launched machine stays launchable as long as it takes no interruption: a valid mode, an even address that fits the
mode, program-event recording and the wait state off (the last the model's premise, log entry 14), translation off or
invisible, storage canonical. -/
def Obligations.StepKeepsLaunchable : Prop :=
  ∀ (s t : State) (translate : Dword → Dword), s.launchable translate → step s = .next t →
    t.interruptions = s.interruptions → t.launchable translate

/-- Premise 3 of R252 is kept: a program held in storage and admitted for fetch is held after every step of a run that
stores into none of its bytes. That a run ends at an interruption is R222's rule (`runStep`). -/
def Obligations.RunStepKeepsProgram : Prop :=
  ∀ (s t : State) (a : Dword) (code : List Byte), s.holdsProgram a code → s.stepSparesProgram a code.length = true →
    runStep s = .next t → t.holdsProgram a code

/-- Every step either takes exactly one interruption and records it, or writes nothing of the PSW but the condition code and
the instruction address (R13); in both cases the launch parameters stay. That an interruption is taken is log entry 4's
choice, its record log entry 7's. -/
def Obligations.StepWritesOnlyCcAndPc : Prop :=
  ∀ s t : State, step s = .next t →
    t.ldInstalled = s.ldInstalled ∧ t.admits = s.admits ∧
    ((t.interruptions = s.interruptions + 1 ∧ t.lastInterruption.isSome = true) ∨
      (t.interruptions = s.interruptions ∧ t.lastInterruption = s.lastInterruption ∧
        t.psw = { s.psw with cc := t.psw.cc, ia := t.psw.ia }))

/-- Every instruction that completes moves the instruction address by its own length, wrapped (R19), and no instruction sets
it in any other way: an even address stays even. -/
def Obligations.CompletionAdvancesByLength : Prop :=
  ∀ (s t : State) (i : Instr), exec i s = .next t → t.interruptions = s.interruptions →
    t.psw.ia = nextIa s i.length ∧ (s.psw.iaOdd = false → t.psw.iaOdd = false)

/-- Only NI stores into storage (an inference of the spec, log entry 13): any other instruction that completes leaves storage
as it was. -/
def Obligations.OnlyAndImmediateStores : Prop :=
  ∀ (s t : State) (i : Instr), exec i s = .next t → t.interruptions = s.interruptions → IsNi i = false → t.mem = s.mem

/-- Only LAM, LAMY and LAE change an access register (R12). Of the instructions that complete, those that R23 says leave the
condition code unchanged do, COMPARE never sets code 3, and AND (general knowledge) sets 0 or 1. -/
def Obligations.WhoWritesAccessRegistersAndCc : Prop :=
  ∀ (s t : State) (i : Instr), exec i s = .next t →
    (LoadsAccess i = false → t.ars = s.ars) ∧
    (t.interruptions = s.interruptions →
      (LeavesCc i = true → t.psw.cc = s.psw.cc) ∧ (IsCompare i = true → t.psw.cc ≠ 3) ∧
      (IsAnd i = true → t.psw.cc = 0 ∨ t.psw.cc = 1))

/-- No instruction but LAE reads the address-space control, and none reads or writes the PSW bits of R20 (the spec's general
knowledge and its decision D6): two states that differ in them alone complete with results that differ in them alone. -/
def Obligations.UnreadPswBitsDoNotInfluence : Prop :=
  ∀ (s t : State) (p : Psw) (i : Instr), IsLae i = false → exec i s = .next t → t.interruptions = s.interruptions →
    exec i (withUnreadBits s p) = .next (withUnreadBits t p)

/-- LOAD ADDRESS makes no storage reference: its result is the same whatever storage holds and whatever is admitted. -/
def Obligations.LoadAddressIgnoresStorage : Prop :=
  ∀ (s : State) (i : Instr) (ilen : Nat) (r1 : Reg) (ea : Dword) (m : Memory) (l : List Region), AddressLoad s i ilen r1 ea →
    ∃ t, exec i s = .next t ∧ exec i { s with mem := m, admits := l } = .next { t with mem := m, admits := l }

/-- No step faults: an exception is an interruption the machine takes, and what it has no meaning for it refuses. -/
def Obligations.StepNeverFaults : Prop :=
  ∀ (s : State) (e : Fault), step s ≠ .fault e

/-- R222's outcome of a step (the model keeps it in `runStep`, beside the step that takes the interruption, log entry 4): it
goes on exactly where the step takes no interruption; an exception other than a fixed-point overflow stops it in the state
before the instruction; an overflow with its mask one stops it with the truncated sum stored, code 3 set, the instruction
address advanced, and nothing else changed. -/
def Obligations.RunStepStopsInEndingState : Prop :=
  ∀ s : State,
    (∀ t, runStep s = .next t ↔ step s = .next t ∧ t.interruptions = s.interruptions) ∧
    (∀ t, step s = .next t → t.interruptions ≠ s.interruptions →
      ∃ e u, runStep s = .fault (.programInterruption e u) ∧ t.lastInterruption = some e) ∧
    (∀ e u, runStep s = .fault (.programInterruption e u) → e ≠ .fixedPointOverflow → u = s) ∧
    ∀ (i : Instr) (ilen : Nat) (r1 : Reg) (wide : Bool) (x : Int) (bytes : List Byte), SignedAdd s i ilen r1 wide x →
      s.fetchInstr = .instruction bytes → decode bytes = .ok i →
      signedCode (width wide) x = 3 → s.psw.foMask = true →
      ∃ u, runStep s = .fault (.programInterruption .fixedPointOverflow u) ∧ WritesGr s u r1 (result s r1 wide x) 3 ilen

/-- A run that ends at `end_pc` took no interruption (R222, R253): it is at `end_pc`, and its program mask, address-space
control, addressing mode and every other PSW field but the condition code and the instruction address are those it started
with, as are the launch parameters. -/
def Obligations.FinalStateTookNoInterruption : Prop :=
  ∀ (endPc : Dword) (k : Nat) (s t : State), runTo endPc k s = .final t →
    t.psw.ia = endPc ∧ t.interruptions = s.interruptions ∧ t.psw = { s.psw with cc := t.psw.cc, ia := t.psw.ia } ∧
    t.ldInstalled = s.ldInstalled ∧ t.admits = s.admits

/-- A run from a state that meets the premises of R252 ends, if it reaches `end_pc`, in a state that meets them still: it can
be launched, the program is where it was, the facility has its value, and no interruption was taken. -/
def Obligations.LaunchedRunKeepsPremises : Prop :=
  ∀ (s t : State) (l : Launch), s.meetsPremises l → runTo l.endPc l.steps s = .final t →
    t.launchable l.translate ∧ t.holdsProgram s.psw.ia l.code ∧ t.ldInstalled = l.facility ∧
    t.interruptions = s.interruptions

end Statements
end

