-- ==== Sys2Proof/Laws/Decode.lean ====
section
/-! SUPPORT. The fields of packed instruction words, the bytes of a word put together again, and the ranges in which a
displacement or immediate survives its field. -/

namespace Sys2Proof

/-! ## The fields of a packed word -/

@[simp] theorem bitField_packRR_op (op : BitVec 8) (r1 r2 : Reg) :
    bitField (packRR op r1 r2) 0 8 = op := by
  ext i hi
  simp only [bitField, packRR, BitVec.getElem_extractLsb', BitVec.getLsbD_append]
  repeat' split
  all_goals first | omega | (rw [← BitVec.getLsbD_eq_getElem]; congr 1; omega)

@[simp] theorem bitField_packRR_r1 (op : BitVec 8) (r1 r2 : Reg) :
    bitField (packRR op r1 r2) 8 4 = r1 := by
  ext i hi
  simp only [bitField, packRR, BitVec.getElem_extractLsb', BitVec.getLsbD_append]
  repeat' split
  all_goals first | omega | (rw [← BitVec.getLsbD_eq_getElem]; congr 1; omega)

@[simp] theorem bitField_packRR_r2 (op : BitVec 8) (r1 r2 : Reg) :
    bitField (packRR op r1 r2) 12 4 = r2 := by
  ext i hi
  simp only [bitField, packRR, BitVec.getElem_extractLsb', BitVec.getLsbD_append]
  repeat' split
  all_goals first | omega | (rw [← BitVec.getLsbD_eq_getElem]; congr 1; omega)

@[simp] theorem bitField_packRRE_op (op : BitVec 16) (r1 r2 : Reg) :
    bitField (packRRE op r1 r2) 0 16 = op := by
  ext i hi
  simp only [bitField, packRRE, BitVec.getElem_extractLsb', BitVec.getLsbD_append]
  repeat' split
  all_goals first | omega | (rw [← BitVec.getLsbD_eq_getElem]; congr 1; omega)

@[simp] theorem bitField_packRRE_r1 (op : BitVec 16) (r1 r2 : Reg) :
    bitField (packRRE op r1 r2) 24 4 = r1 := by
  ext i hi
  simp only [bitField, packRRE, BitVec.getElem_extractLsb', BitVec.getLsbD_append]
  repeat' split
  all_goals first | omega | (rw [← BitVec.getLsbD_eq_getElem]; congr 1; omega)

@[simp] theorem bitField_packRRE_r2 (op : BitVec 16) (r1 r2 : Reg) :
    bitField (packRRE op r1 r2) 28 4 = r2 := by
  ext i hi
  simp only [bitField, packRRE, BitVec.getElem_extractLsb', BitVec.getLsbD_append]
  repeat' split
  all_goals first | omega | (rw [← BitVec.getLsbD_eq_getElem]; congr 1; omega)

@[simp] theorem bitField_packRX_op (op : BitVec 8) (r1 x2 b2 : Reg) (d2 : Nat) :
    bitField (packRX op r1 x2 b2 d2) 0 8 = op := by
  ext i hi
  simp only [bitField, packRX, BitVec.getElem_extractLsb', BitVec.getLsbD_append]
  repeat' split
  all_goals first | omega | (rw [← BitVec.getLsbD_eq_getElem]; congr 1; omega)

@[simp] theorem bitField_packRX_r1 (op : BitVec 8) (r1 x2 b2 : Reg) (d2 : Nat) :
    bitField (packRX op r1 x2 b2 d2) 8 4 = r1 := by
  ext i hi
  simp only [bitField, packRX, BitVec.getElem_extractLsb', BitVec.getLsbD_append]
  repeat' split
  all_goals first | omega | (rw [← BitVec.getLsbD_eq_getElem]; congr 1; omega)

@[simp] theorem bitField_packRX_x2 (op : BitVec 8) (r1 x2 b2 : Reg) (d2 : Nat) :
    bitField (packRX op r1 x2 b2 d2) 12 4 = x2 := by
  ext i hi
  simp only [bitField, packRX, BitVec.getElem_extractLsb', BitVec.getLsbD_append]
  repeat' split
  all_goals first | omega | (rw [← BitVec.getLsbD_eq_getElem]; congr 1; omega)

@[simp] theorem bitField_packRX_b2 (op : BitVec 8) (r1 x2 b2 : Reg) (d2 : Nat) :
    bitField (packRX op r1 x2 b2 d2) 16 4 = b2 := by
  ext i hi
  simp only [bitField, packRX, BitVec.getElem_extractLsb', BitVec.getLsbD_append]
  repeat' split
  all_goals first | omega | (rw [← BitVec.getLsbD_eq_getElem]; congr 1; omega)

@[simp] theorem bitField_packRX_d2 (op : BitVec 8) (r1 x2 b2 : Reg) (d2 : Nat) :
    bitField (packRX op r1 x2 b2 d2) 20 12 = BitVec.ofNat 12 d2 := by
  ext i hi
  simp only [bitField, packRX, BitVec.getElem_extractLsb', BitVec.getLsbD_append]
  repeat' split
  all_goals first | omega | (rw [← BitVec.getLsbD_eq_getElem]; congr 1; omega)

@[simp] theorem bitField_packRXY_op (op : BitVec 8) (r1 x2 b2 : Reg) (d2 : Int) (op2 : BitVec 8) :
    bitField (packRXY op r1 x2 b2 d2 op2) 0 8 = op := by
  ext i hi
  simp only [bitField, packRXY, BitVec.getElem_extractLsb', BitVec.getLsbD_append]
  repeat' split
  all_goals first | omega | (rw [← BitVec.getLsbD_eq_getElem]; congr 1; omega)

@[simp] theorem bitField_packRXY_r1 (op : BitVec 8) (r1 x2 b2 : Reg) (d2 : Int) (op2 : BitVec 8) :
    bitField (packRXY op r1 x2 b2 d2 op2) 8 4 = r1 := by
  ext i hi
  simp only [bitField, packRXY, BitVec.getElem_extractLsb', BitVec.getLsbD_append]
  repeat' split
  all_goals first | omega | (rw [← BitVec.getLsbD_eq_getElem]; congr 1; omega)

@[simp] theorem bitField_packRXY_x2 (op : BitVec 8) (r1 x2 b2 : Reg) (d2 : Int) (op2 : BitVec 8) :
    bitField (packRXY op r1 x2 b2 d2 op2) 12 4 = x2 := by
  ext i hi
  simp only [bitField, packRXY, BitVec.getElem_extractLsb', BitVec.getLsbD_append]
  repeat' split
  all_goals first | omega | (rw [← BitVec.getLsbD_eq_getElem]; congr 1; omega)

@[simp] theorem bitField_packRXY_b2 (op : BitVec 8) (r1 x2 b2 : Reg) (d2 : Int) (op2 : BitVec 8) :
    bitField (packRXY op r1 x2 b2 d2 op2) 16 4 = b2 := by
  ext i hi
  simp only [bitField, packRXY, BitVec.getElem_extractLsb', BitVec.getLsbD_append]
  repeat' split
  all_goals first | omega | (rw [← BitVec.getLsbD_eq_getElem]; congr 1; omega)

@[simp] theorem bitField_packRXY_op2 (op : BitVec 8) (r1 x2 b2 : Reg) (d2 : Int) (op2 : BitVec 8) :
    bitField (packRXY op r1 x2 b2 d2 op2) 40 8 = op2 := by
  ext i hi
  simp only [bitField, packRXY, BitVec.getElem_extractLsb', BitVec.getLsbD_append]
  repeat' split
  all_goals first | omega | (rw [← BitVec.getLsbD_eq_getElem]; congr 1; omega)

@[simp] theorem bitField_packRI_op (op : BitVec 8) (r1 : Reg) (op2 : BitVec 4) (i2 : Int) :
    bitField (packRI op r1 op2 i2) 0 8 = op := by
  ext i hi
  simp only [bitField, packRI, BitVec.getElem_extractLsb', BitVec.getLsbD_append]
  repeat' split
  all_goals first | omega | (rw [← BitVec.getLsbD_eq_getElem]; congr 1; omega)

@[simp] theorem bitField_packRI_r1 (op : BitVec 8) (r1 : Reg) (op2 : BitVec 4) (i2 : Int) :
    bitField (packRI op r1 op2 i2) 8 4 = r1 := by
  ext i hi
  simp only [bitField, packRI, BitVec.getElem_extractLsb', BitVec.getLsbD_append]
  repeat' split
  all_goals first | omega | (rw [← BitVec.getLsbD_eq_getElem]; congr 1; omega)

@[simp] theorem bitField_packRI_op2 (op : BitVec 8) (r1 : Reg) (op2 : BitVec 4) (i2 : Int) :
    bitField (packRI op r1 op2 i2) 12 4 = op2 := by
  ext i hi
  simp only [bitField, packRI, BitVec.getElem_extractLsb', BitVec.getLsbD_append]
  repeat' split
  all_goals first | omega | (rw [← BitVec.getLsbD_eq_getElem]; congr 1; omega)

@[simp] theorem bitField_packRI_i2 (op : BitVec 8) (r1 : Reg) (op2 : BitVec 4) (i2 : Int) :
    bitField (packRI op r1 op2 i2) 16 16 = BitVec.ofInt 16 i2 := by
  ext i hi
  simp only [bitField, packRI, BitVec.getElem_extractLsb', BitVec.getLsbD_append]
  repeat' split
  all_goals first | omega | (rw [← BitVec.getLsbD_eq_getElem]; congr 1; omega)

@[simp] theorem bitField_packSI_op (op : BitVec 8) (i2 : Byte) (b1 : Reg) (d1 : Nat) :
    bitField (packSI op i2 b1 d1) 0 8 = op := by
  ext i hi
  simp only [bitField, packSI, BitVec.getElem_extractLsb', BitVec.getLsbD_append]
  repeat' split
  all_goals first | omega | (rw [← BitVec.getLsbD_eq_getElem]; congr 1; omega)

@[simp] theorem bitField_packSI_i2 (op : BitVec 8) (i2 : Byte) (b1 : Reg) (d1 : Nat) :
    bitField (packSI op i2 b1 d1) 8 8 = i2 := by
  ext i hi
  simp only [bitField, packSI, BitVec.getElem_extractLsb', BitVec.getLsbD_append]
  repeat' split
  all_goals first | omega | (rw [← BitVec.getLsbD_eq_getElem]; congr 1; omega)

@[simp] theorem bitField_packSI_b1 (op : BitVec 8) (i2 : Byte) (b1 : Reg) (d1 : Nat) :
    bitField (packSI op i2 b1 d1) 16 4 = b1 := by
  ext i hi
  simp only [bitField, packSI, BitVec.getElem_extractLsb', BitVec.getLsbD_append]
  repeat' split
  all_goals first | omega | (rw [← BitVec.getLsbD_eq_getElem]; congr 1; omega)

@[simp] theorem bitField_packSI_d1 (op : BitVec 8) (i2 : Byte) (b1 : Reg) (d1 : Nat) :
    bitField (packSI op i2 b1 d1) 20 12 = BitVec.ofNat 12 d1 := by
  ext i hi
  simp only [bitField, packSI, BitVec.getElem_extractLsb', BitVec.getLsbD_append]
  repeat' split
  all_goals first | omega | (rw [← BitVec.getLsbD_eq_getElem]; congr 1; omega)

@[simp] theorem bitField_packS_op (op : BitVec 16) (b2 : Reg) (d2 : Nat) :
    bitField (packS op b2 d2) 0 16 = op := by
  ext i hi
  simp only [bitField, packS, BitVec.getElem_extractLsb', BitVec.getLsbD_append]
  repeat' split
  all_goals first | omega | (rw [← BitVec.getLsbD_eq_getElem]; congr 1; omega)

@[simp] theorem bitField_packS_b2 (op : BitVec 16) (b2 : Reg) (d2 : Nat) :
    bitField (packS op b2 d2) 16 4 = b2 := by
  ext i hi
  simp only [bitField, packS, BitVec.getElem_extractLsb', BitVec.getLsbD_append]
  repeat' split
  all_goals first | omega | (rw [← BitVec.getLsbD_eq_getElem]; congr 1; omega)

@[simp] theorem bitField_packS_d2 (op : BitVec 16) (b2 : Reg) (d2 : Nat) :
    bitField (packS op b2 d2) 20 12 = BitVec.ofNat 12 d2 := by
  ext i hi
  simp only [bitField, packS, BitVec.getElem_extractLsb', BitVec.getLsbD_append]
  repeat' split
  all_goals first | omega | (rw [← BitVec.getLsbD_eq_getElem]; congr 1; omega)

/-- The first byte of an RRE word is the left byte of its operation code. -/
@[simp] theorem bitField_packRRE_first (op : BitVec 16) (r1 r2 : Reg) :
    bitField (packRRE op r1 r2) 0 8 = bitField op 0 8 := by
  ext i hi
  simp only [bitField, packRRE, BitVec.getElem_extractLsb', BitVec.getLsbD_append]
  repeat' split
  all_goals first | omega | (congr 1; omega)

/-- The first byte of an S word is the left byte of its operation code. -/
@[simp] theorem bitField_packS_first (op : BitVec 16) (b2 : Reg) (d2 : Nat) :
    bitField (packS op b2 d2) 0 8 = bitField op 0 8 := by
  ext i hi
  simp only [bitField, packS, BitVec.getElem_extractLsb', BitVec.getLsbD_append]
  repeat' split
  all_goals first | omega | (congr 1; omega)

/-- DH2 ‖ DL2 of a packed RXY or RSY word is its displacement's low 20 bits. -/
@[simp] theorem longDisplacement_packRXY (op : BitVec 8) (r1 x2 b2 : Reg) (d2 : Int) (op2 : BitVec 8) :
    longDisplacement (packRXY op r1 x2 b2 d2 op2) = (BitVec.ofInt 20 d2).toInt := by
  have h : bitField (packRXY op r1 x2 b2 d2 op2) 32 8 ++ bitField (packRXY op r1 x2 b2 d2 op2) 20 12 =
      BitVec.ofInt 20 d2 := by
    ext i hi
    simp only [bitField, packRXY, BitVec.getElem_append, BitVec.getElem_extractLsb', BitVec.getLsbD_append,
      BitVec.getLsbD_extractLsb']
    rw [← BitVec.getLsbD_eq_getElem]
    split
    · rw [if_neg (by omega), if_neg (by omega), if_pos (by omega), decide_eq_true (by omega), Bool.true_and]
      congr 1; omega
    · rw [if_neg (by omega), if_pos (by omega), decide_eq_true (by omega), Bool.true_and]
      congr 1; omega
  unfold longDisplacement
  exact congrArg BitVec.toInt h

/-! ## Bytes put together again -/

theorem halfBytes_append (w : Half) : bitField w 0 8 ++ bitField w 8 8 = w := by
  ext i hi
  simp only [bitField, BitVec.getElem_append, BitVec.getElem_extractLsb']
  split <;> (rw [← BitVec.getLsbD_eq_getElem]; congr 1; omega)

theorem wordBytes_append (w : Word) : bitField w 0 8 ++ bitField w 8 8 ++ bitField w 16 8 ++ bitField w 24 8 = w := by
  ext i hi
  simp only [bitField, BitVec.getElem_append, BitVec.getElem_extractLsb']
  repeat' split
  all_goals (rw [← BitVec.getLsbD_eq_getElem]; congr 1; omega)

theorem tripleBytes_append (w : BitVec 48) :
    bitField w 0 8 ++ bitField w 8 8 ++ bitField w 16 8 ++ bitField w 24 8 ++ bitField w 32 8 ++ bitField w 40 8 = w := by
  ext i hi
  simp only [bitField, BitVec.getElem_append, BitVec.getElem_extractLsb']
  repeat' split
  all_goals (rw [← BitVec.getLsbD_eq_getElem]; congr 1; omega)

/-! ## Ranges -/

theorem toNat_ofNat_of_fitsU12 {d : Nat} (h : fitsU12 d = true) : (BitVec.ofNat 12 d).toNat = d := by
  simp only [fitsU12, decide_eq_true_eq] at h
  simp only [BitVec.toNat_ofNat]
  omega

theorem toInt_ofInt_of_fitsS20 {d : Int} (h : fitsS20 d = true) : (BitVec.ofInt 20 d).toInt = d := by
  simp only [fitsS20, decide_eq_true_eq] at h
  simp only [BitVec.toInt_ofInt, Int.bmod_def]
  omega

theorem toInt_ofInt_of_fitsS16 {i : Int} (h : fitsS16 i = true) : (BitVec.ofInt 16 i).toInt = i := by
  simp only [fitsS16, decide_eq_true_eq] at h
  simp only [BitVec.toInt_ofInt, Int.bmod_def]
  omega

end Sys2Proof
end

