-- ==== Sys2Proof/Laws/Memory.lean ====
section
/-! SUPPORT. Storage: a read after a write, the canonical form kept by every operation, equal reads make equal storage in
canonical form, and bytes against the numbers they are. -/

namespace Sys2Proof.Machine

/-! ## Read after write -/

/-- Below the lowest listed address, every byte reads as unlisted. -/
theorem Memory.read_of_lt {m : Memory} : ∀ {lo a : Nat}, Memory.wfFrom lo m = true → a < lo →
    m.read a = Config.unlistedByte := by
  induction m with
  | nil => intros; rfl
  | cons c t ih =>
    obtain ⟨k, b⟩ := c
    intro lo a h hlt
    simp only [Memory.wfFrom, Bool.and_eq_true, decide_eq_true_eq] at h
    rw [Memory.read, if_neg (by omega)]
    exact ih h.2 (by omega)

theorem Memory.read_write_ne (m : Memory) {a q : Nat} (b : Byte) (h : q ≠ a) : (m.write a b).read q = m.read q := by
  induction m with
  | nil => simp only [Memory.write]; split <;> simp [Memory.read, h]
  | cons c t ih =>
    obtain ⟨k, d⟩ := c
    simp only [Memory.write]
    split
    · split
      · rfl
      · simp [Memory.read, h]
    · split
      · subst_vars
        split <;> simp [Memory.read, h]
      · simp [Memory.read, ih]

theorem Memory.read_write_self_from {m : Memory} (a : Nat) (b : Byte) : ∀ {lo : Nat}, Memory.wfFrom lo m = true →
    (m.write a b).read a = b := by
  induction m with
  | nil => intro lo _; simp only [Memory.write]; split <;> simp_all [Memory.read]
  | cons c t ih =>
    obtain ⟨k, d⟩ := c
    intro lo h
    simp only [Memory.wfFrom, Bool.and_eq_true, decide_eq_true_eq] at h
    simp only [Memory.write]
    split
    · rename_i hlt
      split
      · rename_i hb
        rw [Memory.read, if_neg (by omega), Memory.read_of_lt h.2 (by omega), hb]
      · simp [Memory.read]
    · split
      · rename_i ha
        split
        · rename_i hb
          rw [Memory.read_of_lt h.2 (by omega), hb]
        · simp [Memory.read]
      · rename_i ha
        rw [Memory.read, if_neg ha]
        exact ih h.2

/-- A read after a write to storage in canonical form. -/
theorem Memory.read_write {m : Memory} (h : m.wf = true) (a q : Nat) (b : Byte) :
    (m.write a b).read q = if q = a then b else m.read q := by
  split
  · rename_i e; subst e; exact Memory.read_write_self_from q b h
  · rename_i e; exact Memory.read_write_ne m b e

/-! ## The canonical form -/

theorem Memory.wfFrom_mono {m : Memory} {lo lo' : Nat} (h : Memory.wfFrom lo m = true) (hl : lo' ≤ lo) :
    Memory.wfFrom lo' m = true := by
  cases m with
  | nil => rfl
  | cons c t =>
    simp only [Memory.wfFrom, Bool.and_eq_true, decide_eq_true_eq] at h ⊢
    exact ⟨⟨⟨by omega, h.1.1.2⟩, h.1.2⟩, h.2⟩

theorem Memory.wfFrom_write {m : Memory} {a : Nat} {b : Byte} (ha : a < 2 ^ 64) : ∀ {lo : Nat},
    Memory.wfFrom lo m = true → lo ≤ a → Memory.wfFrom lo (m.write a b) = true := by
  induction m with
  | nil => intro lo _ hlo; simp only [Memory.write]; split <;> simp_all [Memory.wfFrom]
  | cons c t ih =>
    obtain ⟨k, d⟩ := c
    intro lo h hlo
    simp only [Memory.wfFrom, Bool.and_eq_true, decide_eq_true_eq] at h
    obtain ⟨⟨⟨h1, h2⟩, h3⟩, h4⟩ := h
    simp only [Memory.write]
    split
    · split
      · simp only [Memory.wfFrom, Bool.and_eq_true, decide_eq_true_eq]
        exact ⟨⟨⟨h1, h2⟩, h3⟩, h4⟩
      · rename_i hlt hb
        simp only [Memory.wfFrom, Bool.and_eq_true, decide_eq_true_eq]
        exact ⟨⟨⟨hlo, ha⟩, hb⟩, ⟨⟨by omega, h2⟩, h3⟩, h4⟩
    · split
      · split
        · exact Memory.wfFrom_mono h4 (by omega)
        · rename_i hk hb
          simp only [Memory.wfFrom, Bool.and_eq_true, decide_eq_true_eq]
          exact ⟨⟨⟨hlo, ha⟩, hb⟩, by rw [hk]; exact h4⟩
      · simp only [Memory.wfFrom, Bool.and_eq_true, decide_eq_true_eq]
        exact ⟨⟨⟨h1, h2⟩, h3⟩, ih h4 (by omega)⟩

/-- A write keeps the canonical form. -/
theorem Memory.wf_write {m : Memory} (h : m.wf = true) {a : Nat} (ha : a < 2 ^ 64) (b : Byte) :
    (m.write a b).wf = true := Memory.wfFrom_write ha h (Nat.zero_le a)

theorem Memory.wf_writeBytes (bs : List Byte) : ∀ {m : Memory}, m.wf = true → ∀ a, a + bs.length ≤ 2 ^ 64 →
    (m.writeBytes a bs).wf = true := by
  induction bs with
  | nil => intro m h a _; exact h
  | cons b bs ih =>
    intro m h a ha
    simp only [List.length_cons] at ha
    exact ih (Memory.wf_write h (by omega) b) (a + 1) (by omega)

/-- The reset state's storage is in canonical form. -/
theorem Memory.wf_reset : State.reset.mem.wf = true := by decide

/-- Storage in canonical form is determined by what its addresses read as. -/
theorem Memory.ext_of_wfFrom : ∀ {m m' : Memory} {lo : Nat}, Memory.wfFrom lo m = true → Memory.wfFrom lo m' = true →
    (∀ a, m.read a = m'.read a) → m = m' := by
  intro m
  induction m with
  | nil =>
    intro m' lo _ h' hr
    cases m' with
    | nil => rfl
    | cons c t =>
      obtain ⟨k, b⟩ := c
      simp only [Memory.wfFrom, Bool.and_eq_true, decide_eq_true_eq] at h'
      have := hr k
      simp [Memory.read] at this
      exact absurd this.symm h'.1.2
  | cons c t ih =>
    obtain ⟨k, b⟩ := c
    intro m' lo h h' hr
    simp only [Memory.wfFrom, Bool.and_eq_true, decide_eq_true_eq] at h
    cases m' with
    | nil =>
      have := hr k
      simp [Memory.read] at this
      exact absurd this h.1.2
    | cons c' t' =>
      obtain ⟨k', b'⟩ := c'
      simp only [Memory.wfFrom, Bool.and_eq_true, decide_eq_true_eq] at h'
      have hk : k = k' := by
        rcases Nat.lt_trichotomy k k' with hlt | heq | hgt
        · have := hr k
          rw [Memory.read, if_pos rfl, Memory.read, if_neg (by omega), Memory.read_of_lt h'.2 (by omega)] at this
          exact absurd this h.1.2
        · exact heq
        · have := hr k'
          rw [Memory.read, if_neg (by omega), Memory.read_of_lt h.2 (by omega), Memory.read, if_pos rfl] at this
          exact absurd this.symm h'.1.2
      subst hk
      have hb : b = b' := by simpa [Memory.read] using hr k
      subst hb
      congr 1
      refine ih h.2 h'.2 fun a => ?_
      by_cases e : a = k
      · rw [e, Memory.read_of_lt h.2 (by omega), Memory.read_of_lt h'.2 (by omega)]
      · simpa [Memory.read, e] using hr a

theorem Memory.ext_of_wf {m m' : Memory} (h : m.wf = true) (h' : m'.wf = true) (hr : ∀ a, m.read a = m'.read a) :
    m = m' := Memory.ext_of_wfFrom h h' hr

/-! ## Several bytes -/

theorem Memory.read_writeBytes_of_out (bs : List Byte) : ∀ (m : Memory) (a q : Nat), (q < a ∨ a + bs.length ≤ q) →
    (m.writeBytes a bs).read q = m.read q := by
  induction bs with
  | nil => intros; rfl
  | cons b bs ih =>
    intro m a q h
    simp only [List.length_cons] at h
    rw [Memory.writeBytes, ih _ _ _ (by omega), Memory.read_write_ne m b (by omega)]

theorem Memory.read_writeBytes_of_in (bs : List Byte) : ∀ {m : Memory}, m.wf = true → ∀ (a q : Nat) (h : q - a < bs.length),
    a ≤ q → a + bs.length ≤ 2 ^ 64 → (m.writeBytes a bs).read q = bs[q - a] := by
  induction bs with
  | nil => intro m _ a q h; simp at h
  | cons b bs ih =>
    intro m hm a q h hle ha
    simp only [List.length_cons] at h ha
    rw [Memory.writeBytes]
    by_cases e : q = a
    · subst e
      rw [Memory.read_writeBytes_of_out _ _ _ _ (by omega), Memory.read_write hm, if_pos rfl]
      simp
    · have hq : q - a = (q - (a + 1)) + 1 := by omega
      rw [ih (Memory.wf_write hm (by omega) b) (a + 1) q (by omega) (by omega) (by omega)]
      simp [hq]

theorem Memory.length_readBytes (m : Memory) (n : Nat) : ∀ a, (m.readBytes a n).length = n := by
  induction n with
  | zero => intro a; rfl
  | succ n ih => intro a; simp [Memory.readBytes, ih]

theorem Memory.getElem_readBytes (m : Memory) (n : Nat) : ∀ (a k : Nat) (h : k < (m.readBytes a n).length),
    (m.readBytes a n)[k] = m.read (a + k) := by
  induction n with
  | zero => intro a k h; simp [Memory.readBytes] at h
  | succ n ih =>
    intro a k h
    cases k with
    | zero => simp [Memory.readBytes]
    | succ k => simp [Memory.readBytes, ih, Nat.add_left_comm, Nat.add_comm]

/-! ## Bytes and numbers -/

theorem bigEndian_foldl (bs : List Byte) : ∀ acc : Nat,
    bs.foldl (fun acc b => acc * 256 + b.toNat) acc = acc * 256 ^ bs.length + bigEndian bs := by
  induction bs with
  | nil => intro acc; simp [bigEndian]
  | cons b bs ih =>
    intro acc
    simp only [bigEndian, List.foldl_cons, List.length_cons]
    rw [ih, ih (0 * 256 + b.toNat), Nat.pow_succ]
    grind

/-- The first byte is the most significant (`20_memory.md` R41). -/
theorem bigEndian_cons (b : Byte) (bs : List Byte) : bigEndian (b :: bs) = b.toNat * 256 ^ bs.length + bigEndian bs := by
  rw [bigEndian, List.foldl_cons, bigEndian_foldl]
  simp

theorem bigEndian_lt (bs : List Byte) : bigEndian bs < 256 ^ bs.length := by
  induction bs with
  | nil => simp [bigEndian]
  | cons b bs ih =>
    rw [bigEndian_cons, List.length_cons, Nat.pow_succ]
    have hb : b.toNat < 256 := b.isLt
    calc b.toNat * 256 ^ bs.length + bigEndian bs < b.toNat * 256 ^ bs.length + 256 ^ bs.length := by omega
      _ = (b.toNat + 1) * 256 ^ bs.length := by rw [Nat.add_mul, Nat.one_mul]
      _ ≤ 256 * 256 ^ bs.length := Nat.mul_le_mul_right _ (by omega)
      _ = 256 ^ bs.length * 256 := Nat.mul_comm _ _

theorem length_bigEndianBytes (k : Nat) : ∀ v, (bigEndianBytes k v).length = k := by
  induction k with
  | zero => intro v; rfl
  | succ k ih => intro v; simp [bigEndianBytes, ih]

/-- The bytes of a number are that number again, modulo their width. -/
theorem bigEndian_bigEndianBytes (k : Nat) : ∀ v, bigEndian (bigEndianBytes k v) = v % 256 ^ k := by
  induction k with
  | zero => intro v; simp [bigEndianBytes, bigEndian, Nat.mod_one]
  | succ k ih =>
    intro v
    have h : v % (256 ^ k * 256) = v % 256 ^ k + 256 ^ k * (v / 256 ^ k % 256) := Nat.mod_mul
    rw [bigEndianBytes, bigEndian_cons, length_bigEndianBytes, ih, BitVec.toNat_ofNat, Nat.pow_succ 256, h, Nat.add_comm,
      Nat.mul_comm]

end Sys2Proof.Machine
end

