-- ==== Sys2Proof/Laws/State.lean ====
section
/-! SUPPORT. One lemma per field per update of the state, and the register read after a register write. -/

namespace Sys2Proof.Machine

@[simp] theorem State.setGr_ars (s : State) (r : Reg) (v : Dword) : (s.setGr r v).ars = s.ars := rfl
@[simp] theorem State.setGr_psw (s : State) (r : Reg) (v : Dword) : (s.setGr r v).psw = s.psw := rfl
@[simp] theorem State.setGr_mem (s : State) (r : Reg) (v : Dword) : (s.setGr r v).mem = s.mem := rfl
@[simp] theorem State.setGr_ldInstalled (s : State) (r : Reg) (v : Dword) : (s.setGr r v).ldInstalled = s.ldInstalled := rfl
@[simp] theorem State.setGr_admits (s : State) (r : Reg) (v : Dword) : (s.setGr r v).admits = s.admits := rfl
@[simp] theorem State.setGr_interruptions (s : State) (r : Reg) (v : Dword) : (s.setGr r v).interruptions = s.interruptions := rfl
@[simp] theorem State.setGr_lastInterruption (s : State) (r : Reg) (v : Dword) : (s.setGr r v).lastInterruption = s.lastInterruption := rfl

@[simp] theorem State.setGrLo_ars (s : State) (r : Reg) (w : Word) : (s.setGrLo r w).ars = s.ars := rfl
@[simp] theorem State.setGrLo_psw (s : State) (r : Reg) (w : Word) : (s.setGrLo r w).psw = s.psw := rfl
@[simp] theorem State.setGrLo_mem (s : State) (r : Reg) (w : Word) : (s.setGrLo r w).mem = s.mem := rfl
@[simp] theorem State.setGrLo_ldInstalled (s : State) (r : Reg) (w : Word) : (s.setGrLo r w).ldInstalled = s.ldInstalled := rfl
@[simp] theorem State.setGrLo_admits (s : State) (r : Reg) (w : Word) : (s.setGrLo r w).admits = s.admits := rfl
@[simp] theorem State.setGrLo_interruptions (s : State) (r : Reg) (w : Word) : (s.setGrLo r w).interruptions = s.interruptions := rfl
@[simp] theorem State.setGrLo_lastInterruption (s : State) (r : Reg) (w : Word) : (s.setGrLo r w).lastInterruption = s.lastInterruption := rfl

@[simp] theorem State.setAr_grs (s : State) (r : Reg) (w : Word) : (s.setAr r w).grs = s.grs := rfl
@[simp] theorem State.setAr_psw (s : State) (r : Reg) (w : Word) : (s.setAr r w).psw = s.psw := rfl
@[simp] theorem State.setAr_mem (s : State) (r : Reg) (w : Word) : (s.setAr r w).mem = s.mem := rfl
@[simp] theorem State.setAr_ldInstalled (s : State) (r : Reg) (w : Word) : (s.setAr r w).ldInstalled = s.ldInstalled := rfl
@[simp] theorem State.setAr_admits (s : State) (r : Reg) (w : Word) : (s.setAr r w).admits = s.admits := rfl
@[simp] theorem State.setAr_interruptions (s : State) (r : Reg) (w : Word) : (s.setAr r w).interruptions = s.interruptions := rfl
@[simp] theorem State.setAr_lastInterruption (s : State) (r : Reg) (w : Word) : (s.setAr r w).lastInterruption = s.lastInterruption := rfl

@[simp] theorem State.setCc_grs (s : State) (c : Cc) : (s.setCc c).grs = s.grs := rfl
@[simp] theorem State.setCc_ars (s : State) (c : Cc) : (s.setCc c).ars = s.ars := rfl
@[simp] theorem State.setCc_mem (s : State) (c : Cc) : (s.setCc c).mem = s.mem := rfl
@[simp] theorem State.setCc_ldInstalled (s : State) (c : Cc) : (s.setCc c).ldInstalled = s.ldInstalled := rfl
@[simp] theorem State.setCc_admits (s : State) (c : Cc) : (s.setCc c).admits = s.admits := rfl
@[simp] theorem State.setCc_interruptions (s : State) (c : Cc) : (s.setCc c).interruptions = s.interruptions := rfl
@[simp] theorem State.setCc_lastInterruption (s : State) (c : Cc) : (s.setCc c).lastInterruption = s.lastInterruption := rfl

@[simp] theorem State.setIa_grs (s : State) (a : Dword) : (s.setIa a).grs = s.grs := rfl
@[simp] theorem State.setIa_ars (s : State) (a : Dword) : (s.setIa a).ars = s.ars := rfl
@[simp] theorem State.setIa_mem (s : State) (a : Dword) : (s.setIa a).mem = s.mem := rfl
@[simp] theorem State.setIa_ldInstalled (s : State) (a : Dword) : (s.setIa a).ldInstalled = s.ldInstalled := rfl
@[simp] theorem State.setIa_admits (s : State) (a : Dword) : (s.setIa a).admits = s.admits := rfl
@[simp] theorem State.setIa_interruptions (s : State) (a : Dword) : (s.setIa a).interruptions = s.interruptions := rfl
@[simp] theorem State.setIa_lastInterruption (s : State) (a : Dword) : (s.setIa a).lastInterruption = s.lastInterruption := rfl

@[simp] theorem State.setMem_grs (s : State) (m : Memory) : (s.setMem m).grs = s.grs := rfl
@[simp] theorem State.setMem_ars (s : State) (m : Memory) : (s.setMem m).ars = s.ars := rfl
@[simp] theorem State.setMem_psw (s : State) (m : Memory) : (s.setMem m).psw = s.psw := rfl
@[simp] theorem State.setMem_ldInstalled (s : State) (m : Memory) : (s.setMem m).ldInstalled = s.ldInstalled := rfl
@[simp] theorem State.setMem_admits (s : State) (m : Memory) : (s.setMem m).admits = s.admits := rfl
@[simp] theorem State.setMem_interruptions (s : State) (m : Memory) : (s.setMem m).interruptions = s.interruptions := rfl
@[simp] theorem State.setMem_lastInterruption (s : State) (m : Memory) : (s.setMem m).lastInterruption = s.lastInterruption := rfl

@[simp] theorem State.advance_grs (s : State) (n : Nat) : (s.advance n).grs = s.grs := rfl
@[simp] theorem State.advance_ars (s : State) (n : Nat) : (s.advance n).ars = s.ars := rfl
@[simp] theorem State.advance_mem (s : State) (n : Nat) : (s.advance n).mem = s.mem := rfl
@[simp] theorem State.advance_ldInstalled (s : State) (n : Nat) : (s.advance n).ldInstalled = s.ldInstalled := rfl
@[simp] theorem State.advance_admits (s : State) (n : Nat) : (s.advance n).admits = s.admits := rfl
@[simp] theorem State.advance_interruptions (s : State) (n : Nat) : (s.advance n).interruptions = s.interruptions := rfl
@[simp] theorem State.advance_lastInterruption (s : State) (n : Nat) : (s.advance n).lastInterruption = s.lastInterruption := rfl

@[simp] theorem State.setMem_mem (s : State) (m : Memory) : (s.setMem m).mem = m := rfl
@[simp] theorem State.setCc_psw (s : State) (c : Cc) : (s.setCc c).psw = { s.psw with cc := c } := rfl
@[simp] theorem State.setIa_psw (s : State) (a : Dword) : (s.setIa a).psw = { s.psw with ia := a } := rfl
@[simp] theorem State.advance_psw (s : State) (n : Nat) :
    (s.advance n).psw = { s.psw with ia := s.wrap (s.psw.ia + BitVec.ofNat 64 n) } := rfl

/-! ## Registers -/

theorem State.gr_setGr (s : State) (r q : Reg) (v : Dword) : (s.setGr r v).gr q = if r = q then v else s.gr q := by
  simp only [State.gr, State.setGr, Vector.getElem_set, ← BitVec.toNat_inj]

theorem State.ar_setAr (s : State) (r q : Reg) (w : Word) : (s.setAr r w).ar q = if r = q then w else s.ar q := by
  simp only [State.ar, State.setAr, Vector.getElem_set, ← BitVec.toNat_inj]

@[simp] theorem State.gr_setGr_self (s : State) (r : Reg) (v : Dword) : (s.setGr r v).gr r = v := by
  simp [State.gr_setGr]

theorem State.gr_setGr_of_ne (s : State) {r q : Reg} (v : Dword) (h : r ≠ q) : (s.setGr r v).gr q = s.gr q := by
  simp [State.gr_setGr, h]

@[simp] theorem State.gr_setGrLo_self (s : State) (r : Reg) (w : Word) : (s.setGrLo r w).gr r = hi32 (s.gr r) ++ w := by
  simp [State.setGrLo]

theorem State.gr_setGrLo_of_ne (s : State) {r q : Reg} (w : Word) (h : r ≠ q) : (s.setGrLo r w).gr q = s.gr q := by
  simp [State.setGrLo, State.gr_setGr, h]

@[simp] theorem State.ar_setAr_self (s : State) (r : Reg) (w : Word) : (s.setAr r w).ar r = w := by
  simp [State.ar_setAr]

theorem State.ar_setAr_of_ne (s : State) {r q : Reg} (w : Word) (h : r ≠ q) : (s.setAr r w).ar q = s.ar q := by
  simp [State.ar_setAr, h]

@[simp] theorem State.gr_setAr (s : State) (r q : Reg) (w : Word) : (s.setAr r w).gr q = s.gr q := rfl
@[simp] theorem State.gr_setCc (s : State) (c : Cc) (q : Reg) : (s.setCc c).gr q = s.gr q := rfl
@[simp] theorem State.gr_setIa (s : State) (a : Dword) (q : Reg) : (s.setIa a).gr q = s.gr q := rfl
@[simp] theorem State.gr_setMem (s : State) (m : Memory) (q : Reg) : (s.setMem m).gr q = s.gr q := rfl
@[simp] theorem State.gr_advance (s : State) (n : Nat) (q : Reg) : (s.advance n).gr q = s.gr q := rfl
@[simp] theorem State.ar_setGr (s : State) (r q : Reg) (v : Dword) : (s.setGr r v).ar q = s.ar q := rfl
@[simp] theorem State.ar_setGrLo (s : State) (r q : Reg) (w : Word) : (s.setGrLo r w).ar q = s.ar q := rfl
@[simp] theorem State.ar_setCc (s : State) (c : Cc) (q : Reg) : (s.setCc c).ar q = s.ar q := rfl
@[simp] theorem State.ar_setIa (s : State) (a : Dword) (q : Reg) : (s.setIa a).ar q = s.ar q := rfl
@[simp] theorem State.ar_setMem (s : State) (m : Memory) (q : Reg) : (s.setMem m).ar q = s.ar q := rfl
@[simp] theorem State.ar_advance (s : State) (n : Nat) (q : Reg) : (s.advance n).ar q = s.ar q := rfl

/-- A 32-bit result leaves bits 0-31 (`10_state.md` R11). -/
@[simp] theorem hi32_append (h l : Word) : hi32 (h ++ l) = h := by
  ext i hi
  simp only [hi32, BitVec.getElem_extractLsb', BitVec.getLsbD_append]
  rw [if_neg (by omega), ← BitVec.getLsbD_eq_getElem]
  congr 1; omega

@[simp] theorem lo32_append (h l : Word) : lo32 (h ++ l) = l := by
  ext i hi
  simp only [lo32, BitVec.getElem_extractLsb', BitVec.getLsbD_append]
  rw [if_pos (by omega), ← BitVec.getLsbD_eq_getElem]
  congr 1; omega

/-! ## Access registers loaded in a row -/

/-- Loading access registers changes them alone. -/
theorem State.setArs_frame (ws : List Word) : ∀ (s : State) (r : Reg),
    (s.setArs r ws).grs = s.grs ∧ (s.setArs r ws).psw = s.psw ∧ (s.setArs r ws).mem = s.mem ∧
    (s.setArs r ws).ldInstalled = s.ldInstalled ∧ (s.setArs r ws).admits = s.admits ∧
    (s.setArs r ws).interruptions = s.interruptions ∧ (s.setArs r ws).lastInterruption = s.lastInterruption := by
  induction ws with
  | nil => intro s r; exact ⟨rfl, rfl, rfl, rfl, rfl, rfl, rfl⟩
  | cons w ws ih => intro s r; exact ih (s.setAr r w) (r + 1)

/-- An access register at a distance of at least the number of words from the first is unchanged. -/
theorem State.ar_setArs_of_far (ws : List Word) : ∀ (s : State) (r q : Reg), ws.length ≤ (q - r).toNat →
    (s.setArs r ws).ar q = s.ar q := by
  induction ws with
  | nil => intro s r q _; rfl
  | cons w ws ih =>
    intro s r q h
    simp only [List.length_cons] at h
    have hne : r ≠ q := by
      intro e; subst e; simp at h
    rw [State.setArs, ih, State.ar_setAr_of_ne s w hne]
    bv_omega

/-- At most 16 words: the word `k` places on goes to the access register `k` after the first, 0 following 15
(`49_load_access_and_address.md` R190). -/
theorem State.ar_setArs_of_near (ws : List Word) : ∀ (s : State) (r q : Reg) (h : (q - r).toNat < ws.length),
    ws.length ≤ 16 → (s.setArs r ws).ar q = ws[(q - r).toNat] := by
  induction ws with
  | nil => intro s r q h _; simp at h
  | cons w ws ih =>
    intro s r q h hl
    simp only [List.length_cons] at h hl
    rw [State.setArs]
    by_cases e : q = r
    · subst e
      rw [State.ar_setArs_of_far]
      · simp
      · bv_omega
    · have hs : (q - r).toNat = (q - (r + 1)).toNat + 1 := by bv_omega
      rw [ih (s.setAr r w) (r + 1) q (by omega) (by omega)]
      simp [hs]

end Sys2Proof.Machine
end

