-- ==== Sys2Proof/Laws/Ops.lean ====
section
/-! SUPPORT. What each shared operation of Machine/Ops.lean can do, said once: taking a program interruption, the ways an
instruction ends, and storage references. -/

namespace Sys2Proof.Machine

/-! ## Taking a program interruption -/

@[simp] theorem State.interrupt_grs (s : State) (e : ProgramException) (h : Nat) :
    (s.interrupt e h).grs = s.grs := rfl
@[simp] theorem State.interrupt_ars (s : State) (e : ProgramException) (h : Nat) :
    (s.interrupt e h).ars = s.ars := rfl
@[simp] theorem State.interrupt_ldInstalled (s : State) (e : ProgramException) (h : Nat) :
    (s.interrupt e h).ldInstalled = s.ldInstalled := rfl
@[simp] theorem State.interrupt_admits (s : State) (e : ProgramException) (h : Nat) :
    (s.interrupt e h).admits = s.admits := rfl
@[simp] theorem State.suppress_grs (s : State) (e : ProgramException) (h : Nat) :
    (s.suppress e h).grs = s.grs := by
  unfold State.suppress; split <;> rfl
@[simp] theorem State.suppress_ars (s : State) (e : ProgramException) (h : Nat) :
    (s.suppress e h).ars = s.ars := by
  unfold State.suppress; split <;> rfl
@[simp] theorem State.suppress_ldInstalled (s : State) (e : ProgramException) (h : Nat) :
    (s.suppress e h).ldInstalled = s.ldInstalled := by
  unfold State.suppress; split <;> rfl
@[simp] theorem State.suppress_admits (s : State) (e : ProgramException) (h : Nat) :
    (s.suppress e h).admits = s.admits := by
  unfold State.suppress; split <;> rfl

@[simp] theorem State.interrupt_interruptions (s : State) (e : ProgramException) (h : Nat) :
    (s.interrupt e h).interruptions = s.interruptions + 1 := rfl
@[simp] theorem State.interrupt_lastInterruption (s : State) (e : ProgramException) (h : Nat) :
    (s.interrupt e h).lastInterruption = some e := rfl
@[simp] theorem State.interrupt_mem (s : State) (e : ProgramException) (h : Nat) :
    (s.interrupt e h).mem = s.interruptionStores e h := rfl
@[simp] theorem State.suppress_interruptions (s : State) (e : ProgramException) (h : Nat) :
    (s.suppress e h).interruptions = s.interruptions + 1 := by
  unfold State.suppress; split <;> rfl
@[simp] theorem State.suppress_lastInterruption (s : State) (e : ProgramException) (h : Nat) :
    (s.suppress e h).lastInterruption = some e := by
  unfold State.suppress; split <;> rfl
@[simp] theorem State.gr_interrupt (s : State) (e : ProgramException) (h : Nat) (q : Reg) :
    (s.interrupt e h).gr q = s.gr q := rfl
@[simp] theorem State.ar_interrupt (s : State) (e : ProgramException) (h : Nat) (q : Reg) :
    (s.interrupt e h).ar q = s.ar q := rfl
@[simp] theorem State.gr_suppress (s : State) (e : ProgramException) (h : Nat) (q : Reg) :
    (s.suppress e h).gr q = s.gr q := by
  unfold State.suppress; split <;> rfl
@[simp] theorem State.ar_suppress (s : State) (e : ProgramException) (h : Nat) (q : Reg) :
    (s.suppress e h).ar q = s.ar q := by
  unfold State.suppress; split <;> rfl

/-- The addresses an interruption may store to (`60_exceptions.md` R221): 141 to 143, 168 to 175, 336 to 351. -/
abbrev interruptionStoresTo (a : Nat) : Prop := (141 ≤ a ∧ a < 144) ∨ (168 ≤ a ∧ a < 176) ∨ (336 ≤ a ∧ a < 352)

/-- An interruption stores nowhere else. -/
theorem State.read_interruptionStores_of_out (s : State) (e : ProgramException) (h a : Nat)
    (ha : ¬interruptionStoresTo a) : (s.interruptionStores e h).read a = s.mem.read a := by
  simp only [interruptionStoresTo, not_or, not_and, Nat.not_lt] at ha
  simp only [State.interruptionStores]
  split <;>
    repeat rw [Memory.read_writeBytes_of_out _ _ _ _ (by
      simp only [length_bigEndianBytes, List.length_cons, List.length_nil, Config.oldPswLocation, Config.ilcLocation,
        Config.codeLocation, Config.failingAddressLocation]
      omega)]

/-- An interruption keeps the canonical form of storage. -/
theorem State.wf_interruptionStores (s : State) (e : ProgramException) (h : Nat) (hw : s.mem.wf = true) :
    (s.interruptionStores e h).wf = true := by
  simp only [State.interruptionStores]
  split <;>
    (repeat' apply Memory.wf_writeBytes) <;>
    first
    | exact hw
    | simp [length_bigEndianBytes, Config.oldPswLocation, Config.ilcLocation, Config.codeLocation,
        Config.failingAddressLocation]

/-- The program new PSW is loaded as it stood before the interruption stored anything. -/
theorem State.interrupt_psw (s : State) (e : ProgramException) (h : Nat) :
    (s.interrupt e h).psw =
      Psw.ofBits (BitVec.ofNat 128 (bigEndian (s.mem.readBytes Config.newPswLocation 16))) := by
  have hb : (s.interruptionStores e h).readBytes Config.newPswLocation 16 = s.mem.readBytes Config.newPswLocation 16 := by
    refine List.ext_getElem (by simp [Memory.length_readBytes]) fun k h1 h2 => ?_
    rw [Memory.getElem_readBytes, Memory.getElem_readBytes]
    rw [Memory.length_readBytes] at h1
    refine State.read_interruptionStores_of_out s e h _ ?_
    simp only [interruptionStoresTo, Config.newPswLocation]
    omega
  simp only [State.interrupt, hb]

/-- The two endings of an instruction that is not executed (R212). -/
theorem State.suppress_cases (s : State) (e : ProgramException) (h : Nat) :
    (s.suppress e h = s.interrupt e h ∧ ∃ k a, e = .access k a ∧ causeNullifies (s.accessCause k a) = true) ∨
    s.suppress e h = (s.advance (2 * h)).interrupt e h := by
  unfold State.suppress
  split
  · rename_i hs
    refine Or.inl ⟨rfl, ?_⟩
    cases e with
    | access k a =>
      refine ⟨k, a, rfl, ?_⟩
      simp only [State.failingAddress] at hs
      split at hs
      · assumption
      · simp at hs
    | _ => simp [State.failingAddress] at hs
  · exact Or.inr rfl

/-- Only an access exception can nullify: any other exception is saved with the next instruction's address (R212). -/
theorem State.suppress_of_not_access (s : State) {e : ProgramException} (h : Nat) (he : ∀ k a, e ≠ .access k a) :
    s.suppress e h = (s.advance (2 * h)).interrupt e h := by
  rcases State.suppress_cases s e h with ⟨_, k, a, hk, _⟩ | hs
  · exact absurd hk (he k a)
  · exact hs

/-- Storage after a suppressed or nullified instruction: only the assigned locations differ. -/
theorem State.read_suppress_of_out (s : State) (e : ProgramException) (h a : Nat) (ha : ¬interruptionStoresTo a) :
    (s.suppress e h).mem.read a = s.mem.read a := by
  unfold State.suppress
  split
  · exact State.read_interruptionStores_of_out s e h a ha
  · exact State.read_interruptionStores_of_out (s.advance (2 * h)) e h a ha

theorem State.wf_suppress (s : State) (e : ProgramException) (h : Nat) (hw : s.mem.wf = true) :
    (s.suppress e h).mem.wf = true := by
  unfold State.suppress
  split
  · exact State.wf_interruptionStores s e h hw
  · exact State.wf_interruptionStores (s.advance (2 * h)) e h hw

/-! ## How an instruction ends -/

theorem State.complete_eq (s : State) (n : Nat) : s.complete n = .next (s.advance n) := rfl

theorem State.raise_eq (s : State) (e : ProgramException) (n : Nat) : s.raise e n = .next (s.suppress e (n / 2)) := rfl

/-- A signed addition that does not overflow, or whose overflow is masked, completes (`40_add.md` R109). -/
theorem State.completeSigned_of_not (s : State) (n : Nat) {c : Cc} (h : ¬(c = 3 ∧ s.psw.foMask = true)) :
    s.completeSigned n c = .next ((s.setCc c).advance n) := by
  simp only [State.completeSigned, if_neg h]

/-- With the fixed-point-overflow mask one, an overflow completes and is then interrupted (`60_exceptions.md` R215). -/
theorem State.completeSigned_overflow (s : State) (n : Nat) (h : s.psw.foMask = true) :
    s.completeSigned n 3 = .next (((s.setCc 3).advance n).interrupt .fixedPointOverflow (n / 2)) := by
  simp only [State.completeSigned, h, and_self, if_true]

@[simp] theorem State.withFacility_installed (s : State) (n : Nat) (k : Result) (h : s.ldInstalled = true) :
    s.withFacility n k = k := by
  simp only [State.withFacility, h, if_true]

@[simp] theorem State.withFacility_absent (s : State) (n : Nat) (k : Result) (h : s.ldInstalled = false) :
    s.withFacility n k = s.raise .operation n := by
  simp only [State.withFacility, h, Bool.false_eq_true, if_false]

/-! ## Storage references -/

theorem State.length_byteAddresses (s : State) (n : Nat) : ∀ a, (s.byteAddresses a n).length = n := by
  induction n with
  | zero => intro a; rfl
  | succ n ih => intro a; simp [State.byteAddresses, ih]

/-- The k-th byte of an operand is at its address plus k, reduced to the addressing mode (`20_memory.md` R47). -/
theorem State.getElem_byteAddresses (s : State) (n : Nat) : ∀ (a : Dword) (k : Nat) (h : k < (s.byteAddresses a n).length),
    (s.byteAddresses a n)[k] = s.wrap (a + BitVec.ofNat 64 k) := by
  induction n with
  | zero => intro a k h; simp [State.byteAddresses] at h
  | succ n ih =>
    intro a k h
    cases k with
    | zero => simp [State.byteAddresses]
    | succ k =>
      simp only [State.byteAddresses, List.getElem_cons_succ, ih]
      congr 1
      bv_omega

/-- Every byte admitted: nothing is denied. -/
theorem State.firstDenied_eq_none {s : State} {kind : AccessKind} {a : Dword} {n : Nat} :
    s.firstDenied kind a n = none ↔ ∀ k < n, s.admitsByte kind (s.wrap (a + BitVec.ofNat 64 k)) = true := by
  simp only [State.firstDenied, List.find?_eq_none, Bool.not_eq_true, Bool.not_eq_false']
  constructor
  · intro h k hk
    have hl : k < (s.byteAddresses a n).length := by rw [State.length_byteAddresses]; exact hk
    have := h _ (List.getElem_mem hl)
    rw [State.getElem_byteAddresses] at this
    exact this
  · intro h b hb
    obtain ⟨k, hk, rfl⟩ := List.getElem_of_mem hb
    rw [State.getElem_byteAddresses]
    exact h k (by rw [State.length_byteAddresses] at hk; exact hk)

/-- The address a denied reference reports is one of the operand's, and is not admitted (`60_exceptions.md` R213). -/
theorem State.not_admitted_of_firstDenied {s : State} {kind : AccessKind} {a d : Dword} {n : Nat}
    (h : s.firstDenied kind a n = some d) : s.admitsByte kind d = false ∧ ∃ k < n, d = s.wrap (a + BitVec.ofNat 64 k) := by
  have h1 := List.find?_some h
  obtain ⟨k, hk, hd⟩ := List.getElem_of_mem (List.mem_of_find?_eq_some h)
  refine ⟨by simpa using h1, k, by rw [State.length_byteAddresses] at hk; exact hk, ?_⟩
  rw [← hd, State.getElem_byteAddresses]

theorem State.fetch_of_admitted {s : State} {a : Dword} {n : Nat} (h : s.firstDenied .fetch a n = none) :
    s.fetch a n = .ok (bigEndian (s.bytesAt a n)) := by
  simp only [State.fetch, h]

theorem State.fetch_of_denied {s : State} {a d : Dword} {n : Nat} (h : s.firstDenied .fetch a n = some d) :
    s.fetch a n = .error d := by
  simp only [State.fetch, h]

theorem State.storeByte_of_admitted {s : State} {a : Dword} (b : Byte) (h : s.firstDenied .store a 1 = none) :
    s.storeByte a b = .ok (s.setMem (s.mem.write (s.wrap a).toNat b)) := by
  simp only [State.storeByte, h]

theorem State.storeByte_of_denied {s : State} {a d : Dword} (b : Byte) (h : s.firstDenied .store a 1 = some d) :
    s.storeByte a b = .error d := by
  simp only [State.storeByte, h]

theorem State.length_bytesAt (s : State) (a : Dword) (n : Nat) : (s.bytesAt a n).length = n := by
  simp [State.bytesAt, State.length_byteAddresses]

/-- The k-th byte of an operand (R41). -/
theorem State.getElem_bytesAt (s : State) (a : Dword) (n k : Nat) (h : k < (s.bytesAt a n).length) :
    (s.bytesAt a n)[k] = s.mem.read (s.wrap (a + BitVec.ofNat 64 k)).toNat := by
  simp only [State.bytesAt, List.getElem_map, State.getElem_byteAddresses]

end Sys2Proof.Machine
end

