-- ==== Sys2Proof/Laws/Fetch.lean ====
section
/-! SUPPORT. What the instruction fetch can answer. -/

namespace Sys2Proof.Machine

/-- The length that a first byte tells is 2, 4 or 6 (`30_encoding.md` R73). -/
theorem instrLength_cases (b : Byte) : instrLength b = 2 ∨ instrLength b = 4 ∨ instrLength b = 6 := by
  unfold instrLength
  split
  · exact Or.inl rfl
  · split
    · exact Or.inr (Or.inr rfl)
    · exact Or.inr (Or.inl rfl)

/-- In a valid addressing mode, at an even address whose bytes are admitted, the fetch answers the instruction's bytes. -/
theorem State.fetchInstr_of_ready {s : State} (hm : s.psw.modeValid = true) (ho : s.psw.iaOdd = false)
    (ha : s.firstDenied .fetch s.psw.ia s.lengthAtIa = none) :
    s.fetchInstr = .instruction (s.bytesAt s.psw.ia s.lengthAtIa) := by
  have h2 : s.firstDenied .fetch s.psw.ia 2 = none := by
    rw [State.firstDenied_eq_none] at ha ⊢
    intro k hk
    have : s.lengthAtIa = 2 ∨ s.lengthAtIa = 4 ∨ s.lengthAtIa = 6 := instrLength_cases _
    exact ha k (by omega)
  simp only [State.fetchInstr, hm, Bool.not_true, Bool.false_eq_true, if_false, ho, h2, ha]

/-- What the fetch can answer (`60_exceptions.md` R219): the bytes of the instruction at `pc`, all admitted; or a
specification exception with length code 0; or an access exception on a fetch. -/
theorem State.fetchInstr_cases (s : State) :
    (s.fetchInstr = .instruction (s.bytesAt s.psw.ia s.lengthAtIa) ∧
      s.firstDenied .fetch s.psw.ia s.lengthAtIa = none) ∨
    s.fetchInstr = .trap .specification 0 ∨ ∃ d h, s.fetchInstr = .trap (.access .fetch d) h := by
  unfold State.fetchInstr
  split
  · exact Or.inr (Or.inl rfl)
  · split
    · exact Or.inr (Or.inl rfl)
    · split
      · exact Or.inr (Or.inr ⟨_, _, rfl⟩)
      · split
        · exact Or.inr (Or.inr ⟨_, _, rfl⟩)
        · exact Or.inl ⟨rfl, by assumption⟩

/-- The fetch traps with a specification exception or an access exception on a fetch, nothing else
(`60_exceptions.md` R219). -/
theorem State.fetchInstr_trap {s : State} {e : ProgramException} {h : Nat} (ht : s.fetchInstr = .trap e h) :
    (e = .specification ∧ h = 0) ∨ ∃ d, e = .access .fetch d := by
  rcases s.fetchInstr_cases with ⟨hi, _⟩ | hs | ⟨d, k, ha⟩
  · rw [hi] at ht; cases ht
  · rw [hs] at ht; cases ht; exact Or.inl ⟨rfl, rfl⟩
  · rw [ha] at ht; cases ht; exact Or.inr ⟨d, rfl⟩

end Sys2Proof.Machine
end

