-- ==== Sys2Proof/Laws/Operands.lean ====
section
/-! SUPPORT. What each shared operation of Machine/Operands.lean and Machine/LoadAddress.lean can do, said once. -/

namespace Sys2Proof.Machine

/-! ## An operand fetched from storage -/

/-- Every byte admitted: the instruction goes on with the operand. -/
theorem State.withOperand_of_admitted {s : State} {ilen : Nat} {a : Dword} {n w : Nat} {k : BitVec w → Result}
    (h : s.firstDenied .fetch a n = none) :
    s.withOperand ilen a n w k = k (BitVec.ofNat w (bigEndian (s.bytesAt a n))) := by
  simp only [State.withOperand, State.fetch_of_admitted h]

/-- Some byte not admitted: the access exception, and nothing of the instruction (`60_exceptions.md` R213). -/
theorem State.withOperand_of_denied {s : State} {ilen : Nat} {a d : Dword} {n w : Nat} {k : BitVec w → Result}
    (h : s.firstDenied .fetch a n = some d) : s.withOperand ilen a n w k = s.raise (.access .fetch d) ilen := by
  simp only [State.withOperand, State.fetch_of_denied h]

/-- All an instruction with a storage operand can do. -/
theorem State.withOperand_cases (s : State) (ilen : Nat) (a : Dword) (n w : Nat) (k : BitVec w → Result) :
    (∃ d, s.firstDenied .fetch a n = some d ∧ s.withOperand ilen a n w k = s.raise (.access .fetch d) ilen) ∨
    (s.firstDenied .fetch a n = none ∧
      s.withOperand ilen a n w k = k (BitVec.ofNat w (bigEndian (s.bytesAt a n)))) := by
  cases h : s.firstDenied .fetch a n with
  | none => exact Or.inr ⟨rfl, State.withOperand_of_admitted h⟩
  | some d => exact Or.inl ⟨d, rfl, State.withOperand_of_denied h⟩

/-- As many words as were asked for. -/
theorem State.length_of_fetchWords {s : State} (n : Nat) : ∀ {a : Dword} {ws : List Word}, s.fetchWords a n = .ok ws →
    ws.length = n := by
  induction n with
  | zero => intro a ws h; simp only [State.fetchWords, Except.ok.injEq] at h; subst h; rfl
  | succ n ih =>
    intro a ws h
    simp only [State.fetchWords] at h
    split at h
    · simp at h
    · split at h
      · simp at h
      · rename_i v hv _ ws' hws
        simp only [Except.ok.injEq] at h
        subst h
        simp [ih hws]

/-- Every byte of every word admitted: the words are fetched, the k-th from four times k further on
(`49_load_access_and_address.md` R191). -/
theorem State.fetchWords_of_admitted {s : State} (n : Nat) : ∀ {a : Dword},
    (∀ k < n, s.firstDenied .fetch (a + BitVec.ofNat 64 (4 * k)) 4 = none) →
    s.fetchWords a n = .ok ((List.range n).map fun k =>
      BitVec.ofNat 32 (bigEndian (s.bytesAt (a + BitVec.ofNat 64 (4 * k)) 4))) := by
  induction n with
  | zero => intro a _; rfl
  | succ n ih =>
    intro a h
    have h0 := h 0 (by omega)
    rw [show BitVec.ofNat 64 (4 * 0) = 0#64 from rfl, BitVec.add_zero] at h0
    have ha : ∀ k, a + BitVec.ofNat 64 (4 * (k + 1)) = a + 4 + BitVec.ofNat 64 (4 * k) := by intro k; bv_omega
    have hr := ih (a := a + 4) fun k hk => by rw [← ha]; exact h (k + 1) (by omega)
    simp only [State.fetchWords, State.fetch_of_admitted h0, hr, List.range_succ_eq_map, List.map_cons, List.map_map]
    refine congrArg Except.ok (congr (congrArg List.cons ?_) (List.map_congr_left fun k _ => ?_))
    · rw [show BitVec.ofNat 64 (4 * 0) = 0#64 from rfl, BitVec.add_zero]
    · simp only [Function.comp, Nat.succ_eq_add_one, ha]

/-! ## Results placed in registers -/

theorem State.putCc32_eq (s : State) (n : Nat) (r1 : Reg) (r : Word × Cc) :
    s.putCc32 n r1 r = .next (((s.setGrLo r1 r.1).setCc r.2).advance n) := rfl

theorem State.putCc64_eq (s : State) (n : Nat) (r1 : Reg) (r : Dword × Cc) :
    s.putCc64 n r1 r = .next (((s.setGr r1 r.1).setCc r.2).advance n) := rfl

/-- Placing an address writes one general register and nothing else. -/
theorem State.placeAddress_eq_setGr (s : State) (r1 : Reg) (ea : Dword) :
    ∃ v, s.placeAddress r1 ea = s.setGr r1 v := by
  unfold State.placeAddress
  split
  · exact ⟨_, rfl⟩
  · exact ⟨_, rfl⟩
  · exact ⟨_, rfl⟩

/-- All that LOAD ACCESS MULTIPLE can do. -/
theorem State.loadAccessMultiple_cases (s : State) (n : Nat) (r1 r3 : Reg) (a : Dword) :
    (a.toNat % 4 ≠ 0 ∧ s.loadAccessMultiple n r1 r3 a = s.raise .specification n) ∨
    (a.toNat % 4 = 0 ∧ ∃ d, s.fetchWords a (accessRegisterCount r1 r3) = .error d ∧
      s.loadAccessMultiple n r1 r3 a = s.raise (.access .fetch d) n) ∨
    (a.toNat % 4 = 0 ∧ ∃ ws, s.fetchWords a (accessRegisterCount r1 r3) = .ok ws ∧
      s.loadAccessMultiple n r1 r3 a = (s.setArs r1 ws).complete n) := by
  unfold State.loadAccessMultiple
  split
  · rename_i h; exact Or.inl ⟨h, rfl⟩
  · rename_i h
    split
    · rename_i d hd; exact Or.inr (Or.inl ⟨by omega, d, hd, rfl⟩)
    · rename_i ws hw; exact Or.inr (Or.inr ⟨by omega, ws, hw, rfl⟩)

end Sys2Proof.Machine
end

