-- ==== Sys2Proof/Laws/PerInstr.lean ====
section
/-! SUPPORT. Statements made per instruction. LengthMatchesEncoding: the encoding has as many bytes as the instruction's
length, and its first byte, read as `30_encoding.md` R73 reads it, tells that length. -/

namespace Sys2Proof.Laws

/-- The encoding's length and the length its first byte tells are the instruction's. -/
def LengthMatchesEncoding.Statement (i : Instr) : Prop :=
  (encode i).length = i.length ∧ (encode i).head?.map instrLength = some i.length

theorem LengthMatchesEncoding.ofHalf {w : Half} {op : Byte} (h : bitField w 0 8 = op) (hl : instrLength op = 2) :
    (halfBytes w).length = 2 ∧ (halfBytes w).head?.map instrLength = some 2 := by
  simp [halfBytes, h, hl]

theorem LengthMatchesEncoding.ofWord {w : Word} {op : Byte} (h : bitField w 0 8 = op) (hl : instrLength op = 4) :
    (wordBytes w).length = 4 ∧ (wordBytes w).head?.map instrLength = some 4 := by
  simp [wordBytes, h, hl]

theorem LengthMatchesEncoding.ofTriple {w : BitVec 48} {op : Byte} (h : bitField w 0 8 = op) (hl : instrLength op = 6) :
    (tripleBytes w).length = 6 ∧ (tripleBytes w).head?.map instrLength = some 6 := by
  simp [tripleBytes, h, hl]

theorem LengthMatchesEncoding.ar (r1 r2 : Reg) : LengthMatchesEncoding.Statement (.ar r1 r2) :=
  LengthMatchesEncoding.ofHalf (bitField_packRR_op ..) (by decide)

theorem LengthMatchesEncoding.agr (r1 r2 : Reg) : LengthMatchesEncoding.Statement (.agr r1 r2) :=
  LengthMatchesEncoding.ofWord (bitField_packRRE_first ..) (by decide)

theorem LengthMatchesEncoding.agfr (r1 r2 : Reg) : LengthMatchesEncoding.Statement (.agfr r1 r2) :=
  LengthMatchesEncoding.ofWord (bitField_packRRE_first ..) (by decide)

theorem LengthMatchesEncoding.a (r1 x2 b2 : Reg) (d2 : Nat) : LengthMatchesEncoding.Statement (.a r1 x2 b2 d2) :=
  LengthMatchesEncoding.ofWord (bitField_packRX_op ..) (by decide)

theorem LengthMatchesEncoding.ay (r1 x2 b2 : Reg) (d2 : Int) : LengthMatchesEncoding.Statement (.ay r1 x2 b2 d2) :=
  LengthMatchesEncoding.ofTriple (bitField_packRXY_op ..) (by decide)

theorem LengthMatchesEncoding.ag (r1 x2 b2 : Reg) (d2 : Int) : LengthMatchesEncoding.Statement (.ag r1 x2 b2 d2) :=
  LengthMatchesEncoding.ofTriple (bitField_packRXY_op ..) (by decide)

theorem LengthMatchesEncoding.agf (r1 x2 b2 : Reg) (d2 : Int) : LengthMatchesEncoding.Statement (.agf r1 x2 b2 d2) :=
  LengthMatchesEncoding.ofTriple (bitField_packRXY_op ..) (by decide)

theorem LengthMatchesEncoding.ah (r1 x2 b2 : Reg) (d2 : Nat) : LengthMatchesEncoding.Statement (.ah r1 x2 b2 d2) :=
  LengthMatchesEncoding.ofWord (bitField_packRX_op ..) (by decide)

theorem LengthMatchesEncoding.ahy (r1 x2 b2 : Reg) (d2 : Int) : LengthMatchesEncoding.Statement (.ahy r1 x2 b2 d2) :=
  LengthMatchesEncoding.ofTriple (bitField_packRXY_op ..) (by decide)

theorem LengthMatchesEncoding.ahi (r1 : Reg) (i2 : Int) : LengthMatchesEncoding.Statement (.ahi r1 i2) :=
  LengthMatchesEncoding.ofWord (bitField_packRI_op ..) (by decide)

theorem LengthMatchesEncoding.aghi (r1 : Reg) (i2 : Int) : LengthMatchesEncoding.Statement (.aghi r1 i2) :=
  LengthMatchesEncoding.ofWord (bitField_packRI_op ..) (by decide)

theorem LengthMatchesEncoding.alr (r1 r2 : Reg) : LengthMatchesEncoding.Statement (.alr r1 r2) :=
  LengthMatchesEncoding.ofHalf (bitField_packRR_op ..) (by decide)

theorem LengthMatchesEncoding.algr (r1 r2 : Reg) : LengthMatchesEncoding.Statement (.algr r1 r2) :=
  LengthMatchesEncoding.ofWord (bitField_packRRE_first ..) (by decide)

theorem LengthMatchesEncoding.algfr (r1 r2 : Reg) : LengthMatchesEncoding.Statement (.algfr r1 r2) :=
  LengthMatchesEncoding.ofWord (bitField_packRRE_first ..) (by decide)

theorem LengthMatchesEncoding.al (r1 x2 b2 : Reg) (d2 : Nat) : LengthMatchesEncoding.Statement (.al r1 x2 b2 d2) :=
  LengthMatchesEncoding.ofWord (bitField_packRX_op ..) (by decide)

theorem LengthMatchesEncoding.aly (r1 x2 b2 : Reg) (d2 : Int) : LengthMatchesEncoding.Statement (.aly r1 x2 b2 d2) :=
  LengthMatchesEncoding.ofTriple (bitField_packRXY_op ..) (by decide)

theorem LengthMatchesEncoding.alg (r1 x2 b2 : Reg) (d2 : Int) : LengthMatchesEncoding.Statement (.alg r1 x2 b2 d2) :=
  LengthMatchesEncoding.ofTriple (bitField_packRXY_op ..) (by decide)

theorem LengthMatchesEncoding.algf (r1 x2 b2 : Reg) (d2 : Int) : LengthMatchesEncoding.Statement (.algf r1 x2 b2 d2) :=
  LengthMatchesEncoding.ofTriple (bitField_packRXY_op ..) (by decide)

theorem LengthMatchesEncoding.alcr (r1 r2 : Reg) : LengthMatchesEncoding.Statement (.alcr r1 r2) :=
  LengthMatchesEncoding.ofWord (bitField_packRRE_first ..) (by decide)

theorem LengthMatchesEncoding.alcgr (r1 r2 : Reg) : LengthMatchesEncoding.Statement (.alcgr r1 r2) :=
  LengthMatchesEncoding.ofWord (bitField_packRRE_first ..) (by decide)

theorem LengthMatchesEncoding.alc (r1 x2 b2 : Reg) (d2 : Int) : LengthMatchesEncoding.Statement (.alc r1 x2 b2 d2) :=
  LengthMatchesEncoding.ofTriple (bitField_packRXY_op ..) (by decide)

theorem LengthMatchesEncoding.alcg (r1 x2 b2 : Reg) (d2 : Int) : LengthMatchesEncoding.Statement (.alcg r1 x2 b2 d2) :=
  LengthMatchesEncoding.ofTriple (bitField_packRXY_op ..) (by decide)

theorem LengthMatchesEncoding.nr (r1 r2 : Reg) : LengthMatchesEncoding.Statement (.nr r1 r2) :=
  LengthMatchesEncoding.ofHalf (bitField_packRR_op ..) (by decide)

theorem LengthMatchesEncoding.ngr (r1 r2 : Reg) : LengthMatchesEncoding.Statement (.ngr r1 r2) :=
  LengthMatchesEncoding.ofWord (bitField_packRRE_first ..) (by decide)

theorem LengthMatchesEncoding.n (r1 x2 b2 : Reg) (d2 : Nat) : LengthMatchesEncoding.Statement (.n r1 x2 b2 d2) :=
  LengthMatchesEncoding.ofWord (bitField_packRX_op ..) (by decide)

theorem LengthMatchesEncoding.ny (r1 x2 b2 : Reg) (d2 : Int) : LengthMatchesEncoding.Statement (.ny r1 x2 b2 d2) :=
  LengthMatchesEncoding.ofTriple (bitField_packRXY_op ..) (by decide)

theorem LengthMatchesEncoding.ng (r1 x2 b2 : Reg) (d2 : Int) : LengthMatchesEncoding.Statement (.ng r1 x2 b2 d2) :=
  LengthMatchesEncoding.ofTriple (bitField_packRXY_op ..) (by decide)

theorem LengthMatchesEncoding.ni (b1 : Reg) (d1 : Nat) (i2 : Byte) : LengthMatchesEncoding.Statement (.ni b1 d1 i2) :=
  LengthMatchesEncoding.ofWord (bitField_packSI_op ..) (by decide)

theorem LengthMatchesEncoding.km (r1 r2 : Reg) : LengthMatchesEncoding.Statement (.km r1 r2) :=
  LengthMatchesEncoding.ofWord (bitField_packRRE_first ..) (by decide)

theorem LengthMatchesEncoding.kmc (r1 r2 : Reg) : LengthMatchesEncoding.Statement (.kmc r1 r2) :=
  LengthMatchesEncoding.ofWord (bitField_packRRE_first ..) (by decide)

theorem LengthMatchesEncoding.cr (r1 r2 : Reg) : LengthMatchesEncoding.Statement (.cr r1 r2) :=
  LengthMatchesEncoding.ofHalf (bitField_packRR_op ..) (by decide)

theorem LengthMatchesEncoding.cgr (r1 r2 : Reg) : LengthMatchesEncoding.Statement (.cgr r1 r2) :=
  LengthMatchesEncoding.ofWord (bitField_packRRE_first ..) (by decide)

theorem LengthMatchesEncoding.cgfr (r1 r2 : Reg) : LengthMatchesEncoding.Statement (.cgfr r1 r2) :=
  LengthMatchesEncoding.ofWord (bitField_packRRE_first ..) (by decide)

theorem LengthMatchesEncoding.c (r1 x2 b2 : Reg) (d2 : Nat) : LengthMatchesEncoding.Statement (.c r1 x2 b2 d2) :=
  LengthMatchesEncoding.ofWord (bitField_packRX_op ..) (by decide)

theorem LengthMatchesEncoding.cy (r1 x2 b2 : Reg) (d2 : Int) : LengthMatchesEncoding.Statement (.cy r1 x2 b2 d2) :=
  LengthMatchesEncoding.ofTriple (bitField_packRXY_op ..) (by decide)

theorem LengthMatchesEncoding.cg (r1 x2 b2 : Reg) (d2 : Int) : LengthMatchesEncoding.Statement (.cg r1 x2 b2 d2) :=
  LengthMatchesEncoding.ofTriple (bitField_packRXY_op ..) (by decide)

theorem LengthMatchesEncoding.cgf (r1 x2 b2 : Reg) (d2 : Int) : LengthMatchesEncoding.Statement (.cgf r1 x2 b2 d2) :=
  LengthMatchesEncoding.ofTriple (bitField_packRXY_op ..) (by decide)

theorem LengthMatchesEncoding.cfc (b2 : Reg) (d2 : Nat) : LengthMatchesEncoding.Statement (.cfc b2 d2) :=
  LengthMatchesEncoding.ofWord (bitField_packS_first ..) (by decide)

theorem LengthMatchesEncoding.ipm (r1 : Reg) : LengthMatchesEncoding.Statement (.ipm r1) :=
  LengthMatchesEncoding.ofWord (bitField_packRRE_first ..) (by decide)

theorem LengthMatchesEncoding.lr (r1 r2 : Reg) : LengthMatchesEncoding.Statement (.lr r1 r2) :=
  LengthMatchesEncoding.ofHalf (bitField_packRR_op ..) (by decide)

theorem LengthMatchesEncoding.lgr (r1 r2 : Reg) : LengthMatchesEncoding.Statement (.lgr r1 r2) :=
  LengthMatchesEncoding.ofWord (bitField_packRRE_first ..) (by decide)

theorem LengthMatchesEncoding.lgfr (r1 r2 : Reg) : LengthMatchesEncoding.Statement (.lgfr r1 r2) :=
  LengthMatchesEncoding.ofWord (bitField_packRRE_first ..) (by decide)

theorem LengthMatchesEncoding.l (r1 x2 b2 : Reg) (d2 : Nat) : LengthMatchesEncoding.Statement (.l r1 x2 b2 d2) :=
  LengthMatchesEncoding.ofWord (bitField_packRX_op ..) (by decide)

theorem LengthMatchesEncoding.ly (r1 x2 b2 : Reg) (d2 : Int) : LengthMatchesEncoding.Statement (.ly r1 x2 b2 d2) :=
  LengthMatchesEncoding.ofTriple (bitField_packRXY_op ..) (by decide)

theorem LengthMatchesEncoding.lg (r1 x2 b2 : Reg) (d2 : Int) : LengthMatchesEncoding.Statement (.lg r1 x2 b2 d2) :=
  LengthMatchesEncoding.ofTriple (bitField_packRXY_op ..) (by decide)

theorem LengthMatchesEncoding.lgf (r1 x2 b2 : Reg) (d2 : Int) : LengthMatchesEncoding.Statement (.lgf r1 x2 b2 d2) :=
  LengthMatchesEncoding.ofTriple (bitField_packRXY_op ..) (by decide)

theorem LengthMatchesEncoding.lam (r1 r3 b2 : Reg) (d2 : Nat) : LengthMatchesEncoding.Statement (.lam r1 r3 b2 d2) :=
  LengthMatchesEncoding.ofWord (bitField_packRX_op ..) (by decide)

theorem LengthMatchesEncoding.lamy (r1 r3 b2 : Reg) (d2 : Int) : LengthMatchesEncoding.Statement (.lamy r1 r3 b2 d2) :=
  LengthMatchesEncoding.ofTriple (bitField_packRXY_op ..) (by decide)

theorem LengthMatchesEncoding.la (r1 x2 b2 : Reg) (d2 : Nat) : LengthMatchesEncoding.Statement (.la r1 x2 b2 d2) :=
  LengthMatchesEncoding.ofWord (bitField_packRX_op ..) (by decide)

theorem LengthMatchesEncoding.lay (r1 x2 b2 : Reg) (d2 : Int) : LengthMatchesEncoding.Statement (.lay r1 x2 b2 d2) :=
  LengthMatchesEncoding.ofTriple (bitField_packRXY_op ..) (by decide)

theorem LengthMatchesEncoding.lae (r1 x2 b2 : Reg) (d2 : Nat) : LengthMatchesEncoding.Statement (.lae r1 x2 b2 d2) :=
  LengthMatchesEncoding.ofWord (bitField_packRX_op ..) (by decide)

end Sys2Proof.Laws
end

