-- ==== Sys2Proof/Laws/Run.lean ====
section
/-! SUPPORT. What `runStep` and the state of an exception's ending can be. -/

namespace Sys2Proof.Machine

/-- Every exception but a fixed-point overflow leaves the state before the instruction (`60_exceptions.md` R222). -/
theorem State.ending_of_ne {e : ProgramException} (s t : State) (h : e ≠ .fixedPointOverflow) : s.ending t e = s := by
  cases e <;> first | rfl | exact absurd rfl h

@[simp] theorem State.gr_ending_overflow (s t : State) (r : Reg) :
    (s.ending t .fixedPointOverflow).gr r = t.gr r := rfl
@[simp] theorem State.ending_ars (s t : State) (e : ProgramException) : (s.ending t e).ars = s.ars := by
  cases e <;> rfl
@[simp] theorem State.ending_mem (s t : State) (e : ProgramException) : (s.ending t e).mem = s.mem := by
  cases e <;> rfl
@[simp] theorem State.ending_ldInstalled (s t : State) (e : ProgramException) :
    (s.ending t e).ldInstalled = s.ldInstalled := by
  cases e <;> rfl
@[simp] theorem State.ending_admits (s t : State) (e : ProgramException) : (s.ending t e).admits = s.admits := by
  cases e <;> rfl
@[simp] theorem State.ending_interruptions (s t : State) (e : ProgramException) :
    (s.ending t e).interruptions = s.interruptions := by
  cases e <;> rfl
@[simp] theorem State.ending_lastInterruption (s t : State) (e : ProgramException) :
    (s.ending t e).lastInterruption = s.lastInterruption := by
  cases e <;> rfl

/-- What `runStep` answers where the step answers a next state: that state where no interruption is counted or recorded,
otherwise the fault of R222. -/
theorem runStep_of_next {s t : State} (h : step s = .next t) :
    (runStep s = .next t ∧ (t.interruptions = s.interruptions ∨ t.lastInterruption = none)) ∨
    ∃ e, t.lastInterruption = some e ∧ t.interruptions ≠ s.interruptions ∧
      runStep s = .fault (.programInterruption e (s.ending t e)) := by
  unfold runStep
  rw [h]
  cases hl : t.lastInterruption with
  | none => exact Or.inl ⟨by simp only [hl], Or.inr rfl⟩
  | some e =>
    by_cases hi : t.interruptions = s.interruptions
    · exact Or.inl ⟨by simp only [hl, if_pos hi], Or.inl hi⟩
    · exact Or.inr ⟨e, rfl, hi, by simp only [hl, if_neg hi]⟩

/-- A next state of `runStep` is a next state of the step. -/
theorem step_of_runStep {s t : State} (h : runStep s = .next t) : step s = .next t := by
  cases hs : step s with
  | next u =>
    rcases runStep_of_next hs with ⟨hr, _⟩ | ⟨e, _, _, hr⟩
    · rw [hr] at h; exact h
    · rw [hr] at h; cases h
  | fault f => unfold runStep at h; rw [hs] at h; cases h
  | refused r => unfold runStep at h; rw [hs] at h; cases h

end Sys2Proof.Machine
end

