-- ==== Sys2Proof/Tests/Slice0.lean ====
section
/-! SUPPORT. Tests of the model against the spec, and for every statement with hypotheses a state and operands that
  meet them.
The tests named `test_V…` are vectors of `95_test_vectors.md` Part 2, the `test_W…` its section 2.11. -/

namespace Sys2Proof.Tests

open Sys2Proof Sys2Proof.Machine Sys2Proof.Claims

/-! ## Well-formedness: an ill-formed term for each check, refused (`30_encoding.md` R80, R81, R85, R90) -/

theorem test_wellFormed_refuses_u12 :
    [Instr.a 1 2 3 4096, .ah 1 2 3 4096, .al 1 2 3 4096, .n 1 2 3 4096, .ni 1 4096 0, .c 1 2 3 4096, .cfc 1 4096,
      .l 1 2 3 4096, .lam 1 2 3 4096, .la 1 2 3 4096, .lae 1 2 3 4096].any Instr.wellFormed = false := by decide

theorem test_wellFormed_refuses_s20_high :
    [Instr.ay 1 2 3 524288, .ag 1 2 3 524288, .agf 1 2 3 524288, .ahy 1 2 3 524288, .aly 1 2 3 524288, .alg 1 2 3
      524288,
      .algf 1 2 3 524288, .alc 1 2 3 524288, .alcg 1 2 3 524288, .ny 1 2 3 524288, .ng 1 2 3 524288].any
      Instr.wellFormed = false := by decide

theorem test_wellFormed_refuses_s20_low :
    [Instr.cy 1 2 3 (-524289), .cg 1 2 3 (-524289), .cgf 1 2 3 (-524289), .ly 1 2 3 (-524289), .lg 1 2 3 (-524289),
      .lgf 1 2 3 (-524289), .lamy 1 2 3 (-524289), .lay 1 2 3 (-524289)].any Instr.wellFormed = false := by decide

theorem test_wellFormed_refuses_s16 :
    [Instr.ahi 1 32768, .ahi 1 (-32769), .aghi 1 32768, .aghi 1 (-32769)].any Instr.wellFormed = false := by decide

theorem test_wellFormed_admits_the_bounds :
    [Instr.a 1 2 3 4095, .ay 1 2 3 (-524288), .ay 1 2 3 524287, .ahi 1 (-32768), .aghi 1 32767].all Instr.wellFormed =
      true := by decide

/-! ## Decoding and encoding: every instruction's bytes written out from `30_encoding.md` section 5 (R86) and its
  layout -/

/-- Each list of bytes decodes to its instruction, which encodes to it. -/
def agree (rows : List (List Byte × Instr)) : Bool :=
  rows.all fun r => (decode r.1).toOption = some r.2 && encode r.2 = r.1

theorem test_encoding_RR :
    agree [([0x1A, 0x12], .ar 1 2),
      ([0x1E, 0x12], .alr 1 2),
      ([0x14, 0x12], .nr 1 2),
      ([0x19, 0x12], .cr 1 2),
      ([0x18, 0x12], .lr 1 2)] = true := by decide

theorem test_encoding_RRE :
    agree [([0xB9, 0x08, 0x00, 0x34], .agr 3 4),
      ([0xB9, 0x18, 0x00, 0x12], .agfr 1 2),
      ([0xB9, 0x0A, 0x00, 0x12], .algr 1 2),
      ([0xB9, 0x1A, 0x00, 0x12], .algfr 1 2),
      ([0xB9, 0x98, 0x00, 0x12], .alcr 1 2),
      ([0xB9, 0x88, 0x00, 0x23], .alcgr 2 3),
      ([0xB9, 0x80, 0x00, 0x12], .ngr 1 2),
      ([0xB9, 0x2E, 0x00, 0x24], .km 2 4),
      ([0xB9, 0x2F, 0x00, 0x24], .kmc 2 4),
      ([0xB9, 0x20, 0x00, 0x12], .cgr 1 2),
      ([0xB9, 0x30, 0x00, 0x12], .cgfr 1 2),
      ([0xB9, 0x04, 0x00, 0x12], .lgr 1 2),
      ([0xB9, 0x14, 0x00, 0x12], .lgfr 1 2),
      ([0xB2, 0x22, 0x00, 0x50], .ipm 5)] = true := by decide

theorem test_encoding_RX :
    agree [([0x5A, 0x12, 0x30, 0x64], .a 1 2 3 100),
      ([0x4A, 0x10, 0x20, 0x06], .ah 1 0 2 6),
      ([0x5E, 0x10, 0x20, 0x00], .al 1 0 2 0),
      ([0x54, 0x10, 0x20, 0x00], .n 1 0 2 0),
      ([0x59, 0x10, 0x20, 0x00], .c 1 0 2 0),
      ([0x58, 0x10, 0x20, 0x04], .l 1 0 2 4),
      ([0x41, 0x11, 0x0F, 0xFF], .la 1 1 0 4095),
      ([0x51, 0x40, 0x50, 0x08], .lae 4 0 5 8)] = true := by decide

theorem test_encoding_RXY :
    agree [([0xE3, 0x10, 0x5F, 0xFC, 0xFF, 0x5A], .ay 1 0 5 (-4)),
      ([0xE3, 0x60, 0x7F, 0xFF, 0x7F, 0x08], .ag 6 0 7 524287),
      ([0xE3, 0x10, 0x20, 0x00, 0x00, 0x18], .agf 1 0 2 0),
      ([0xE3, 0x10, 0x2F, 0xFE, 0xFF, 0x7A], .ahy 1 0 2 (-2)),
      ([0xE3, 0x10, 0x2F, 0xF8, 0xFF, 0x5E], .aly 1 0 2 (-8)),
      ([0xE3, 0x10, 0x20, 0x00, 0x00, 0x0A], .alg 1 0 2 0),
      ([0xE3, 0x10, 0x20, 0x00, 0x00, 0x1A], .algf 1 0 2 0),
      ([0xE3, 0x10, 0x20, 0x04, 0x00, 0x98], .alc 1 0 2 4),
      ([0xE3, 0x10, 0x20, 0x00, 0x00, 0x88], .alcg 1 0 2 0)] = true := by decide

theorem test_encoding_RXYmore :
    agree [([0xE3, 0x10, 0x2F, 0xFC, 0xFF, 0x54], .ny 1 0 2 (-4)),
      ([0xE3, 0x10, 0x20, 0x00, 0x00, 0x80], .ng 1 0 2 0),
      ([0xE3, 0x10, 0x2F, 0xFC, 0xFF, 0x59], .cy 1 0 2 (-4)),
      ([0xE3, 0x10, 0x20, 0x00, 0x00, 0x20], .cg 1 0 2 0),
      ([0xE3, 0x10, 0x20, 0x00, 0x00, 0x30], .cgf 1 0 2 0),
      ([0xE3, 0x10, 0x2F, 0xFC, 0xFF, 0x58], .ly 1 0 2 (-4)),
      ([0xE3, 0x13, 0x20, 0x00, 0x00, 0x04], .lg 1 3 2 0),
      ([0xE3, 0x10, 0x20, 0x00, 0x00, 0x14], .lgf 1 0 2 0),
      ([0xE3, 0x10, 0x10, 0x00, 0x80, 0x71], .lay 1 0 1 (-524288))] = true := by decide

theorem test_encoding_RI_SI_S_RS_RSY :
    agree [([0xA7, 0x1A, 0xFF, 0xFF], .ahi 1 (-1)),
      ([0xA7, 0xFB, 0x7F, 0xFF], .aghi 15 32767),
      ([0x94, 0x0F, 0x90, 0x08], .ni 9 8 15),
      ([0xB2, 0x1A, 0x10, 0x02], .cfc 1 2),
      ([0x9A, 0xE1, 0x30, 0x00], .lam 14 1 3 0),
      ([0xEB, 0x0F, 0x2F, 0xC0, 0xFF, 0x9A], .lamy 0 15 2 (-64))] = true := by decide

theorem test_W7_unassigned_bits : (decode [0xB9, 0x08, 0xFF, 0x34]).toOption = some (.agr 3 4) := by decide

theorem test_W6_refused : decode [0xA7, 0x14, 0x00, 0x01] = .error (.unknownSplitOpcode 0xA7 4) := rfl

theorem test_W10_refused : decode [0xE3, 0x10, 0x20, 0x00, 0x00, 0xFF] = .error (.unknownSplitOpcode 0xE3 0xFF) := rfl

theorem test_W13_refused : decode [0x00, 0x00] = .error (.unknownOpcode 0) := rfl

theorem test_tableWord_ay : decodeTableWord 48 0xE31020000A5A = some (.ay 1 0 2 40960) := by decide

/-! ## One step: the spec's vectors -/

/-- The start state of `95_test_vectors.md` Part 2: 64-bit mode, the instruction at 100 (hex), registers, storage,
  condition
code and program mask as given, all else zero. -/
def at100 (code : List Byte) (regs : List (Reg × Dword)) (mem : List (Nat × List Byte)) (cc : Cc) (pm : BitVec 4) :
  State :=
  let s := regs.foldl (fun s r => s.setGr r.1 r.2) State.reset
  { s with
    mem := mem.foldl (fun m w => m.writeBytes w.1 w.2) (Memory.writeBytes [] 0x100 code)
    psw := { Psw.reset with cc := cc, pm := pm, ia := 0x100 } }

def in31 (s : State) : State := { s with psw := { s.psw with ea := 0 } }

def in24 (s : State) : State := { s with psw := { s.psw with ea := 0, ba := 0 } }

def nextOf (r : Result) : Option State :=
  match r with
  | .next t => some t
  | _ => none

/-- A general register, the condition code and the instruction address of a next state. -/
def seen (r : Reg) (o : Result) : Option (Dword × Cc × Dword) := (nextOf o).map fun t => (t.gr r, t.psw.cc, t.psw.ia)

theorem test_V1_ar :
    seen 1 (step (at100 [0x1A, 0x12] [(1, 0xAAAAAAAA7FFFFFFF), (2, 0x5555555500000001)] [] 0 0)) = some
      (0xAAAAAAAA80000000, 3, 0x102) := by decide

theorem test_V12_agr :
    seen 3 (step (at100 [0xB9, 0x08, 0x00, 0x34] [(3, 0x8000000000000000), (4, 0x8000000000000000)] [] 0 0)) = some
      (0x0, 3, 0x104) := by decide

theorem test_V15_agfr :
    seen 1 (step (at100 [0xB9, 0x18, 0x00, 0x12] [(1, 0x5), (2, 0x12345678FFFFFFFE)] [] 0 0)) = some (0x3, 2, 0x104)
      := by decide

theorem test_V17_agfr :
    seen 1 (step (at100 [0xB9, 0x18, 0x00, 0x11] [(1, 0x180000000)] [] 0 0)) = some (0x100000000, 2, 0x104) := by
      decide

theorem test_V18_a :
    seen 1 (step (at100 [0x5A, 0x12, 0x30, 0x64] [(1, 0x1), (2, 0x10), (3, 0x2000)] [(0x2074, [0xFF, 0xFF, 0xFF,
      0xFF])] 0 0)) = some (0x0, 0, 0x104) := by decide

theorem test_V23_ay :
    seen 1 (step (at100 [0xE3, 0x10, 0x5F, 0xFC, 0xFF, 0x5A] [(1, 0xFFFFFFFF7FFFFFFE), (5, 0x1004)] [(0x1000, [0x00,
      0x00, 0x00, 0x02])] 0 0)) = some (0xFFFFFFFF80000000, 3, 0x106) := by decide

theorem test_V27_ag :
    seen 6 (step (at100 [0xE3, 0x60, 0x7F, 0xFF, 0x7F, 0x08] [(6, 0x10), (7, 0x1)] [(0x80000, [0xFF, 0xFF, 0xFF,
      0xFF, 0xFF, 0xFF, 0xFF, 0xF0])] 0 0)) = some (0x0, 0, 0x106) := by decide

theorem test_V28_agf :
    seen 1 (step (at100 [0xE3, 0x10, 0x20, 0x00, 0x00, 0x18] [(1, 0x80000000), (2, 0x3000)] [(0x3000, [0x80, 0x00,
      0x00, 0x00])] 0 0)) = some (0x0, 0, 0x106) := by decide

theorem test_V30_ah :
    seen 1 (step (at100 [0x4A, 0x10, 0x20, 0x06] [(1, 0xDEADBEEF00000001), (2, 0x4000)] [(0x4006, [0xFF, 0xFE])] 0
      0)) = some (0xDEADBEEFFFFFFFFF, 1, 0x104) := by decide

theorem test_V35_ahy :
    seen 1 (step (at100 [0xE3, 0x10, 0x2F, 0xFE, 0xFF, 0x7A] [(1, 0x7FFF8001), (2, 0x4002)] [(0x4000, [0x7F, 0xFF])]
      0 0)) = some (0x80000000, 3, 0x106) := by decide

theorem test_V38_ahi :
    seen 1 (step (at100 [0xA7, 0x1A, 0x80, 0x00] [(1, 0x80000000)] [] 0 0)) = some (0x7FFF8000, 3, 0x104) := by decide

theorem test_V42_aghi :
    seen 15 (step (at100 [0xA7, 0xFB, 0x7F, 0xFF] [(15, 0x7FFFFFFFFFFF8001)] [] 0 0)) = some (0x8000000000000000, 3,
      0x104) := by decide

theorem test_V43_aghi :
    seen 15 (step (at100 [0xA7, 0xFB, 0xFF, 0xFF] [(15, 0x100000000)] [] 0 0)) = some (0xFFFFFFFF, 2, 0x104) := by
      decide

theorem test_V46_alr :
    seen 1 (step (at100 [0x1E, 0x12] [(1, 0x1FFFFFFFF), (2, 0x1)] [] 0 0)) = some (0x100000000, 2, 0x102) := by decide

theorem test_V51_algr :
    seen 1 (step (at100 [0xB9, 0x0A, 0x00, 0x12] [(1, 0xFFFFFFFFFFFFFFFF), (2, 0x2)] [] 0 0)) = some (0x1, 3, 0x104)
      := by decide

theorem test_V54_algfr :
    seen 1 (step (at100 [0xB9, 0x1A, 0x00, 0x12] [(1, 0x1), (2, 0x77777777FFFFFFFF)] [] 0 0)) = some (0x100000000, 1,
      0x104) := by decide

theorem test_V57_al :
    seen 1 (step (at100 [0x5E, 0x10, 0x20, 0x00] [(1, 0xCAFEBABEFFFFFFFF), (2, 0x5003)] [(0x5003, [0x00, 0x00, 0x00,
      0x02])] 0 0)) = some (0xCAFEBABE00000001, 3, 0x104) := by decide

theorem test_V59_aly :
    seen 1 (step (at100 [0xE3, 0x10, 0x2F, 0xF8, 0xFF, 0x5E] [(1, 0x80000001), (2, 0x5008)] [(0x5000, [0x80, 0x00,
      0x00, 0x00])] 0 0)) = some (0x1, 3, 0x106) := by decide

theorem test_V62_alg :
    seen 1 (step (at100 [0xE3, 0x10, 0x20, 0x00, 0x00, 0x0A] [(1, 0x8000000000000000), (2, 0x5000)] [(0x5000, [0x80,
      0x00, 0x00, 0x00, 0x00, 0x00, 0x00, 0x00])] 0 0)) = some (0x0, 2, 0x106) := by decide

theorem test_V63_algf :
    seen 1 (step (at100 [0xE3, 0x10, 0x20, 0x00, 0x00, 0x1A] [(1, 0xFFFFFFFF00000001), (2, 0x5000)] [(0x5000, [0xFF,
      0xFF, 0xFF, 0xFF])] 0 0)) = some (0x0, 2, 0x106) := by decide

theorem test_V65_alcr :
    seen 1 (step (at100 [0xB9, 0x98, 0x00, 0x12] [(1, 0xFFFFFFFF), (2, 0x0)] [] 2 0)) = some (0x0, 2, 0x104) := by
      decide

theorem test_V70_alcr :
    seen 1 (step (at100 [0xB9, 0x98, 0x00, 0x12] [(1, 0x5555555500000000), (2, 0x0)] [] 3 0)) = some
      (0x5555555500000001, 1, 0x104) := by decide

theorem test_V74_alcgr :
    seen 2 (step (at100 [0xB9, 0x88, 0x00, 0x22] [(2, 0x8000000000000000)] [] 2 0)) = some (0x1, 3, 0x104) := by
      decide

theorem test_V77_alc :
    seen 1 (step (at100 [0xE3, 0x10, 0x2F, 0xFC, 0xFF, 0x98] [(1, 0xFFFFFFFE), (2, 0x6008)] [(0x6004, [0x00, 0x00,
      0x00, 0x01])] 3 0)) = some (0x0, 2, 0x106) := by decide

theorem test_V79_alcg :
    seen 1 (step (at100 [0xE3, 0x10, 0x20, 0x00, 0x00, 0x88] [(1, 0xFFFFFFFFFFFFFFFF), (2, 0x6000)] [(0x6000, [0xFF,
      0xFF, 0xFF, 0xFF, 0xFF, 0xFF, 0xFF, 0xFF])] 2 0)) = some (0xFFFFFFFFFFFFFFFF, 3, 0x106) := by decide

theorem test_V82_nr :
    seen 1 (step (at100 [0x14, 0x12] [(1, 0xFFFFFFFFF0F0F0F0), (2, 0xFF00FF0)] [] 0 0)) = some (0xFFFFFFFF00F000F0,
      1, 0x102) := by decide

theorem test_V84_ngr :
    seen 1 (step (at100 [0xB9, 0x80, 0x00, 0x12] [(1, 0xAAAAAAAAAAAAAAAA), (2, 0x5555555555555555)] [] 2 0)) = some
      (0x0, 0, 0x104) := by decide

theorem test_V86_n :
    seen 1 (step (at100 [0x54, 0x10, 0x20, 0x00] [(1, 0x12345678), (2, 0x7000)] [(0x7000, [0x00, 0x00, 0xFF, 0xFF])]
      0 0)) = some (0x5678, 1, 0x104) := by decide

theorem test_V87_ny :
    seen 1 (step (at100 [0xE3, 0x10, 0x2F, 0xFC, 0xFF, 0x54] [(1, 0xFFFF0000), (2, 0x7004)] [(0x7000, [0x00, 0x00,
      0xFF, 0xFF])] 1 0)) = some (0x0, 0, 0x106) := by decide

theorem test_V89_ng :
    seen 1 (step (at100 [0xE3, 0x10, 0x20, 0x00, 0x00, 0x80] [(1, 0x123456789ABCDEF0), (2, 0x7000)] [(0x7000, [0x00,
      0x00, 0x00, 0x00, 0xFF, 0xFF, 0xFF, 0xFF])] 0 0)) = some (0x9ABCDEF0, 1, 0x106) := by decide

theorem test_V94_cr :
    seen 1 (step (at100 [0x19, 0x12] [(1, 0x80000000), (2, 0xFFFFFFFF7FFFFFFF)] [] 0 0)) = some (0x80000000, 1,
      0x102) := by decide

theorem test_V96_cr :
    seen 1 (step (at100 [0x19, 0x12] [(1, 0x1), (2, 0xFFFFFFFF)] [] 0 0)) = some (0x1, 2, 0x102) := by decide

theorem test_V98_cgr :
    seen 1 (step (at100 [0xB9, 0x20, 0x00, 0x12] [(1, 0x80000000), (2, 0x7FFFFFFF)] [] 0 0)) = some (0x80000000, 2,
      0x104) := by decide

theorem test_V101_cgfr :
    seen 1 (step (at100 [0xB9, 0x30, 0x00, 0x12] [(1, 0xFFFFFFFFFFFFFFFF), (2, 0xFFFFFFFF)] [] 0 0)) = some
      (0xFFFFFFFFFFFFFFFF, 0, 0x104) := by decide

theorem test_V105_c :
    seen 1 (step (at100 [0x59, 0x10, 0x20, 0x00] [(1, 0x7FFFFFFF), (2, 0x9000)] [(0x9000, [0x80, 0x00, 0x00, 0x00])]
      0 0)) = some (0x7FFFFFFF, 2, 0x104) := by decide

theorem test_V107_cy :
    seen 1 (step (at100 [0xE3, 0x10, 0x2F, 0xFC, 0xFF, 0x59] [(1, 0x0), (2, 0x9004)] [(0x9000, [0xFF, 0xFF, 0xFF,
      0xFF])] 0 0)) = some (0x0, 2, 0x106) := by decide

theorem test_V109_cg :
    seen 1 (step (at100 [0xE3, 0x10, 0x20, 0x00, 0x00, 0x20] [(1, 0x7FFFFFFFFFFFFFFF), (2, 0x9000)] [(0x9000, [0x80,
      0x00, 0x00, 0x00, 0x00, 0x00, 0x00, 0x00])] 0 0)) = some (0x7FFFFFFFFFFFFFFF, 2, 0x106) := by decide

theorem test_V111_cgf :
    seen 1 (step (at100 [0xE3, 0x10, 0x20, 0x00, 0x00, 0x30] [(1, 0xFFFFFFFF00000000), (2, 0x9000)] [(0x9000, [0x80,
      0x00, 0x00, 0x00])] 0 0)) = some (0xFFFFFFFF00000000, 1, 0x106) := by decide

theorem test_V113_ipm :
    seen 5 (step (at100 [0xB2, 0x22, 0x00, 0x50] [(5, 0xFFFFFFFFFFFFFFFF)] [] 3 8)) = some (0xFFFFFFFF38FFFFFF, 3,
      0x104) := by decide

theorem test_V118_ipm :
    seen 5 (step (at100 [0xB2, 0x22, 0x00, 0x59] [(5, 0x0), (9, 0x77)] [] 2 1)) = some (0x21000000, 2, 0x104) := by
      decide

theorem test_V119_lr :
    seen 1 (step (at100 [0x18, 0x12] [(1, 0x1111111122222222), (2, 0x3333333344444444)] [] 2 0)) = some
      (0x1111111144444444, 2, 0x102) := by decide

theorem test_V121_lgr :
    seen 1 (step (at100 [0xB9, 0x04, 0x00, 0x12] [(1, 0x1111111122222222), (2, 0x3333333344444444)] [] 1 0)) = some
      (0x3333333344444444, 1, 0x104) := by decide

theorem test_V122_lgfr :
    seen 1 (step (at100 [0xB9, 0x14, 0x00, 0x12] [(1, 0x7), (2, 0x80000000)] [] 0 0)) = some (0xFFFFFFFF80000000, 0,
      0x104) := by decide

theorem test_V125_l :
    seen 1 (step (at100 [0x58, 0x10, 0x20, 0x04] [(1, 0x123456700000000), (2, 0xA000)] [(0xA004, [0xDE, 0xAD, 0xBE,
      0xEF])] 3 0)) = some (0x1234567DEADBEEF, 3, 0x104) := by decide

theorem test_V128_ly :
    seen 1 (step (at100 [0xE3, 0x10, 0x2F, 0xFC, 0xFF, 0x58] [(1, 0x0), (2, 0xA008)] [(0xA004, [0xDE, 0xAD, 0xBE,
      0xEF])] 0 0)) = some (0xDEADBEEF, 0, 0x106) := by decide

theorem test_V131_lg :
    seen 1 (step (at100 [0xE3, 0x13, 0x20, 0x00, 0x00, 0x04] [(1, 0x0), (2, 0xA000), (3, 0xFFFFFFFFFFFFFFF8)]
      [(0x9FF8, [0x88, 0x99, 0xAA, 0xBB, 0xCC, 0xDD, 0xEE, 0xFF])] 0 0)) = some (0x8899AABBCCDDEEFF, 0, 0x106) := by
      decide

theorem test_V132_lgf :
    seen 1 (step (at100 [0xE3, 0x10, 0x20, 0x00, 0x00, 0x14] [(1, 0x0), (2, 0xA004)] [(0xA004, [0xDE, 0xAD, 0xBE,
      0xEF])] 0 0)) = some (0xFFFFFFFFDEADBEEF, 0, 0x106) := by decide

theorem test_V145_la :
    seen 1 (step (in31 (at100 [0x41, 0x11, 0x00, 0x01] [(1, 0xFFFFFFFFFFFFFFFF)] [] 0 0))) = some
      (0xFFFFFFFF00000000, 0, 0x104) := by decide

theorem test_V147_la :
    seen 1 (step (in31 (at100 [0x41, 0x12, 0x30, 0x00] [(1, 0xAAAAAAAAAAAAAAAA), (2, 0x7FFFFFFF), (3, 0xFFFFFF)] [] 0
      0))) = some (0xAAAAAAAA00FFFFFE, 0, 0x104) := by decide

theorem test_V154_lay :
    seen 1 (step (in31 (at100 [0xE3, 0x10, 0x1F, 0xFF, 0xFF, 0x71] [(1, 0x0)] [] 0 0))) = some (0x7FFFFFFF, 0, 0x106)
      := by decide

theorem test_V90_ni :
    (nextOf (step (at100 [0x94, 0x0F, 0x90, 0x08] [(9, 0x8000)] [(0x8008, [0xA7])] 0 0))).map
      (fun t => (t.mem.read 0x8008, t.psw.cc, t.psw.ia)) = some (0x07, 1, 0x104) := by decide

theorem test_V92_ni :
    (nextOf (step (at100 [0x94, 0xFF, 0x90, 0x00] [(9, 0x8000)] [(0x8000, [0x5A])] 0 0))).map
      (fun t => (t.mem.read 0x8000, t.psw.cc, t.psw.ia)) = some (0x5A, 1, 0x104) := by decide

theorem test_V134_lam :
    (nextOf (step (at100 [0x9A, 0xE1, 0x30, 0x00] [(3, 0xB000)]
        [(0xB000, [0, 0, 0, 0xE, 0, 0, 0, 0xF, 0, 0, 0, 0, 0, 0, 0, 1])] 2 0))).map
      (fun t => ([t.ar 14, t.ar 15, t.ar 0, t.ar 1, t.ar 2], t.psw.cc, t.psw.ia)) = some ([14, 15, 0, 1, 0], 2, 0x104)
        := by
  decide

theorem test_V135_lam :
    (nextOf (step (at100 [0x9A, 0xE1, 0x30, 0x00] [(3, 0xB002)] [(0xB000, [0, 0, 0, 0xE])] 0 0))).map
      (fun t => (t.ar 14, t.lastInterruption, t.mem.read 141)) = some (0, some .specification, 4) := by decide

/-- From `49_load_access_and_address.md` R190, R192: one word, below the base. -/
theorem test_lamy :
    (nextOf (step (at100 [0xEB, 0x55, 0x2F, 0xC0, 0xFF, 0x9A] [(2, 0xC040)] [(0xC000, [0, 0, 0x10, 1])] 0 0))).map
      (fun t => (t.ar 5, t.ar 6, t.psw.ia)) = some (0x1001, 0, 0x106) := by decide

theorem test_V159_lae :
    (nextOf (exec (.lae 4 0 5 8)
        (let s := (at100 [] [(5, 0xD000)] [] 0 0).setAr 5 0xABCD; { s with psw := { s.psw with asc := 1 } }))).map
      (fun t => (t.gr 4, t.ar 4, t.psw.ia)) = some (0xD008, 0xABCD, 0x104) := by decide

theorem test_V163_lae :
    (nextOf (exec (.lae 4 5 0 8)
        (let s := ((at100 [] [(5, 0xD000)] [] 0 0).setAr 0 0x55).setAr 4 0x77;
          { s with psw := { s.psw with asc := 1 } }))).map
      (fun t => (t.gr 4, t.ar 4, t.psw.ia)) = some (0xD008, 0, 0x104) := by decide

/-- An overflow with the mask one: the sum and code 3 are in the old PSW's machine, then the new PSW, here zeros, is
  loaded.
The old PSW is at 336 with the next instruction's address (`60_exceptions.md` R212, R215, R221). -/
theorem test_V8_ar :
    (nextOf (step (at100 [0x1A, 0x12] [(1, 0x7FFFFFFF), (2, 1)] [] 0 8))).map
      (fun t => (t.gr 1, t.lastInterruption, bigEndian (t.mem.readBytes 344 8), t.mem.read 338, t.mem.read 141,
        t.mem.read 143)) = some (0x80000000, some .fixedPointOverflow, 0x102, 0x38, 2, 8) := by decide

theorem test_V24_ay :
    (nextOf (step { at100 [0xE3, 0x10, 0x5F, 0xFC, 0xFF, 0x5A] [(1, 7), (5, 0x1004)] [] 1 0 with ldInstalled := false
      })).map
      (fun t => (t.gr 1, t.lastInterruption, bigEndian (t.mem.readBytes 344 8), t.mem.read 141, t.mem.read 143)) =
      some (7, some .operation, 0x106, 6, 1) := by decide

theorem test_V22_a :
    exec (.a 1 0 3 0) { at100 [] [(1, 7), (3, 0x2000)] [] 2 0 with admits := [] } =
      .next ({ at100 [] [(1, 7), (3, 0x2000)] [] 2 0 with admits := [] }.suppress (.access .fetch 0x2000) 2) := rfl

theorem test_W11_km : step (at100 [0xB9, 0x2E, 0x00, 0x24] [] [] 0 0) = .refused .cipherMessageLost := rfl

theorem test_W11_kmc : step (at100 [0xB9, 0x2F, 0x00, 0x24] [] [] 0 0) = .refused .cipherMessageWithChainingLost := rfl

theorem test_W12_cfc : step (at100 [0xB2, 0x1A, 0x10, 0x00] [] [] 0 0) = .refused .compareAndFormCodewordLost := rfl

/-- The interface of `withFetchWord`: the row's bits run as the first instruction after reset. -/
theorem test_withFetchWord :
    (nextOf (step (State.reset.withFetchWord 32 0xA71AFFFF))).map (fun t => (t.gr 1, t.psw.ia)) = some (0xFFFFFFFF, 4)
      := by
  decide

/-! ## Witnesses: for each statement with hypotheses, a state and operands that meet them, one for each clause or form
  -/

/-- Registers 1 and 4 at the largest signed 64-bit and 32-bit integers, 2 at one, 3 at an operand of positive numbers.
  -/
def wit (cc : Cc) (pm : BitVec 4) : State :=
  at100 [0x1A, 0x12] [(1, 0x7FFFFFFFFFFFFFFF), (2, 1), (3, 0x2000), (4, 0x7FFFFFFF)]
    [(0x2000, [0x7F, 0xFF, 0xFF, 0xFF, 0, 0, 0, 1])] cc pm

/-- As `wit`, with nothing admitted but the instruction. -/
def bare (regions : List Region) : State := { wit 2 0 with admits := ⟨0x100, 2, true, false⟩ :: regions }

/-- As `wit`, without the long-displacement facility. -/
def noFacility : State := { wit 1 0 with ldInstalled := false }

/-- Every form, at the smallest sum that overflows, with the mask zero. -/
theorem witness_AddCompletes :
    (∃ x, SignedAdd (wit 0 0) (.ar 4 2) 2 4 false x ∧ ¬(signedCode (width false) x = 3 ∧ (wit 0 0).psw.foMask = true)) ∧
    (∃ x, SignedAdd (wit 0 0) (.agr 1 2) 4 1 true x ∧ ¬(signedCode (width true) x = 3 ∧ (wit 0 0).psw.foMask = true)) ∧
    (∃ x, SignedAdd (wit 0 0) (.agfr 1 2) 4 1 true x ∧ ¬(signedCode (width true) x = 3 ∧ (wit 0 0).psw.foMask = true)) ∧
    (∃ x, SignedAdd (wit 0 0) (.a 4 0 3 0) 4 4 false x ∧ ¬(signedCode (width false) x = 3 ∧ (wit 0 0).psw.foMask =
      true)) ∧
    (∃ x, SignedAdd (wit 0 0) (.ay 4 0 3 0) 6 4 false x ∧ ¬(signedCode (width false) x = 3 ∧ (wit 0 0).psw.foMask =
      true)) ∧
    (∃ x, SignedAdd (wit 0 0) (.ag 1 0 3 0) 6 1 true x ∧ ¬(signedCode (width true) x = 3 ∧ (wit 0 0).psw.foMask =
      true)) ∧
    (∃ x, SignedAdd (wit 0 0) (.agf 1 0 3 0) 6 1 true x ∧ ¬(signedCode (width true) x = 3 ∧ (wit 0 0).psw.foMask =
      true)) ∧
    (∃ x, SignedAdd (wit 0 0) (.ah 4 0 3 0) 4 4 false x ∧ ¬(signedCode (width false) x = 3 ∧ (wit 0 0).psw.foMask =
      true)) ∧
    (∃ x, SignedAdd (wit 0 0) (.ahy 4 0 3 0) 6 4 false x ∧ ¬(signedCode (width false) x = 3 ∧ (wit 0 0).psw.foMask =
      true)) ∧
    (∃ x, SignedAdd (wit 0 0) (.ahi 4 1) 4 4 false x ∧ ¬(signedCode (width false) x = 3 ∧ (wit 0 0).psw.foMask =
      true)) ∧
    (∃ x, SignedAdd (wit 0 0) (.aghi 1 1) 4 1 true x ∧ ¬(signedCode (width true) x = 3 ∧ (wit 0 0).psw.foMask = true))
      :=
  ⟨⟨_, (.ar 4 2), by decide⟩,
    ⟨_, (.agr 1 2), by decide⟩,
    ⟨_, (.agfr 1 2), by decide⟩,
    ⟨_, (.a 4 0 3 0 (show Admitted (wit 0 0) .fetch 0x2000 4 by unfold Admitted; decide)), by decide⟩,
    ⟨_, (.ay 4 0 3 0 rfl (show Admitted (wit 0 0) .fetch 0x2000 4 by unfold Admitted; decide)), by decide⟩,
    ⟨_, (.ag 1 0 3 0 (show Admitted (wit 0 0) .fetch 0x2000 8 by unfold Admitted; decide)), by decide⟩,
    ⟨_, (.agf 1 0 3 0 (show Admitted (wit 0 0) .fetch 0x2000 4 by unfold Admitted; decide)), by decide⟩,
    ⟨_, (.ah 4 0 3 0 (show Admitted (wit 0 0) .fetch 0x2000 2 by unfold Admitted; decide)), by decide⟩,
    ⟨_, (.ahy 4 0 3 0 rfl (show Admitted (wit 0 0) .fetch 0x2000 2 by unfold Admitted; decide)), by decide⟩,
    ⟨_, (.ahi 4 1 rfl), by decide⟩,
    ⟨_, (.aghi 1 1 rfl), by decide⟩⟩

/-- With the mask one, a sum that does not overflow. -/
theorem witness_AddCompletes_mask :
    ∃ x, SignedAdd (wit 0 8) (.ar 2 2) 2 2 false x ∧ ¬(signedCode (width false) x = 3 ∧ (wit 0 8).psw.foMask = true) :=
  ⟨_, .ar 2 2, by decide⟩

/-- Every form, at the smallest sum that overflows, with the mask one (with the mask zero: `witness_AddCompletes`). -/
theorem witness_AddOverflowCompletesThenInterrupts :
    (∃ x, SignedAdd (wit 0 8) (.ar 4 2) 2 4 false x ∧ signedCode (width false) x = 3 ∧ (wit 0 8).psw.foMask = true) ∧
    (∃ x, SignedAdd (wit 0 8) (.agr 1 2) 4 1 true x ∧ signedCode (width true) x = 3 ∧ (wit 0 8).psw.foMask = true) ∧
    (∃ x, SignedAdd (wit 0 8) (.agfr 1 2) 4 1 true x ∧ signedCode (width true) x = 3 ∧ (wit 0 8).psw.foMask = true) ∧
    (∃ x, SignedAdd (wit 0 8) (.a 4 0 3 0) 4 4 false x ∧ signedCode (width false) x = 3 ∧ (wit 0 8).psw.foMask = true) ∧
    (∃ x, SignedAdd (wit 0 8) (.ay 4 0 3 0) 6 4 false x ∧ signedCode (width false) x = 3 ∧ (wit 0 8).psw.foMask =
      true) ∧
    (∃ x, SignedAdd (wit 0 8) (.ag 1 0 3 0) 6 1 true x ∧ signedCode (width true) x = 3 ∧ (wit 0 8).psw.foMask = true) ∧
    (∃ x, SignedAdd (wit 0 8) (.agf 1 0 3 0) 6 1 true x ∧ signedCode (width true) x = 3 ∧ (wit 0 8).psw.foMask = true) ∧
    (∃ x, SignedAdd (wit 0 8) (.ah 4 0 3 0) 4 4 false x ∧ signedCode (width false) x = 3 ∧ (wit 0 8).psw.foMask =
      true) ∧
    (∃ x, SignedAdd (wit 0 8) (.ahy 4 0 3 0) 6 4 false x ∧ signedCode (width false) x = 3 ∧ (wit 0 8).psw.foMask =
      true) ∧
    (∃ x, SignedAdd (wit 0 8) (.ahi 4 1) 4 4 false x ∧ signedCode (width false) x = 3 ∧ (wit 0 8).psw.foMask = true) ∧
    (∃ x, SignedAdd (wit 0 8) (.aghi 1 1) 4 1 true x ∧ signedCode (width true) x = 3 ∧ (wit 0 8).psw.foMask = true) :=
  ⟨⟨_, (.ar 4 2), by decide, rfl⟩,
    ⟨_, (.agr 1 2), by decide, rfl⟩,
    ⟨_, (.agfr 1 2), by decide, rfl⟩,
    ⟨_, (.a 4 0 3 0 (show Admitted (wit 0 8) .fetch 0x2000 4 by unfold Admitted; decide)), by decide, rfl⟩,
    ⟨_, (.ay 4 0 3 0 rfl (show Admitted (wit 0 8) .fetch 0x2000 4 by unfold Admitted; decide)), by decide, rfl⟩,
    ⟨_, (.ag 1 0 3 0 (show Admitted (wit 0 8) .fetch 0x2000 8 by unfold Admitted; decide)), by decide, rfl⟩,
    ⟨_, (.agf 1 0 3 0 (show Admitted (wit 0 8) .fetch 0x2000 4 by unfold Admitted; decide)), by decide, rfl⟩,
    ⟨_, (.ah 4 0 3 0 (show Admitted (wit 0 8) .fetch 0x2000 2 by unfold Admitted; decide)), by decide, rfl⟩,
    ⟨_, (.ahy 4 0 3 0 rfl (show Admitted (wit 0 8) .fetch 0x2000 2 by unfold Admitted; decide)), by decide, rfl⟩,
    ⟨_, (.ahi 4 1 rfl), by decide, rfl⟩,
    ⟨_, (.aghi 1 1 rfl), by decide, rfl⟩⟩

/-- Every form. -/
theorem witness_AddLogicalCompletes :
    (∃ x, LogicalAdd (wit 2 0) (.alr 4 2) 2 4 false x) ∧
    (∃ x, LogicalAdd (wit 2 0) (.algr 1 2) 4 1 true x) ∧
    (∃ x, LogicalAdd (wit 2 0) (.algfr 1 2) 4 1 true x) ∧
    (∃ x, LogicalAdd (wit 2 0) (.al 4 0 3 0) 4 4 false x) ∧
    (∃ x, LogicalAdd (wit 2 0) (.aly 4 0 3 0) 6 4 false x) ∧
    (∃ x, LogicalAdd (wit 2 0) (.alg 1 0 3 0) 6 1 true x) ∧
    (∃ x, LogicalAdd (wit 2 0) (.algf 1 0 3 0) 6 1 true x) :=
  ⟨⟨_, (.alr 4 2)⟩,
    ⟨_, (.algr 1 2)⟩,
    ⟨_, (.algfr 1 2)⟩,
    ⟨_, (.al 4 0 3 0 (show Admitted (wit 2 0) .fetch 0x2000 4 by unfold Admitted; decide))⟩,
    ⟨_, (.aly 4 0 3 0 rfl (show Admitted (wit 2 0) .fetch 0x2000 4 by unfold Admitted; decide))⟩,
    ⟨_, (.alg 1 0 3 0 (show Admitted (wit 2 0) .fetch 0x2000 8 by unfold Admitted; decide))⟩,
    ⟨_, (.algf 1 0 3 0 (show Admitted (wit 2 0) .fetch 0x2000 4 by unfold Admitted; decide))⟩⟩

/-- An instruction that ends in a fixed-point-overflow interruption. -/
theorem witness_AddOverflowCompletesThenInterrupts_only :
    ∃ t, exec (.ar 4 2) (wit 0 8) = .next t ∧ t.interruptions ≠ (wit 0 8).interruptions ∧
      t.lastInterruption = some .fixedPointOverflow := ⟨_, rfl, by decide⟩

/-- Every form, with a carry. -/
theorem witness_AddLogicalWithCarryCompletes :
    (∃ x, CarryAdd (wit 2 0) (.alcr 4 2) 4 4 false x) ∧
    (∃ x, CarryAdd (wit 2 0) (.alcgr 1 2) 4 1 true x) ∧
    (∃ x, CarryAdd (wit 2 0) (.alc 4 0 3 0) 6 4 false x) ∧
    (∃ x, CarryAdd (wit 2 0) (.alcg 1 0 3 0) 6 1 true x) :=
  ⟨⟨_, (.alcr 4 2)⟩,
    ⟨_, (.alcgr 1 2)⟩,
    ⟨_, (.alc 4 0 3 0 (show Admitted (wit 2 0) .fetch 0x2000 4 by unfold Admitted; decide))⟩,
    ⟨_, (.alcg 1 0 3 0 (show Admitted (wit 2 0) .fetch 0x2000 8 by unfold Admitted; decide))⟩⟩

/-- Every form. -/
theorem witness_AndRegisterCompletes :
    (∃ a b, AndOperands (wit 2 0) (.nr 4 2) 2 4 false a b) ∧
    (∃ a b, AndOperands (wit 2 0) (.ngr 1 2) 4 1 true a b) ∧
    (∃ a b, AndOperands (wit 2 0) (.n 4 0 3 0) 4 4 false a b) ∧
    (∃ a b, AndOperands (wit 2 0) (.ny 4 0 3 0) 6 4 false a b) ∧
    (∃ a b, AndOperands (wit 2 0) (.ng 1 0 3 0) 6 1 true a b) :=
  ⟨⟨_, _, (.nr 4 2)⟩,
    ⟨_, _, (.ngr 1 2)⟩,
    ⟨_, _, (.n 4 0 3 0 (show Admitted (wit 2 0) .fetch 0x2000 4 by unfold Admitted; decide))⟩,
    ⟨_, _, (.ny 4 0 3 0 rfl (show Admitted (wit 2 0) .fetch 0x2000 4 by unfold Admitted; decide))⟩,
    ⟨_, _, (.ng 1 0 3 0 (show Admitted (wit 2 0) .fetch 0x2000 8 by unfold Admitted; decide))⟩⟩

/-- Every form. -/
theorem witness_CompareCompletes :
    (∃ x y, Compared (wit 2 0) (.cr 4 2) 2 x y) ∧
    (∃ x y, Compared (wit 2 0) (.cgr 1 2) 4 x y) ∧
    (∃ x y, Compared (wit 2 0) (.cgfr 1 2) 4 x y) ∧
    (∃ x y, Compared (wit 2 0) (.c 4 0 3 0) 4 x y) ∧
    (∃ x y, Compared (wit 2 0) (.cy 4 0 3 0) 6 x y) ∧
    (∃ x y, Compared (wit 2 0) (.cg 1 0 3 0) 6 x y) ∧
    (∃ x y, Compared (wit 2 0) (.cgf 1 0 3 0) 6 x y) :=
  ⟨⟨_, _, (.cr 4 2)⟩,
    ⟨_, _, (.cgr 1 2)⟩,
    ⟨_, _, (.cgfr 1 2)⟩,
    ⟨_, _, (.c 4 0 3 0 (show Admitted (wit 2 0) .fetch 0x2000 4 by unfold Admitted; decide))⟩,
    ⟨_, _, (.cy 4 0 3 0 rfl (show Admitted (wit 2 0) .fetch 0x2000 4 by unfold Admitted; decide))⟩,
    ⟨_, _, (.cg 1 0 3 0 (show Admitted (wit 2 0) .fetch 0x2000 8 by unfold Admitted; decide))⟩,
    ⟨_, _, (.cgf 1 0 3 0 (show Admitted (wit 2 0) .fetch 0x2000 4 by unfold Admitted; decide))⟩⟩

/-- Every form. -/
theorem witness_LoadCompletes :
    (∃ x, Loaded (wit 2 0) (.lr 4 2) 2 4 x) ∧
    (∃ x, Loaded (wit 2 0) (.lgr 1 2) 4 1 x) ∧
    (∃ x, Loaded (wit 2 0) (.lgfr 1 2) 4 1 x) ∧
    (∃ x, Loaded (wit 2 0) (.l 4 0 3 0) 4 4 x) ∧
    (∃ x, Loaded (wit 2 0) (.ly 4 0 3 0) 6 4 x) ∧
    (∃ x, Loaded (wit 2 0) (.lg 1 0 3 0) 6 1 x) ∧
    (∃ x, Loaded (wit 2 0) (.lgf 1 0 3 0) 6 1 x) :=
  ⟨⟨_, (.lr 4 2)⟩,
    ⟨_, (.lgr 1 2)⟩,
    ⟨_, (.lgfr 1 2)⟩,
    ⟨_, (.l 4 0 3 0 (show Admitted (wit 2 0) .fetch 0x2000 4 by unfold Admitted; decide))⟩,
    ⟨_, (.ly 4 0 3 0 rfl (show Admitted (wit 2 0) .fetch 0x2000 4 by unfold Admitted; decide))⟩,
    ⟨_, (.lg 1 0 3 0 (show Admitted (wit 2 0) .fetch 0x2000 8 by unfold Admitted; decide))⟩,
    ⟨_, (.lgf 1 0 3 0 (show Admitted (wit 2 0) .fetch 0x2000 4 by unfold Admitted; decide))⟩⟩

/-- The width; the forms are those of `witness_AddLogicalCompletes` and `witness_AddLogicalWithCarryCompletes`. -/
theorem witness_UnsignedAdditionLaw : 0 < 1 ∧ 0 < 64 ∧ ∃ x, LogicalAdd (wit 2 0) (.alr 4 2) 2 4 false x := ⟨by decide,
  by decide, _, .alr 4 2⟩

/-- The byte admitted for fetch and for store, the displacement at its smallest. -/
theorem witness_AndImmediateStoresOneByte :
    (wit 0 0).mem.wf = true ∧ Admitted (wit 0 0) .fetch ((wit 0 0).eaB (shortDisp 0) 3) 1 ∧
      Admitted (wit 0 0) .store ((wit 0 0).eaB (shortDisp 0) 3) 1 := by
  unfold Admitted; decide

/-- Each of the four clauses. -/
theorem witness_LoadAddressExtendedCompletes :
    (wit 0 0).psw.asc = 0 ∧ ({ (wit 0 0).psw with asc := 1 } : Psw).asc = 1 ∧ ({ (wit 0 0).psw with asc := 2 } :
      Psw).asc = 2 ∧
      ({ (wit 0 0).psw with asc := 3 } : Psw).asc = 3 := by decide

/-- Operands of different signs; and a form (all of them in `witness_AddCompletes`). -/
theorem witness_SignedAdditionLaw :
    (1 : BitVec 32).msb ≠ (0xFFFFFFFF : BitVec 32).msb ∧ (1 : BitVec 64).msb ≠ (0xFFFFFFFFFFFFFFFF : BitVec 64).msb ∧
      ∃ x, SignedAdd (wit 0 8) (.ar 4 2) 2 4 false x := ⟨by decide, by decide, _, .ar 4 2⟩

theorem witness_ComparisonLaw : ∃ x y, Compared (wit 2 0) (.cr 4 2) 2 x y := ⟨_, _, .cr 4 2⟩

theorem witness_InsertedMaskReadsBack : ∃ t, exec (.ipm 5) (wit 3 8) = .next t := ⟨_, rfl⟩

/-- All sixteen access registers, and one, on a word boundary, every byte admitted. -/
theorem witness_LoadAccessMultipleCompletes :
    (AccessLoad (wit 0 0) (.lam 7 6 3 0) 4 7 6 0x2000 ∧ (0x2000 : Dword).toNat % 4 = 0 ∧
      Admitted (wit 0 0) .fetch 0x2000 (4 * (((6 : Reg) - 7).toNat + 1))) ∧
    (AccessLoad (wit 0 0) (.lamy 5 5 3 (-4)) 6 5 5 0x1FFC ∧ (0x1FFC : Dword).toNat % 4 = 0 ∧
      Admitted (wit 0 0) .fetch 0x1FFC (4 * (((5 : Reg) - 5).toNat + 1))) :=
  ⟨⟨.lam 7 6 3 0, by decide, by unfold Admitted; decide⟩, ⟨.lamy 5 5 3 (-4) rfl, by decide, by unfold Admitted; decide⟩⟩

/-- One and three past a word boundary. -/
theorem witness_AccessMultipleOffBoundaryTraps :
    (AccessLoad (wit 0 0) (.lam 7 6 3 1) 4 7 6 0x2001 ∧ (0x2001 : Dword).toNat % 4 ≠ 0) ∧
    (AccessLoad (wit 0 0) (.lamy 5 5 3 (-1)) 6 5 5 0x1FFF ∧ (0x1FFF : Dword).toNat % 4 ≠ 0) :=
  ⟨⟨.lam 7 6 3 1, by decide⟩, ⟨.lamy 5 5 3 (-1) rfl, by decide⟩⟩

theorem witness_LoadAddressCompletes :
    AddressLoad (wit 0 0) (.la 1 2 3 4095) 4 1 0x3000 ∧ AddressLoad (wit 0 0) (.lay 1 2 3 (-524288)) 6 1
      0xFFFFFFFFFFF82001 :=
  ⟨.la 1 2 3 4095, .lay 1 2 3 (-524288) rfl⟩

theorem witness_LoadAddressCompletes_modes :
    AddressLoad (in31 (wit 0 0)) (.la 1 2 3 4095) 4 1 0x3000 ∧ (in31 (wit 0 0)).psw.amode ≠ .bits64 ∧
      AddressLoad (in24 (wit 0 0)) (.la 1 2 3 0) 4 1 0x2001 ∧ (in24 (wit 0 0)).psw.amode ≠ .bits64 :=
  ⟨.la 1 2 3 4095, by decide, .la 1 2 3 0, by decide⟩

/-- Both clauses at the ends of their ranges. -/
theorem witness_LoadAddressIncrements :
    ((0 : Reg) = 0 ∧ (15 : Reg) = 15) ∧ fitsU12 0 = true ∧ fitsU12 4095 = true ∧ (wit 0 0).ldInstalled = true ∧
      fitsS20 (-524288) = true ∧
      fitsS20 524287 = true := by decide

/-- The three clauses on the displacement at the ends of their ranges, with and without the facility. -/
theorem witness_DisplacementValues :
    fitsU12 0 = true ∧ fitsU12 4095 = true ∧ fitsS20 (-524288) = true ∧ fitsS20 524287 = true ∧
      (wit 0 0).ldInstalled = true ∧ noFacility.ldInstalled = false := by decide

theorem witness_CarryChainAddsDoubleWidth : (1 : Reg) ≠ 2 ∧ (3 : Reg) ≠ 2 := by decide

/-- Every comparison, the first operand high, and an ADD LOGICAL WITH CARRY after it. -/
theorem witness_CompareHighLeavesCarry :
    (∃ x y, Compared (wit 0 0) (.cr 4 2) 2 x y ∧ y < x) ∧
    (∃ x y, Compared (wit 0 0) (.cgr 1 2) 4 x y ∧ y < x) ∧
    (∃ x y, Compared (wit 0 0) (.cgfr 1 2) 4 x y ∧ y < x) ∧
    (∃ x y, Compared (wit 0 0) (.c 4 0 3 4) 4 x y ∧ y < x) ∧
    (∃ x y, Compared (wit 0 0) (.cy 4 0 3 4) 6 x y ∧ y < x) ∧
    (∃ x y, Compared (wit 0 0) (.cg 1 0 3 0) 6 x y ∧ y < x) ∧
    (∃ x y, Compared (wit 0 0) (.cgf 1 0 3 0) 6 x y ∧ y < x) ∧
    (∃ z, CarryAdd (wit 2 0) (.alcr 4 2) 4 4 false z) :=
  ⟨⟨_, _, (.cr 4 2), by decide⟩,
    ⟨_, _, (.cgr 1 2), by decide⟩,
    ⟨_, _, (.cgfr 1 2), by decide⟩,
    ⟨_, _, (.c 4 0 3 4 (show Admitted (wit 0 0) .fetch 0x2004 4 by unfold Admitted; decide)), by decide⟩,
    ⟨_, _, (.cy 4 0 3 4 rfl (show Admitted (wit 0 0) .fetch 0x2004 4 by unfold Admitted; decide)), by decide⟩,
    ⟨_, _, (.cg 1 0 3 0 (show Admitted (wit 0 0) .fetch 0x2000 8 by unfold Admitted; decide)), by decide⟩,
    ⟨_, _, (.cgf 1 0 3 0 (show Admitted (wit 0 0) .fetch 0x2000 4 by unfold Admitted; decide)), by decide⟩,
    ⟨_, .alcr 4 2⟩⟩

theorem witness_FacilityAbsentTraps :
    noFacility.ldInstalled = false ∧ NeedsFacility (.ay 1 0 3 0) ∧ NeedsFacility (.ahy 1 0 3 0) ∧
      NeedsFacility (.aly 1 0 3 0) ∧ NeedsFacility (.ny 1 0 3 0) ∧ NeedsFacility (.cy 1 0 3 0) ∧
      NeedsFacility (.ly 1 0 3 0) ∧ NeedsFacility (.lamy 1 2 3 0) ∧ NeedsFacility (.lay 1 0 3 0) :=
  ⟨rfl, .ay 1 0 3 0, .ahy 1 0 3 0, .aly 1 0 3 0, .ny 1 0 3 0, .cy 1 0 3 0, .ly 1 0 3 0, .lamy 1 2 3 0, .lay 1 0 3 0⟩

/-- The first byte denied. -/
theorem first_denied (n : Nat) (h : 0 < n) : DeniedAt (bare []) .fetch 0x2000 n 0x2000 :=
  ⟨0, h, by decide, by decide, fun k hk => absurd hk (Nat.not_lt_zero k)⟩

/-- The first byte denied, the forms with a short displacement or of the facility. -/
theorem witness_OperandNotAdmittedTraps :
    (FetchesOperand (bare []) (.a 4 0 3 0) 4 0x2000 4 ∧ DeniedAt (bare []) .fetch 0x2000 4 0x2000) ∧
    (FetchesOperand (bare []) (.ah 4 0 3 0) 4 0x2000 2 ∧ DeniedAt (bare []) .fetch 0x2000 2 0x2000) ∧
    (FetchesOperand (bare []) (.al 4 0 3 0) 4 0x2000 4 ∧ DeniedAt (bare []) .fetch 0x2000 4 0x2000) ∧
    (FetchesOperand (bare []) (.n 4 0 3 0) 4 0x2000 4 ∧ DeniedAt (bare []) .fetch 0x2000 4 0x2000) ∧
    (FetchesOperand (bare []) (.c 4 0 3 0) 4 0x2000 4 ∧ DeniedAt (bare []) .fetch 0x2000 4 0x2000) ∧
    (FetchesOperand (bare []) (.l 4 0 3 0) 4 0x2000 4 ∧ DeniedAt (bare []) .fetch 0x2000 4 0x2000) ∧
    (FetchesOperand (bare []) (.ay 4 0 3 0) 6 0x2000 4 ∧ DeniedAt (bare []) .fetch 0x2000 4 0x2000) ∧
    (FetchesOperand (bare []) (.ahy 4 0 3 0) 6 0x2000 2 ∧ DeniedAt (bare []) .fetch 0x2000 2 0x2000) ∧
    (FetchesOperand (bare []) (.aly 4 0 3 0) 6 0x2000 4 ∧ DeniedAt (bare []) .fetch 0x2000 4 0x2000) ∧
    (FetchesOperand (bare []) (.ny 4 0 3 0) 6 0x2000 4 ∧ DeniedAt (bare []) .fetch 0x2000 4 0x2000) ∧
    (FetchesOperand (bare []) (.cy 4 0 3 0) 6 0x2000 4 ∧ DeniedAt (bare []) .fetch 0x2000 4 0x2000) ∧
    (FetchesOperand (bare []) (.ly 4 0 3 0) 6 0x2000 4 ∧ DeniedAt (bare []) .fetch 0x2000 4 0x2000) :=
  ⟨⟨.a 4 0 3 0, first_denied 4 (by decide)⟩,
    ⟨.ah 4 0 3 0, first_denied 2 (by decide)⟩,
    ⟨.al 4 0 3 0, first_denied 4 (by decide)⟩,
    ⟨.n 4 0 3 0, first_denied 4 (by decide)⟩,
    ⟨.c 4 0 3 0, first_denied 4 (by decide)⟩,
    ⟨.l 4 0 3 0, first_denied 4 (by decide)⟩,
    ⟨.ay 4 0 3 0 rfl, first_denied 4 (by decide)⟩,
    ⟨.ahy 4 0 3 0 rfl, first_denied 2 (by decide)⟩,
    ⟨.aly 4 0 3 0 rfl, first_denied 4 (by decide)⟩,
    ⟨.ny 4 0 3 0 rfl, first_denied 4 (by decide)⟩,
    ⟨.cy 4 0 3 0 rfl, first_denied 4 (by decide)⟩,
    ⟨.ly 4 0 3 0 rfl, first_denied 4 (by decide)⟩⟩

/-- The first byte denied, the other forms. -/
theorem witness_OperandNotAdmittedTraps_older :
    (FetchesOperand (bare []) (.ag 4 0 3 0) 6 0x2000 8 ∧ DeniedAt (bare []) .fetch 0x2000 8 0x2000) ∧
    (FetchesOperand (bare []) (.agf 4 0 3 0) 6 0x2000 4 ∧ DeniedAt (bare []) .fetch 0x2000 4 0x2000) ∧
    (FetchesOperand (bare []) (.alg 4 0 3 0) 6 0x2000 8 ∧ DeniedAt (bare []) .fetch 0x2000 8 0x2000) ∧
    (FetchesOperand (bare []) (.algf 4 0 3 0) 6 0x2000 4 ∧ DeniedAt (bare []) .fetch 0x2000 4 0x2000) ∧
    (FetchesOperand (bare []) (.alc 4 0 3 0) 6 0x2000 4 ∧ DeniedAt (bare []) .fetch 0x2000 4 0x2000) ∧
    (FetchesOperand (bare []) (.alcg 4 0 3 0) 6 0x2000 8 ∧ DeniedAt (bare []) .fetch 0x2000 8 0x2000) ∧
    (FetchesOperand (bare []) (.ng 4 0 3 0) 6 0x2000 8 ∧ DeniedAt (bare []) .fetch 0x2000 8 0x2000) ∧
    (FetchesOperand (bare []) (.cg 4 0 3 0) 6 0x2000 8 ∧ DeniedAt (bare []) .fetch 0x2000 8 0x2000) ∧
    (FetchesOperand (bare []) (.cgf 4 0 3 0) 6 0x2000 4 ∧ DeniedAt (bare []) .fetch 0x2000 4 0x2000) ∧
    (FetchesOperand (bare []) (.lg 4 0 3 0) 6 0x2000 8 ∧ DeniedAt (bare []) .fetch 0x2000 8 0x2000) ∧
    (FetchesOperand (bare []) (.lgf 4 0 3 0) 6 0x2000 4 ∧ DeniedAt (bare []) .fetch 0x2000 4 0x2000) ∧
    (FetchesOperand (bare []) (.ni 3 0 5) 4 0x2000 1 ∧ DeniedAt (bare []) .fetch 0x2000 1 0x2000) ∧
    (FetchesOperand (bare []) (.lam 5 6 3 0) 4 0x2000 8 ∧ DeniedAt (bare []) .fetch 0x2000 8 0x2000) ∧
    (FetchesOperand (bare []) (.lamy 5 6 3 0) 6 0x2000 8 ∧ DeniedAt (bare []) .fetch 0x2000 8 0x2000) :=
  ⟨⟨.ag 4 0 3 0, first_denied 8 (by decide)⟩,
    ⟨.agf 4 0 3 0, first_denied 4 (by decide)⟩,
    ⟨.alg 4 0 3 0, first_denied 8 (by decide)⟩,
    ⟨.algf 4 0 3 0, first_denied 4 (by decide)⟩,
    ⟨.alc 4 0 3 0, first_denied 4 (by decide)⟩,
    ⟨.alcg 4 0 3 0, first_denied 8 (by decide)⟩,
    ⟨.ng 4 0 3 0, first_denied 8 (by decide)⟩,
    ⟨.cg 4 0 3 0, first_denied 8 (by decide)⟩,
    ⟨.cgf 4 0 3 0, first_denied 4 (by decide)⟩,
    ⟨.lg 4 0 3 0, first_denied 8 (by decide)⟩,
    ⟨.lgf 4 0 3 0, first_denied 4 (by decide)⟩,
    ⟨.ni 3 0 5, first_denied 1 (by decide)⟩,
    ⟨.lam 5 6 3 0 rfl, first_denied 8 (by decide)⟩,
    ⟨.lamy 5 6 3 0 rfl rfl, first_denied 8 (by decide)⟩⟩

/-- The last byte denied: three bytes of the word are admitted (vector V127). -/
theorem witness_OperandNotAdmittedTraps_last :
    FetchesOperand (bare [⟨0x2000, 3, true, true⟩]) (.l 4 0 3 0) 4 0x2000 4 ∧
      DeniedAt (bare [⟨0x2000, 3, true, true⟩]) .fetch 0x2000 4 0x2003 :=
  ⟨.l 4 0 3 0, 3, by decide, by decide, by decide, by unfold Admitted; decide⟩

/-- The byte admitted for fetch alone. -/
theorem witness_AndImmediateStoreNotAdmittedTraps :
    Admitted (bare [⟨0x2000, 1, true, false⟩]) .fetch ((bare [⟨0x2000, 1, true, false⟩]).eaB (shortDisp 0) 3) 1 ∧
      (bare [⟨0x2000, 1, true, false⟩]).admitsByte .store ((bare [⟨0x2000, 1, true, false⟩]).eaB (shortDisp 0) 3) =
        false := by
  unfold Admitted; decide

/-- An interrupted instruction: an overflow, an operation, a specification and an access exception. -/
theorem witness_OnlyListedExceptions :
    (∃ t, exec (.ar 4 2) (wit 0 8) = .next t ∧ t.interruptions ≠ (wit 0 8).interruptions) ∧
    (∃ t, exec (.lay 4 0 3 0) noFacility = .next t ∧ t.interruptions ≠ noFacility.interruptions) ∧
    (∃ t, exec (.lam 4 5 3 1) (wit 0 0) = .next t ∧ t.interruptions ≠ (wit 0 0).interruptions) ∧
    (∃ t, exec (.l 4 0 3 0) (bare []) = .next t ∧ t.interruptions ≠ (bare []).interruptions) :=
  ⟨⟨_, rfl, by decide⟩, ⟨_, rfl, by decide⟩, ⟨_, rfl, by decide⟩,
    ⟨(bare []).suppress (.access .fetch 0x2000) 2, rfl, by rw [State.suppress_interruptions]; decide⟩⟩

/-- The clause for anything but an overflow: the last exception recorded is another. -/
theorem witness_InterruptedInstructionChangesNothing :
    ∃ t, exec (.lay 4 0 3 0) noFacility = .next t ∧ t.interruptions ≠ noFacility.interruptions ∧
      t.lastInterruption ≠ some .fixedPointOverflow := ⟨_, rfl, by decide⟩

theorem witness_InterruptionSavesAndLoadsPsw : (wit 3 8).mem.wf = true ∧ 0 < 4 ∧ 3 < 4 := by decide

/-- An operand of each size, admitted. -/
theorem witness_OperandFetchIsBigEndian :
    Admitted (wit 0 0) .fetch 0x2000 2 ∧ Admitted (wit 0 0) .fetch 0x2000 4 ∧ Admitted (wit 0 0) .fetch 0x2000 8 := by
  unfold Admitted; decide

theorem witness_DecodeEncodeAgree :
    (Instr.ay 1 2 3 (-524288)).wellFormed = true ∧ (Instr.a 1 2 3 4095).wellFormed = true ∧
      (Instr.ahi 1 (-32768)).wellFormed = true := by decide

/-- Bytes of each length, and more bytes than the instruction has. -/
theorem witness_DecodedIsWellFormed :
    decode [0x1A, 0x12] = .ok (.ar 1 2) ∧ decode [0x5A, 0x12, 0x30, 0x64, 0xFF] = .ok (.a 1 2 3 100) ∧
      decode [0xE3, 0x10, 0x5F, 0xFC, 0xFF, 0x5A] = .ok (.ay 1 0 5 (-4)) := ⟨rfl, rfl, rfl⟩

/-- One of each of the three cases: IPM, an RRE instruction, any other. -/
theorem witness_EncodeOfDecoded :
    decode [0xB2, 0x22, 0xFF, 0x5F] = .ok (.ipm 5) ∧ decode [0xB9, 0x08, 0xFF, 0x34] = .ok (.agr 3 4) ∧
      decode [0x94, 0x0F, 0x90, 0x08] = .ok (.ni 9 8 15) := ⟨rfl, rfl, rfl⟩

theorem witness_StepRunsDecodedInstruction :
    (wit 0 0).psw.modeValid = true ∧ (wit 0 0).psw.iaOdd = false ∧
      Admitted (wit 0 0) .fetch (wit 0 0).psw.ia (instrLength (byteAt (wit 0 0) (wit 0 0).psw.ia 0)) ∧
      decode ((wit 0 0).bytesAt (wit 0 0).psw.ia (instrLength (byteAt (wit 0 0) (wit 0 0).psw.ia 0))) = .ok (.ar 1 2) :=
  ⟨rfl, rfl, by unfold Admitted; decide, rfl⟩

/-- The state after reset: zeros at address 0. -/
theorem witness_StepRefusesOutsideTable :
    State.reset.psw.modeValid = true ∧ State.reset.psw.iaOdd = false ∧
      Admitted State.reset .fetch State.reset.psw.ia (instrLength (byteAt State.reset State.reset.psw.ia 0)) ∧
      decode (State.reset.bytesAt State.reset.psw.ia (instrLength (byteAt State.reset State.reset.psw.ia 0))) =
        .error (.unknownOpcode 0) :=
  ⟨rfl, rfl, by unfold Admitted; decide, rfl⟩

/-- Each of the four clauses: an invalid mode; an odd address; the first byte denied; only the third byte denied. -/
theorem witness_StepFetchTraps :
    ({ (wit 0 0).psw with ea := 1, ba := 0 } : Psw).modeValid = false ∧
    ((wit 0 0).setIa 0x101).psw.modeValid = true ∧ ((wit 0 0).setIa 0x101).psw.iaOdd = true ∧
    (bare []).psw.modeValid = true ∧ ((bare []).setIa 0x2000).psw.iaOdd = false ∧
    DeniedAt ((bare []).setIa 0x2000) .fetch ((bare []).setIa 0x2000).psw.ia 2 0x2000 ∧
    Admitted { at100 [0x5A, 0x12, 0x30, 0x64] [] [] 0 0 with admits := [⟨0x100, 2, true, false⟩] } .fetch 0x100 2 ∧
    DeniedAt { at100 [0x5A, 0x12, 0x30, 0x64] [] [] 0 0 with admits := [⟨0x100, 2, true, false⟩] } .fetch 0x100
      (instrLength 0x5A) 0x102 :=
  ⟨rfl, rfl, rfl, rfl, rfl, ⟨0, by decide, by decide, by decide, fun k hk => absurd hk (Nat.not_lt_zero k)⟩,
    by unfold Admitted; decide, ⟨2, by decide, by decide, by decide, by unfold Admitted; decide⟩⟩

/-- Canonical storage, for a step that completes, one that takes an interruption and one that is refused. -/
theorem witness_OpaquePswBitsDoNotInfluenceStep :
    ((wit 0 0).mem.wf = true ∧ ∃ t, step (wit 0 0) = .next t ∧ t.interruptions = (wit 0 0).interruptions) ∧
    (((wit 0 0).setIa 0x101).mem.wf = true ∧ ∃ t, step ((wit 0 0).setIa 0x101) = .next t ∧
      t.interruptions ≠ (wit 0 0).interruptions) ∧
    (State.reset.mem.wf = true ∧ ∃ why, step State.reset = .refused why) :=
  ⟨⟨by decide, _, rfl, rfl⟩, ⟨by decide, ((wit 0 0).setIa 0x101).suppress .specification 0, rfl, by decide⟩,
    ⟨by decide, _, rfl⟩⟩

/-- The wait-state bit is carried and not read (R20, R232). -/
theorem test_wait_bit_is_carried :
    ∃ t, step (withOpaqueBits (wit 0 0) { (wit 0 0).psw with wait := 1 }) = .next t ∧ t.psw.ia = 0x102 ∧
      t.psw.wait = 1 := ⟨_, rfl, rfl, rfl⟩

theorem witness_StepKeepsStorageCanonical : (wit 0 0).mem.wf = true ∧ ∃ t, step (wit 0 0) = .next t := ⟨by decide, _,
  rfl⟩

theorem witness_StepKeepsLaunchable :
    (wit 0 0).launchable id ∧ ∃ t, step (wit 0 0) = .next t ∧ t.interruptions = (wit 0 0).interruptions :=
  ⟨⟨rfl, rfl, by decide, rfl, Or.inl rfl, rfl, by decide⟩, _, rfl, rfl⟩

/-- Translation on, but the identity: the other case of premise 9. -/
theorem witness_StepKeepsLaunchable_identity :
    ({ wit 0 0 with psw := { (wit 0 0).psw with dat := 1 } } : State).launchable id :=
  ⟨rfl, rfl, by decide, rfl, Or.inr fun _ _ _ => rfl, rfl, by decide⟩

theorem witness_RunStepKeepsProgram :
    (wit 0 0).holdsProgram 0x100 [0x1A, 0x12] ∧ (wit 0 0).stepSparesProgram 0x100 2 = true ∧
      ∃ t, runStep (wit 0 0) = .next t :=
  ⟨by decide, by decide, _, rfl⟩

/-- NI at 100 that would store into its own bytes does not spare them. -/
theorem test_ni_into_program :
    (at100 [0x94, 0x0F, 0x01, 0x01] [] [] 0 0).stepSparesProgram 0x100 4 = false ∧
      (at100 [0x94, 0x0F, 0x02, 0x00] [] [] 0 0).stepSparesProgram 0x100 4 = true := by decide

/-- Both clauses: a step that completes, and one that takes an interruption. -/
theorem witness_StepWritesOnlyCcAndPc :
    (∃ t, step (wit 0 0) = .next t ∧ t.interruptions = (wit 0 0).interruptions) ∧
    (∃ t, step ((wit 0 0).setIa 0x101) = .next t ∧ t.interruptions = (wit 0 0).interruptions + 1) :=
  ⟨⟨_, rfl, rfl⟩, ⟨((wit 0 0).setIa 0x101).suppress .specification 0, rfl, rfl⟩⟩

theorem witness_CompletionAdvancesByLength :
    ∃ t, exec (.ar 1 2) (wit 0 0) = .next t ∧ t.interruptions = (wit 0 0).interruptions ∧ (wit 0 0).psw.iaOdd = false :=
  ⟨_, rfl, rfl, rfl⟩

theorem witness_OnlyAndImmediateStores :
    ∃ t, exec (.ar 1 2) (wit 0 0) = .next t ∧ t.interruptions = (wit 0 0).interruptions ∧ IsNi (.ar 1 2) = false :=
  ⟨_, rfl, rfl, rfl⟩

/-- Each clause: an instruction that loads no access register, one that leaves the code, a comparison, an AND. -/
theorem witness_WhoWritesAccessRegistersAndCc :
    (∃ t, exec (.lr 1 2) (wit 3 0) = .next t ∧ t.interruptions = (wit 3 0).interruptions ∧ LoadsAccess (.lr 1 2) =
      false ∧
      LeavesCc (.lr 1 2) = true) ∧
    (∃ t, exec (.cr 1 2) (wit 3 0) = .next t ∧ t.interruptions = (wit 3 0).interruptions ∧ IsCompare (.cr 1 2) = true) ∧
    (∃ t, exec (.nr 1 2) (wit 3 0) = .next t ∧ t.interruptions = (wit 3 0).interruptions ∧ IsAnd (.nr 1 2) = true) :=
  ⟨⟨_, rfl, rfl, rfl, rfl⟩, ⟨_, rfl, rfl, rfl⟩, ⟨_, rfl, rfl, rfl⟩⟩

theorem witness_UnreadPswBitsDoNotInfluence :
    IsLae (.ar 1 2) = false ∧ ∃ t, exec (.ar 1 2) (wit 0 0) = .next t ∧ t.interruptions = (wit 0 0).interruptions :=
  ⟨rfl, _, rfl, rfl⟩

theorem witness_LoadAddressIgnoresStorage : AddressLoad (bare []) (.la 1 0 3 0) 4 1 0x2000 := .la 1 0 3 0

/-- AR 4,2 at the instruction address, at the smallest sum that overflows, its mask one. -/
def overflowing : State := at100 [0x1A, 0x42] [(2, 1), (4, 0x7FFFFFFF)] [] 0 8

/-- The clause for an overflow whose interruption stops the run. -/
theorem witness_RunStepStopsInEndingState :
    SignedAdd overflowing (.ar 4 2) 2 4 false
        ((lo32 (overflowing.gr 4)).toInt + (lo32 (overflowing.gr 2)).toInt) ∧
      overflowing.fetchInstr = .instruction [0x1A, 0x42] ∧ decode [0x1A, 0x42] = .ok (.ar 4 2) ∧
      signedCode (width false) ((lo32 (overflowing.gr 4)).toInt + (lo32 (overflowing.gr 2)).toInt) = 3 ∧
      overflowing.psw.foMask = true :=
  ⟨.ar 4 2, by decide, rfl, by decide, rfl⟩

/-- R222's outcome of an overflow, and of an exception that suppresses. -/
theorem test_run_stops_in_ending_state :
    (∃ u, runStep overflowing = .fault (.programInterruption .fixedPointOverflow u) ∧
      u.gr 4 = 0x80000000 ∧ u.psw.cc = 3 ∧ u.psw.ia = 0x102 ∧ u.mem = overflowing.mem) ∧
    runStep ((wit 0 0).setIa 0x101) = .fault (.programInterruption .specification ((wit 0 0).setIa 0x101)) :=
  ⟨⟨_, rfl, by decide⟩, rfl⟩

/-- A run of one instruction. -/
theorem witness_FinalStateTookNoInterruption : ∃ t, runTo 0x102 1 (wit 0 0) = .final t := ⟨_, rfl⟩

/-- The program AR 1,2 from 100 to its end. -/
theorem witness_LaunchedRunKeepsPremises :
    (wit 0 0).meetsPremises ⟨[0x1A, 0x12], 0x102, 1, true, id⟩ ∧ ∃ t, runTo 0x102 1 (wit 0 0) = .final t :=
  ⟨⟨⟨rfl, rfl, by decide, rfl, Or.inl rfl, rfl, by decide⟩, by decide, by decide, rfl⟩, _, rfl⟩

end Sys2Proof.Tests
end

namespace Sys2Proof.Proofs

open Sys2Proof.Machine Sys2Proof.Claims

/-! ## Operands fetched from storage (`20_memory.md` R41, R43, R47) -/

/-- The bytes of an operand, each at the address `byteAt` reads. -/
theorem bytesAt_eq_map_byteAt (s : State) (a : Dword) (n : Nat) : s.bytesAt a n = (List.range n).map (byteAt s a) := by
  refine List.ext_getElem (by simp [State.length_bytesAt]) fun k hk _ => ?_
  simp [State.getElem_bytesAt, byteAt]

theorem byteAt_add (s : State) (a : Dword) (j k : Nat) : byteAt s (a + BitVec.ofNat 64 j) k = byteAt s a (j + k) := by
  rw [byteAt, byteAt, BitVec.add_assoc, ← BitVec.ofNat_add]

/-- A byte put after others is the next less significant digit to the base 256. -/
theorem toNat_append_byte {w : Nat} (v : BitVec w) (b : Byte) : (v ++ b).toNat = v.toNat * 256 + b.toNat := by
  rw [BitVec.toNat_append, ← Nat.shiftLeft_add_eq_or_of_lt b.isLt, Nat.shiftLeft_eq]

theorem ofNat_bigEndian_word (s : State) (a : Dword) : BitVec.ofNat 32 (bigEndian (s.bytesAt a 4)) = wordAt s a := by
  have h : bigEndian (s.bytesAt a 4) = (wordAt s a).toNat := by
    simp [bytesAt_eq_map_byteAt, List.range_succ, bigEndian, wordAt, toNat_append_byte]
  rw [h, BitVec.ofNat_toNat, BitVec.setWidth_eq]

/-- A doubleword is two words, the second four bytes on. -/
theorem ofNat_bigEndian_dword (s : State) (a : Dword) : BitVec.ofNat 64 (bigEndian (s.bytesAt a 8)) = dwordAt s a := by
  have h : bigEndian (s.bytesAt a 8) = (dwordAt s a).toNat := by
    have hb : ∀ k, byteAt s (a + 4#64) k = byteAt s a (4 + k) := byteAt_add s a 4
    rw [dwordAt, BitVec.toNat_append, ← Nat.shiftLeft_add_eq_or_of_lt (wordAt s (a + 4)).isLt, Nat.shiftLeft_eq]
    simp only [bigEndian, bytesAt_eq_map_byteAt, List.range_succ, List.range_zero, List.nil_append, List.cons_append,
      List.map_cons, List.map_nil, List.foldl_cons, List.foldl_nil, zero_mul, zero_add, add_zero, Nat.reduceAdd,
      Nat.reducePow, wordAt, toNat_append_byte, BitVec.ofNat_eq_ofNat, hb]
    omega
  rw [h, BitVec.ofNat_toNat, BitVec.setWidth_eq]

theorem withWord_of_admitted {s : State} {a : Dword} (h : Admitted s .fetch a 4) (ilen : Nat) (k : Word → Result) :
    s.withWord ilen a k = k (wordAt s a) := by
  rw [State.withWord, State.withOperand_of_admitted (State.firstDenied_eq_none.mpr h), ofNat_bigEndian_word]

theorem withDword_of_admitted {s : State} {a : Dword} (h : Admitted s .fetch a 8) (ilen : Nat) (k : Dword → Result) :
    s.withDword ilen a k = k (dwordAt s a) := by
  rw [State.withDword, State.withOperand_of_admitted (State.firstDenied_eq_none.mpr h), ofNat_bigEndian_dword]

/-! ## The law `addLogical` (`40_add.md` R101) -/

theorem toNat_addLogical_fst {n : Nat} (a b : BitVec n) (cin : Bool) :
    (addLogical a b cin).1.toNat = (a.toNat + b.toNat + cin.toNat) % 2 ^ n :=
  BitVec.toNat_ofNat _ _

/-- The law's code is that of the exact sum: the truncated sum is zero exactly when the exact one is zero modulo `2 ^ n`. -/
theorem addLogical_snd {n : Nat} (a b : BitVec n) (cin : Bool) :
    (addLogical a b cin).2 = logicalCode n (a.toNat + b.toNat + cin.toNat) := by
  have hz : ∀ t : Nat, BitVec.ofNat n t = 0 ↔ t % 2 ^ n = 0 := fun t => by simp [← BitVec.toNat_inj]
  simp only [addLogical, logicalCode, hz]
  split <;> split <;> rfl

/-- Code 0 is no carry out and a zero result, so a zero exact sum. -/
theorem logicalCode_eq_zero_iff (n t : Nat) : logicalCode n t = 0 ↔ t = 0 := by
  unfold logicalCode
  by_cases hc : 2 ^ n ≤ t
  · have ht : t ≠ 0 := by have := Nat.two_pow_pos n; omega
    rw [if_pos hc]
    split <;> exact iff_of_false (by decide) ht
  · rw [if_neg hc, Nat.mod_eq_of_lt (Nat.lt_of_not_le hc)]
    split
    · exact iff_of_true rfl ‹t = 0›
    · exact iff_of_false (by decide) ‹t ≠ 0›

theorem addLogical_snd_eq_zero_iff {n : Nat} (a b : BitVec n) : (addLogical a b false).2 = 0 ↔ a = 0 ∧ b = 0 := by
  rw [addLogical_snd, logicalCode_eq_zero_iff]
  simp [← BitVec.toNat_inj]

theorem addLogical_carry_snd_ne_zero {n : Nat} (a b : BitVec n) : (addLogical a b true).2 ≠ 0 := by
  rw [addLogical_snd, ne_eq, logicalCode_eq_zero_iff]
  simp

/-- The largest sum: `2 ^ n` carried out, and `2 ^ n - 1` left, which is not zero as `n` is positive. -/
theorem addLogical_allOnes {n : Nat} (hn : 0 < n) :
    addLogical (BitVec.allOnes n) (BitVec.allOnes n) true = (BitVec.allOnes n, 3) := by
  have hp : 1 < 2 ^ n := Nat.one_lt_two_pow hn.ne'
  have ht : (BitVec.allOnes n).toNat + (BitVec.allOnes n).toNat + true.toNat = (2 ^ n - 1) + 2 ^ n := by
    simp only [BitVec.toNat_allOnes, Bool.toNat_true]; omega
  have hm : ((2 ^ n - 1) + 2 ^ n) % 2 ^ n = 2 ^ n - 1 := by
    rw [Nat.add_mod_right, Nat.mod_eq_of_lt (by omega)]
  refine Prod.ext (BitVec.eq_of_toNat_eq ?_) ?_
  · rw [toNat_addLogical_fst, ht, hm, BitVec.toNat_allOnes]
  · rw [addLogical_snd, ht, logicalCode, hm, if_pos (by omega), if_neg (by omega)]
    rfl

/-! ## The instructions that add by this law -/

/-- In state `s` the instruction `i` puts the result and the code of `addLogical` in `r1` and the PSW, for operands of 64
(`wide`) or 32 bits whose exact sum is `x`, and the carry in `cin`. -/
def AddsLogically (s : State) (i : Instr) (ilen : Nat) (r1 : Reg) (wide : Bool) (x : Nat) (cin : Bool) : Prop :=
  if wide then ∃ a b : Dword, a.toNat + b.toNat = x ∧ exec i s = s.putCc64 ilen r1 (addLogical a b cin)
  else ∃ a b : Word, a.toNat + b.toNat = x ∧ exec i s = s.putCc32 ilen r1 (addLogical a b cin)

theorem toNat_setWidth_word (w : Word) : (w.setWidth 64).toNat = w.toNat :=
  BitVec.toNat_setWidth_of_le (by decide)

/-- ADD LOGICAL has no carry in (`42_add_logical.md` R120 to R126). -/
theorem addsLogically_of_logicalAdd {s : State} {i : Instr} {ilen : Nat} {r1 : Reg} {wide : Bool} {x : Nat}
    (h : LogicalAdd s i ilen r1 wide x) : AddsLogically s i ilen r1 wide x false := by
  cases h with
  | alr r1 r2 => exact ⟨_, _, rfl, rfl⟩
  | algr r1 r2 => exact ⟨_, _, rfl, rfl⟩
  | algfr r1 r2 => exact ⟨_, _, congrArg _ (toNat_setWidth_word _), rfl⟩
  | al r1 x2 b2 d2 ha => exact ⟨_, _, rfl, by simp only [exec, execAl, withWord_of_admitted ha]⟩
  | aly r1 x2 b2 d2 hf ha =>
    exact ⟨_, _, rfl, by simp only [exec, execAly, State.withFacility_installed _ _ _ hf, withWord_of_admitted ha]⟩
  | alg r1 x2 b2 d2 ha => exact ⟨_, _, rfl, by simp only [exec, execAlg, withDword_of_admitted ha]⟩
  | algf r1 x2 b2 d2 ha =>
    exact ⟨_, _, congrArg _ (toNat_setWidth_word _), by simp only [exec, execAlgf, withWord_of_admitted ha]⟩

/-- ADD LOGICAL WITH CARRY has the carry of the PSW (`43_add_logical_with_carry.md` R130 to R134). -/
theorem addsLogically_of_carryAdd {s : State} {i : Instr} {ilen : Nat} {r1 : Reg} {wide : Bool} {x : Nat}
    (h : CarryAdd s i ilen r1 wide x) : AddsLogically s i ilen r1 wide x s.psw.carry := by
  cases h with
  | alcr r1 r2 => exact ⟨_, _, rfl, rfl⟩
  | alcgr r1 r2 => exact ⟨_, _, rfl, rfl⟩
  | alc r1 x2 b2 d2 ha => exact ⟨_, _, rfl, by simp only [exec, execAlc, withWord_of_admitted ha]⟩
  | alcg r1 x2 b2 d2 ha => exact ⟨_, _, rfl, by simp only [exec, execAlcg, withDword_of_admitted ha]⟩

/-- Whatever the code, the instruction completes and takes no interruption. -/
theorem AddsLogically.exec_next {s : State} {i : Instr} {ilen : Nat} {r1 : Reg} {wide : Bool} {x : Nat} {cin : Bool}
    (h : AddsLogically s i ilen r1 wide x cin) : ∃ t, exec i s = .next t ∧ t.interruptions = s.interruptions := by
  cases wide with
  | true => obtain ⟨a, b, -, he⟩ := h; exact ⟨_, he.trans (State.putCc64_eq ..), by simp⟩
  | false => obtain ⟨a, b, -, he⟩ := h; exact ⟨_, he.trans (State.putCc32_eq ..), by simp⟩

/-- Settles O2: the law from the code of the exact sum, and each instruction from the law it adds by. -/
theorem unsignedAdditionLaw : Obligations.UnsignedAdditionLaw := by
  refine ⟨fun n hn a b cin => ⟨toNat_addLogical_fst a b cin, addLogical_snd a b cin, addLogical_snd_eq_zero_iff a b,
    addLogical_carry_snd_ne_zero a b, addLogical_allOnes hn⟩, fun s i ilen r1 wide x h => ?_⟩
  rcases h with hl | hc
  · exact (addsLogically_of_logicalAdd hl).exec_next
  · exact (addsLogically_of_carryAdd hc).exec_next

end Sys2Proof.Proofs

namespace Sys2Proof.Proofs

open Sys2Proof.Machine Sys2Proof.Claims

/-! ## ADD LOGICAL WITH CARRY completes (`43_add_logical_with_carry.md` R130) -/

/-- `10_state.md` R14: bits 18 and 19 of the PSW are the condition code, so its leftmost bit is bit 18. -/
theorem getMsbD_toBits_carry (p : Psw) : p.toBits.getMsbD 18 = p.carry := by
  simp only [Psw.toBits, BitVec.getMsbD_append]
  rfl

/-- The condition code is 2 or 3 exactly when its leftmost bit is one. -/
theorem carryIn_eq_toNat_carry (s : State) : carryIn s = s.psw.carry.toNat := by
  rw [carryIn, Psw.carry, BitVec.msb_eq_decide, Bool.toNat, Bool.cond_decide]

/-- A 64-bit result and its code put in place, and nothing else. -/
theorem writesGr_setGr_setCc_advance (s : State) (r1 : Reg) (v : Dword) (c : Cc) (ilen : Nat) :
    WritesGr s (((s.setGr r1 v).setCc c).advance ilen) r1 v c ilen :=
  ⟨State.gr_setGr_self .., fun _ hr => State.gr_setGr_of_ne s v hr.symm, fun _ => rfl, fun _ => rfl, rfl,
    rfl, rfl, rfl, rfl⟩

/-- A 32-bit result leaves bits 0-31 of its register (`10_state.md` R11): it is a write of the whole register. -/
theorem writesGr_setGrLo_setCc_advance (s : State) (r1 : Reg) (w : Word) (c : Cc) (ilen : Nat) :
    WritesGr s (((s.setGrLo r1 w).setCc c).advance ilen) r1 (hi32 (s.gr r1) ++ w) c ilen :=
  writesGr_setGr_setCc_advance s r1 (hi32 (s.gr r1) ++ w) c ilen

theorem addLogical_fst {n : Nat} (a b : BitVec n) (cin : Bool) :
    (addLogical a b cin).1 = BitVec.ofInt n (a.toNat + b.toNat + cin.toNat : Nat) :=
  (BitVec.ofInt_natCast ..).symm

/-- An instruction that adds by the law stores the truncated exact sum and its code, and changes nothing else. -/
theorem AddsLogically.writesGr {s : State} {i : Instr} {ilen : Nat} {r1 : Reg} {wide : Bool} {x : Nat} {cin : Bool}
    (h : AddsLogically s i ilen r1 wide x cin) :
    ∃ t, exec i s = .next t ∧
      WritesGr s t r1 (result s r1 wide (x + cin.toNat : Nat)) (logicalCode (width wide) (x + cin.toNat)) ilen := by
  cases wide with
  | true =>
    obtain ⟨a, b, rfl, he⟩ := h
    refine ⟨_, he.trans (State.putCc64_eq ..), ?_⟩
    rw [addLogical_fst, addLogical_snd]
    exact writesGr_setGr_setCc_advance ..
  | false =>
    obtain ⟨a, b, rfl, he⟩ := h
    refine ⟨_, he.trans (State.putCc32_eq ..), ?_⟩
    rw [addLogical_fst, addLogical_snd]
    exact writesGr_setGrLo_setCc_advance ..

/-- Settles O8: the carry in is that of the PSW, and each form adds it by the law of R101. -/
theorem addLogicalWithCarryCompletes : Obligations.AddLogicalWithCarryCompletes := by
  intro s
  constructor
  · rw [carryIn_eq_toNat_carry, getMsbD_toBits_carry]
    exact Bool.cond_eq_ite ..
  · intro i ilen r1 wide x h
    rw [carryIn_eq_toNat_carry, ← Nat.cast_add]
    exact (addsLogically_of_carryAdd h).writesGr

end Sys2Proof.Proofs

namespace Sys2Proof.Proofs

open Sys2Proof.Machine

/-! ## The decoder on an encoded RRE word (`30_encoding.md` R73, R75, R86) -/

/-- A word whose first byte tells four bytes is put together again from its bytes and decoded as a word. -/
theorem decode_wordBytes {w : Word} (hlen : instrLength (bitField w 0 8) = 4) :
    decode (wordBytes w) = decodeWord w := by
  simp [wordBytes, decode, hlen, wordBytes_append]

/-- An operation code that begins with B9 sends its word to the RRE decoder. -/
theorem decode_packRRE_of_b9 {op : BitVec 16} (hop : bitField op 0 8 = 0xB9) (r1 r2 : Reg) :
    decode (wordBytes (packRRE op r1 r2)) = decodeRRE (packRRE op r1 r2) := by
  have hfirst : bitField (packRRE op r1 r2) 0 8 = 0xB9 := (bitField_packRRE_first ..).trans hop
  have hlen : instrLength (bitField (packRRE op r1 r2) 0 8) = 4 := by rw [hfirst]; decide
  rw [decode_wordBytes hlen, decodeWord, if_pos (Or.inl hfirst)]

/-! ## CIPHER MESSAGE (`45_cipher_message.md` R150) -/

theorem exec_km (r1 r2 : Reg) (s : State) : exec (.km r1 r2) s = .refused .cipherMessageLost := rfl

theorem exec_kmc (r1 r2 : Reg) (s : State) : exec (.kmc r1 r2) s = .refused .cipherMessageWithChainingLost := rfl

theorem decode_encode_km (r1 r2 : Reg) : decode (encode (.km r1 r2)) = .ok (.km r1 r2) := by
  rw [encode, decode_packRRE_of_b9 (by decide)]
  simp [decodeRRE]

theorem decode_encode_kmc (r1 r2 : Reg) : decode (encode (.kmc r1 r2)) = .ok (.kmc r1 r2) := by
  rw [encode, decode_packRRE_of_b9 (by decide)]
  simp [decodeRRE]

/-- Settles O27: both are refused whatever the state, and both encodings are RRE words that decode to them. -/
theorem cipherMessageRefused : Obligations.CipherMessageRefused :=
  fun s r1 r2 => ⟨exec_km r1 r2 s, exec_kmc r1 r2 s, decode_encode_km r1 r2, decode_encode_kmc r1 r2⟩

end Sys2Proof.Proofs

namespace Sys2Proof.Proofs

open Sys2Proof.Machine Sys2Proof.Claims

/-! ## The law `compareSigned` (`46_compare.md` R155) -/

theorem compareSigned_eq_compareCode {n : Nat} (a b : BitVec n) :
    compareSigned a b = compareCode a.toInt b.toInt := rfl

/-- Each code says how the integers stand to one another, and no way of standing is left for code 3. -/
theorem compareCode_iff (x y : Int) :
    (compareCode x y = 0 ↔ x = y) ∧ (compareCode x y = 1 ↔ x < y) ∧ (compareCode x y = 2 ↔ y < x) ∧
      compareCode x y ≠ 3 := by
  unfold compareCode
  rcases lt_trichotomy x y with hlt | heq | hgt
  · simp [hlt, hlt.ne, hlt.not_gt]
  · simp [heq]
  · simp [hgt, hgt.ne', hgt.not_gt]

/-- A sign-extended word is compared as the integer that the word is (R158, R162). -/
theorem compareSigned_signExtend_word (a : Dword) (w : Word) :
    compareSigned a (w.signExtend 64) = compareCode a.toInt w.toInt := by
  rw [compareSigned_eq_compareCode, BitVec.toInt_signExtend_of_le (by decide)]

/-! ## The COMPARE instructions (`46_compare.md` R156 to R162) -/

theorem exec_of_compared {s : State} {i : Instr} {ilen : Nat} {x y : Int} (h : Compared s i ilen x y) :
    exec i s = .next ((s.setCc (compareCode x y)).advance ilen) := by
  cases h with
  | cr r1 r2 => rfl
  | cgr r1 r2 => rfl
  | cgfr r1 r2 => rw [← compareSigned_signExtend_word]; rfl
  | c r1 x2 b2 d2 ha =>
    simp only [exec, execC, withWord_of_admitted ha, State.complete_eq, compareSigned_eq_compareCode]
  | cy r1 x2 b2 d2 hf ha =>
    simp only [exec, execCy, State.withFacility_installed _ _ _ hf, withWord_of_admitted ha, State.complete_eq,
      compareSigned_eq_compareCode]
  | cg r1 x2 b2 d2 ha =>
    simp only [exec, execCg, withDword_of_admitted ha, State.complete_eq, compareSigned_eq_compareCode]
  | cgf r1 x2 b2 d2 ha =>
    simp only [exec, execCgf, withWord_of_admitted ha, State.complete_eq, compareSigned_signExtend_word]

/-- A condition code put in place, and nothing else. -/
theorem writesCc_setCc_advance (s : State) (c : Cc) (ilen : Nat) : WritesCc s ((s.setCc c).advance ilen) c ilen :=
  ⟨fun _ => rfl, fun _ => rfl, fun _ => rfl, rfl, rfl, rfl, rfl, rfl⟩

/-- Settles O3: the law is the code of the two integers, and every COMPARE puts that code in place and no more. -/
theorem comparisonLaw : Obligations.ComparisonLaw :=
  ⟨fun _ a b => compareCode_iff a.toInt b.toInt,
    fun s _ ilen x y h => ⟨_, exec_of_compared h, writesCc_setCc_advance s (compareCode x y) ilen⟩⟩

/-! ## COMPARE AND FORM CODEWORD (`46_compare.md` R165) -/

theorem exec_cfc (b2 : Reg) (d2 : Nat) (s : State) : exec (.cfc b2 d2) s = .refused .compareAndFormCodewordLost := rfl

/-- Settles O28: the model gives the instruction no meaning, whatever the state and the operand address. -/
theorem compareAndFormCodewordRefused : Obligations.CompareAndFormCodewordRefused :=
  fun s b2 d2 => exec_cfc b2 d2 s

end Sys2Proof.Proofs

namespace Sys2Proof.Proofs

open Sys2Proof.Machine Sys2Proof.Claims

/-! ## LOAD ADDRESS: placing an address in a register (`49_load_access_and_address.md` R195) -/

/-- The low `n` bits of an address under `z` zeros are its remainder modulo `2 ^ n`. -/
theorem zero_append_extractLsb' (z n : Nat) (a : Dword) :
    (0 : BitVec z) ++ a.extractLsb' 0 n = BitVec.ofNat (z + n) (a.toNat % 2 ^ n) := by
  have hlt : a.toNat % 2 ^ n < 2 ^ (z + n) :=
    (Nat.mod_lt _ (Nat.two_pow_pos n)).trans_le (Nat.pow_le_pow_right Nat.two_pos (Nat.le_add_left n z))
  refine BitVec.eq_of_toNat_eq ?_
  rw [BitVec.toNat_ofNat, Nat.mod_eq_of_lt hlt]
  simp [BitVec.toNat_append]

/-- The model places an address by one write of the whole register. -/
theorem placeAddress_eq_setGr_placed (s : State) (r1 : Reg) (ea : Dword) :
    s.placeAddress r1 ea = s.setGr r1 (placed s r1 ea) := by
  cases hm : s.psw.amode with
  | bits64 => simp only [State.placeAddress, placed, hm]
  | bits31 => simp only [State.placeAddress, placed, hm, State.setGrLo, zero_append_extractLsb' 1 31]
  | bits24 => simp only [State.placeAddress, placed, hm, State.setGrLo, zero_append_extractLsb' 8 24]

theorem exec_of_addressLoad {s : State} {i : Instr} {ilen : Nat} {r1 : Reg} {ea : Dword}
    (h : AddressLoad s i ilen r1 ea) : exec i s = .next ((s.setGr r1 (placed s r1 ea)).advance ilen) := by
  cases h with
  | la r1 x2 b2 d2 => simp only [exec, execLa, placeAddress_eq_setGr_placed, State.complete_eq]
  | lay r1 x2 b2 d2 hf =>
    simp only [exec, execLay, State.withFacility_installed _ _ _ hf, placeAddress_eq_setGr_placed, State.complete_eq]

/-- The address placed in its register, and nothing else: the condition code is put back as it was. -/
theorem writesGr_of_addressLoad {s : State} {i : Instr} {ilen : Nat} {r1 : Reg} {ea : Dword}
    (h : AddressLoad s i ilen r1 ea) : ∃ t, exec i s = .next t ∧ WritesGr s t r1 (placed s r1 ea) s.psw.cc ilen :=
  ⟨_, exec_of_addressLoad h, writesGr_setGr_setCc_advance s r1 (placed s r1 ea) s.psw.cc ilen⟩

/-! ## Addresses reduced to the addressing mode (`20_memory.md` R50) -/

theorem toNat_wrap_bits31 (a : Dword) : (AddressingMode.bits31.wrap a).toNat = a.toNat % 2 ^ 31 := by
  rw [AddressingMode.wrap, BitVec.toNat_setWidth_of_le (by decide), BitVec.toNat_setWidth]

theorem toNat_wrap_bits24 (a : Dword) : (AddressingMode.bits24.wrap a).toNat = a.toNat % 2 ^ 24 := by
  rw [AddressingMode.wrap, BitVec.toNat_setWidth_of_le (by decide), BitVec.toNat_setWidth]

theorem lo32_eq_ofNat (v : Dword) : lo32 v = BitVec.ofNat 32 v.toNat := by
  rw [lo32, BitVec.extractLsb', Nat.shiftRight_zero]

/-- Placing keeps no more of an address than the addressing mode does. -/
theorem placed_wrap (s : State) (r : Reg) (a : Dword) : placed s r (s.wrap a) = placed s r a := by
  cases hm : s.psw.amode with
  | bits64 => simp only [placed, State.wrap, hm, AddressingMode.wrap]
  | bits31 => simp only [placed, State.wrap, hm, toNat_wrap_bits31, Nat.mod_mod]
  | bits24 => simp only [placed, State.wrap, hm, toNat_wrap_bits24, Nat.mod_mod]

/-- R195: in the 24-bit and 31-bit modes a reduced address has the zeros already, and is placed by its low word. -/
theorem placed_wrap_eq_append_lo32 {s : State} (hm : s.psw.amode ≠ .bits64) (r : Reg) (a : Dword) :
    placed s r (s.wrap a) = hi32 (s.gr r) ++ lo32 (s.wrap a) := by
  rw [placed_wrap, lo32_eq_ofNat]
  cases h : s.psw.amode with
  | bits64 => exact absurd h hm
  | bits31 => simp only [placed, State.wrap, h, toNat_wrap_bits31]
  | bits24 => simp only [placed, State.wrap, h, toNat_wrap_bits24]

theorem addressLoad_wrapped {s : State} {i : Instr} {ilen : Nat} {r1 : Reg} {ea : Dword}
    (h : AddressLoad s i ilen r1 ea) : ∃ a, ea = s.wrap a := by
  cases h with
  | la r1 x2 b2 d2 => exact ⟨_, rfl⟩
  | lay r1 x2 b2 d2 hf => exact ⟨_, rfl⟩

/-- Settles O16: both forms place the address they compute, which is reduced to the addressing mode. -/
theorem loadAddressCompletes : Obligations.LoadAddressCompletes := by
  intro s i ilen r1 ea h
  obtain ⟨t, hexec, hwrites⟩ := writesGr_of_addressLoad h
  obtain ⟨a, rfl⟩ := addressLoad_wrapped h
  exact ⟨t, hexec, hwrites, fun hm => placed_wrap_eq_append_lo32 hm r1 a⟩

/-! ## LOAD ADDRESS as an increment (`49_load_access_and_address.md` R198) -/

theorem shortDisp_eq_longDisp (d : Nat) : shortDisp d = longDisp d :=
  (BitVec.ofInt_natCast 64 d).symm

/-- With one of the index and the base zero the other alone counts, and register 0 counts as none (`10_state.md` R27). -/
theorem eaX_single_register (s : State) (d : Dword) {r x2 b2 : Reg} (h : (x2 = 0 ∧ b2 = r) ∨ (x2 = r ∧ b2 = 0)) :
    s.eaX d x2 b2 = s.wrap (d + if r = 0 then 0 else s.gr r) := by
  rcases h with ⟨rfl, rfl⟩ | ⟨rfl, rfl⟩
  · rw [State.eaX, if_pos rfl, add_zero]
  · rw [State.eaX, if_pos rfl, add_zero]

/-- An address sum is the exact sum of the register and the signed displacement, truncated. -/
theorem longDisp_add (d : Int) (g : Dword) : longDisp d + g = BitVec.ofInt 64 (g.toNat + d) := by
  rw [longDisp, BitVec.ofInt_add, BitVec.ofInt_natCast, BitVec.ofNat_toNat, BitVec.setWidth_eq, BitVec.add_comm]

/-- Truncating an exact sum to 64 bits does not change its remainder modulo a smaller power of two. -/
theorem ofNat_toNat_ofInt_mod (x : Int) {n : Nat} (hn : n ≤ 64) :
    BitVec.ofNat 32 ((BitVec.ofInt 64 x).toNat % 2 ^ n) = BitVec.ofInt 32 (x % 2 ^ n) := by
  have hnonneg : 0 ≤ x % ((2 ^ 64 : Nat) : Int) := Int.emod_nonneg _ (by decide)
  have hdvd : ((2 ^ n : Nat) : Int) ∣ ((2 ^ 64 : Nat) : Int) := Int.natCast_dvd_natCast.mpr (Nat.pow_dvd_pow 2 hn)
  rw [← BitVec.ofInt_natCast, Int.natCast_mod, BitVec.toNat_ofInt, Int.toNat_of_nonneg hnonneg,
    Int.emod_emod_of_dvd x hdvd, Nat.cast_pow, Nat.cast_ofNat]

/-- The register plus the displacement, placed. -/
theorem placed_longDisp_add (s : State) (r : Reg) (d : Int) :
    placed s r (longDisp d + s.gr r) = incremented s r d := by
  rw [longDisp_add]
  cases hm : s.psw.amode with
  | bits64 => simp only [placed, incremented, hm]
  | bits31 => simp only [placed, incremented, hm, ofNat_toNat_ofInt_mod (n := 31) _ (by decide)]
  | bits24 => simp only [placed, incremented, hm, ofNat_toNat_ofInt_mod (n := 24) _ (by decide)]

/-- Either form, its target register being its only index or base. -/
theorem increments_of_addressLoad {s : State} {i : Instr} {ilen : Nat} {r x2 b2 : Reg} {d : Int}
    (hreg : (x2 = 0 ∧ b2 = r) ∨ (x2 = r ∧ b2 = 0)) (h : AddressLoad s i ilen r (s.eaX (longDisp d) x2 b2)) :
    ∃ t, exec i s = .next t ∧
      WritesGr s t r (if r = 0 then placed s 0 (s.wrap (longDisp d)) else incremented s r d) s.psw.cc ilen := by
  have hvalue : placed s r (s.eaX (longDisp d) x2 b2) =
      if r = 0 then placed s 0 (s.wrap (longDisp d)) else incremented s r d := by
    rw [eaX_single_register s _ hreg]
    split
    · next h0 => rw [h0, add_zero]
    · rw [placed_wrap, placed_longDisp_add]
  rw [← hvalue]
  exact writesGr_of_addressLoad h

/-- Settles O18: a 12-bit displacement is a signed one that is not negative, so LA and LAY increment alike. -/
theorem loadAddressIncrements : Obligations.LoadAddressIncrements := by
  intro s r
  constructor
  · intro d _ x2 b2 hreg
    rw [shortDisp_eq_longDisp]
    exact increments_of_addressLoad hreg (shortDisp_eq_longDisp d ▸ .la r x2 b2 d)
  · intro hf d _ x2 b2 hreg
    exact increments_of_addressLoad hreg (.lay r x2 b2 d hf)

end Sys2Proof.Proofs

namespace Sys2Proof.Proofs

/-! ## Every encoding is decoded (`30_encoding.md` sections 3 to 5)

One lemma per format: the packed word, cut into bytes, reaches the decoder of its format. The fields are then read back by
the lemmas `bitField_pack…`, and a displacement or immediate survives its field because it fits it. -/

theorem decode_halfBytes {w : Half} (hlen : instrLength (bitField w 0 8) = 2) : decode (halfBytes w) = decodeRR w := by
  simp [halfBytes, decode, hlen, halfBytes_append]

theorem decode_tripleBytes {w : BitVec 48} (hlen : instrLength (bitField w 0 8) = 6) :
    decode (tripleBytes w) = decodeTriple w := by
  simp [tripleBytes, decode, hlen, tripleBytes_append]

theorem decode_packRR {op : Byte} (hlen : instrLength op = 2) (r1 r2 : Reg) :
    decode (halfBytes (packRR op r1 r2)) = decodeRR (packRR op r1 r2) :=
  decode_halfBytes (by rwa [bitField_packRR_op])

/-- A word whose first byte is neither B9, B2 nor A7 has an 8-bit operation code (R86). -/
theorem decode_wordBytes_of_short {w : Word} {op : Byte} (hop : bitField w 0 8 = op) (hlen : instrLength op = 4)
    (hshort : op ≠ 0xB9 ∧ op ≠ 0xB2 ∧ op ≠ 0xA7) : decode (wordBytes w) = decodeRX w := by
  obtain ⟨h1, h2, h3⟩ := hshort
  rw [decode_wordBytes (by rwa [hop]), decodeWord, hop, if_neg (not_or.mpr ⟨h1, h2⟩), if_neg h3]

theorem decode_packRX {op : Byte} (hlen : instrLength op = 4) (hshort : op ≠ 0xB9 ∧ op ≠ 0xB2 ∧ op ≠ 0xA7)
    (r1 x2 b2 : Reg) (d2 : Nat) : decode (wordBytes (packRX op r1 x2 b2 d2)) = decodeRX (packRX op r1 x2 b2 d2) :=
  decode_wordBytes_of_short (bitField_packRX_op ..) hlen hshort

theorem decode_packSI (i2 : Byte) (b1 : Reg) (d1 : Nat) :
    decode (wordBytes (packSI 0x94 i2 b1 d1)) = decodeRX (packSI 0x94 i2 b1 d1) :=
  decode_wordBytes_of_short (bitField_packSI_op ..) (by decide) (by decide)

/-- Words that begin with B2: IPM and CFC. -/
theorem decode_wordBytes_of_b2 {w : Word} (hop : bitField w 0 8 = 0xB2) : decode (wordBytes w) = decodeRRE w := by
  rw [decode_wordBytes (by rw [hop]; decide), decodeWord, if_pos (Or.inr hop)]

theorem decode_packRI (r1 : Reg) (op2 : BitVec 4) (i2 : Int) :
    decode (wordBytes (packRI 0xA7 r1 op2 i2)) = decodeRI (packRI 0xA7 r1 op2 i2) := by
  have hop : bitField (packRI 0xA7 r1 op2 i2) 0 8 = 0xA7 := bitField_packRI_op ..
  rw [decode_wordBytes (by rw [hop]; decide), decodeWord, hop, if_neg (by decide), if_pos rfl]

theorem decode_packRXY (r1 x2 b2 : Reg) (d2 : Int) (op2 : Byte) :
    decode (tripleBytes (packRXY 0xE3 r1 x2 b2 d2 op2)) = decodeRXY (packRXY 0xE3 r1 x2 b2 d2 op2) := by
  have hop : bitField (packRXY 0xE3 r1 x2 b2 d2 op2) 0 8 = 0xE3 := bitField_packRXY_op ..
  rw [decode_tripleBytes (by rw [hop]; decide), decodeTriple, if_pos hop]

theorem decode_packRSY (r1 r3 b2 : Reg) (d2 : Int) (op2 : Byte) :
    decode (tripleBytes (packRXY 0xEB r1 r3 b2 d2 op2)) = decodeRSY (packRXY 0xEB r1 r3 b2 d2 op2) := by
  have hop : bitField (packRXY 0xEB r1 r3 b2 d2 op2) 0 8 = 0xEB := bitField_packRXY_op ..
  rw [decode_tripleBytes (by rw [hop]; decide), decodeTriple, if_neg (by rw [hop]; decide), if_pos hop]

/-- Settles O35: format by format, the operation code selects its row and the fields are read back. -/
theorem decodeEncodeAgree : Obligations.DecodeEncodeAgree := by
  intro i hw
  cases i with
  | ar | alr | nr | cr | lr => rw [encode, decode_packRR (by decide)]; simp [decodeRR]
  | agr | agfr | algr | algfr | alcr | alcgr | ngr | km | kmc | cgr | cgfr | lgr | lgfr =>
    rw [encode, decode_packRRE_of_b9 (by decide)]; simp [decodeRRE]
  | ipm => rw [encode, decode_wordBytes_of_b2 (by simp; decide)]; simp [decodeRRE]
  | cfc =>
    rw [encode, decode_wordBytes_of_b2 (by simp; decide)]
    simp [decodeRRE, toNat_ofNat_of_fitsU12 hw, -BitVec.toNat_ofNat]
  | ahi | aghi => rw [encode, decode_packRI]; simp [decodeRI, toInt_ofInt_of_fitsS16 hw, -BitVec.toInt_ofInt]
  | a | ah | al | n | c | l | la | lae | lam =>
    rw [encode, decode_packRX (by decide) (by decide)]
    simp [decodeRX, toNat_ofNat_of_fitsU12 hw, -BitVec.toNat_ofNat]
  | ni => rw [encode, decode_packSI]; simp [decodeRX, toNat_ofNat_of_fitsU12 hw, -BitVec.toNat_ofNat]
  | ay | ag | agf | ahy | aly | alg | algf | alc | alcg | ny | ng | cy | cg | cgf | ly | lg | lgf | lay =>
    rw [encode, decode_packRXY]; simp [decodeRXY, toInt_ofInt_of_fitsS20 hw, -BitVec.toInt_ofInt]
  | lamy => rw [encode, decode_packRSY]; simp [decodeRSY, toInt_ofInt_of_fitsS20 hw, -BitVec.toInt_ofInt]

end Sys2Proof.Proofs

namespace Sys2Proof.Proofs

/-! ## Fields taken from a word and put together again (`30_encoding.md` R72) -/

/-- Neighbouring fields of a word are one field. -/
theorem bitField_append_bitField {n : Nat} (w : BitVec n) (a k l : Nat) (h : a + k + l ≤ n) :
    bitField w a k ++ bitField w (a + k) l = bitField w a (k + l) := by
  have hstart : n - a - k = (n - (a + k) - l) + l := by omega
  rw [bitField, bitField, bitField, BitVec.extractLsb'_append_extractLsb'_eq_extractLsb' hstart]
  congr 1
  omega

theorem bitField_all {n : Nat} (w : BitVec n) : bitField w 0 n = w := by
  simp [bitField]

/-- A field of the left part. -/
theorem bitField_append_left {n m : Nat} (x : BitVec n) (y : BitVec m) {a k : Nat} (h : a + k ≤ n) :
    bitField (x ++ y) a k = bitField x a k := by
  ext i hi
  simp only [bitField, BitVec.getElem_extractLsb', BitVec.getLsbD_append]
  rw [if_neg (by omega)]
  congr 1
  omega

/-- The right part as a field. -/
theorem bitField_append_right {n m : Nat} (x : BitVec n) (y : BitVec m) {a : Nat} (h : a = n) :
    bitField (x ++ y) a m = y := by
  subst h
  ext i hi
  simp only [bitField, BitVec.getElem_extractLsb', BitVec.getLsbD_append]
  rw [if_pos (by omega), ← BitVec.getLsbD_eq_getElem]
  congr 1
  omega

/-- A field of the right part. -/
theorem bitField_append_right_add {n m : Nat} (x : BitVec n) (y : BitVec m) {a k : Nat} (h : a + k ≤ m) :
    bitField (x ++ y) (n + a) k = bitField y a k := by
  ext i hi
  simp only [bitField, BitVec.getElem_extractLsb', BitVec.getLsbD_append]
  rw [if_pos (by omega)]
  congr 1
  omega

theorem packRR_of_fields {w : Half} {op : Byte} (hop : bitField w 0 8 = op) :
    packRR op (bitField w 8 4) (bitField w 12 4) = w := by
  subst hop
  rw [packRR, bitField_append_bitField w 0 8 4 (by decide), bitField_append_bitField w 0 12 4 (by decide), bitField_all]

theorem packRX_of_fields {w : Word} {op : Byte} (hop : bitField w 0 8 = op) :
    packRX op (bitField w 8 4) (bitField w 12 4) (bitField w 16 4) (bitField w 20 12).toNat = w := by
  subst hop
  rw [packRX, BitVec.ofNat_toNat, BitVec.setWidth_eq, bitField_append_bitField w 0 8 4 (by decide),
    bitField_append_bitField w 0 12 4 (by decide), bitField_append_bitField w 0 16 4 (by decide),
    bitField_append_bitField w 0 20 12 (by decide), bitField_all]

theorem packSI_of_fields {w : Word} {op : Byte} (hop : bitField w 0 8 = op) :
    packSI op (bitField w 8 8) (bitField w 16 4) (bitField w 20 12).toNat = w := by
  subst hop
  rw [packSI, BitVec.ofNat_toNat, BitVec.setWidth_eq, bitField_append_bitField w 0 8 8 (by decide),
    bitField_append_bitField w 0 16 4 (by decide), bitField_append_bitField w 0 20 12 (by decide), bitField_all]

theorem packS_of_fields {w : Word} {op : BitVec 16} (hop : bitField w 0 16 = op) :
    packS op (bitField w 16 4) (bitField w 20 12).toNat = w := by
  subst hop
  rw [packS, BitVec.ofNat_toNat, BitVec.setWidth_eq, bitField_append_bitField w 0 16 4 (by decide),
    bitField_append_bitField w 0 20 12 (by decide), bitField_all]

theorem packRI_of_fields {w : Word} {op : Byte} {op2 : BitVec 4} (hop : bitField w 0 8 = op)
    (hop2 : bitField w 12 4 = op2) : packRI op (bitField w 8 4) op2 (bitField w 16 16).toInt = w := by
  subst hop hop2
  rw [packRI, BitVec.ofInt_toInt, bitField_append_bitField w 0 8 4 (by decide),
    bitField_append_bitField w 0 12 4 (by decide), bitField_append_bitField w 0 16 16 (by decide), bitField_all]

/-- The two parts of a long displacement go back to where they were (R77, R81). -/
theorem packRXY_of_fields {w : BitVec 48} {op op2 : Byte} (hop : bitField w 0 8 = op) (hop2 : bitField w 40 8 = op2) :
    packRXY op (bitField w 8 4) (bitField w 12 4) (bitField w 16 4) (longDisplacement w) op2 = w := by
  subst hop hop2
  rw [packRXY, longDisplacement, BitVec.ofInt_toInt, bitField_append_right _ _ rfl,
    bitField_append_left _ _ (by decide), bitField_all, bitField_append_bitField w 0 8 4 (by decide),
    bitField_append_bitField w 0 12 4 (by decide), bitField_append_bitField w 0 16 4 (by decide),
    bitField_append_bitField w 0 20 12 (by decide), bitField_append_bitField w 0 32 8 (by decide),
    bitField_append_bitField w 0 40 8 (by decide), bitField_all]

/-- The bytes of an RRE word: its operation code, zeros, its two register fields (R75, R87). -/
theorem wordBytes_packRRE (op : BitVec 16) (r1 r2 : Reg) :
    wordBytes (packRRE op r1 r2) = [bitField op 0 8, bitField op 8 8, 0, r1 ++ r2] := by
  have hsecond : bitField (packRRE op r1 r2) 8 8 = bitField op 8 8 := by
    rw [packRRE, bitField_append_left (_ ++ _ ++ _) _ (by decide), bitField_append_left (_ ++ _) _ (by decide),
      bitField_append_left op _ (by decide)]
  have hthird : bitField (packRRE op r1 r2) 16 8 = 0 := by
    rw [packRRE, bitField_append_left (_ ++ _ ++ _) _ (by decide), bitField_append_left (_ ++ _) _ (by decide),
      bitField_append_right _ _ rfl]
  have hregs : bitField (packRRE op r1 r2) 24 8 = r1 ++ r2 := by
    rw [← bitField_append_bitField _ 24 4 4 (by decide), bitField_packRRE_r1, bitField_packRRE_r2]
  rw [wordBytes, bitField_packRRE_first, hsecond, hthird, hregs]

/-! ## What the decoder answers, decoder by decoder -/

theorem fitsU12_toNat (x : BitVec 12) : fitsU12 x.toNat = true :=
  decide_eq_true x.isLt

theorem fitsS16_toInt (x : BitVec 16) : fitsS16 x.toInt = true :=
  decide_eq_true ⟨BitVec.le_toInt x, Int.le_of_lt_add_one (BitVec.toInt_lt (x := x))⟩

theorem fitsS20_longDisplacement (w : BitVec 48) : fitsS20 (longDisplacement w) = true :=
  decide_eq_true ⟨BitVec.le_toInt _, Int.le_of_lt_add_one BitVec.toInt_lt⟩

/-- The RRE instructions of operation code B9xx, whose third byte is unassigned (`30_encoding.md` R87). -/
def IgnoresThirdByte : Instr → Bool
  | .agr .. | .agfr .. | .algr .. | .algfr .. | .alcr .. | .alcgr .. | .ngr .. | .km .. | .kmc .. | .cgr .. | .cgfr ..
  | .lgr .. | .lgfr .. => true
  | _ => false

/-- How the bytes of an instruction stand to the encoding of what they decode to: they are it, but for the third byte of an
RRE instruction and the third byte and the right half of the fourth of IPM. -/
inductive ReencodedAs (front : List Byte) : Instr → Prop
  | exact {i : Instr} (hthird : IgnoresThirdByte i = false) (hipm : ∀ r, i ≠ .ipm r) (henc : encode i = front) :
      ReencodedAs front i
  | rre {i : Instr} (b1 b2 b3 : Byte) (hthird : IgnoresThirdByte i = true) (hfront : front = [0xB9, b1, b2, b3])
      (henc : encode i = [0xB9, b1, 0, b3]) : ReencodedAs front i
  | ipm (r1 : Reg) (b2 b3 : Byte) (hfront : front = [0xB2, 0x22, b2, b3])
      (henc : encode (.ipm r1) = [0xB2, 0x22, 0, bitField b3 0 4 ++ (0 : BitVec 4)]) : ReencodedAs front (.ipm r1)

/-- The bytes `front` are all of the instruction `i`, which is well formed. -/
structure DecodesAs (front : List Byte) (i : Instr) : Prop where
  wellFormed : i.wellFormed = true
  length_eq : front.length = i.length
  reencoded : ReencodedAs front i

/-- One row of a decoder: its operation code is the word's, or the decoder goes on with the rows after it. -/
theorem decoder_row {c : Prop} [Decidable c] {j i : Instr} {rest : Except DecodeError Instr}
    (h : (if c then .ok j else rest) = .ok i) : (c ∧ i = j) ∨ rest = .ok i := by
  split at h
  · next hc => exact .inl ⟨hc, (Except.ok.inj h).symm⟩
  · exact .inr h

theorem decodesAs_of_decodeRR {w : Half} {i : Instr} (h : decodeRR w = .ok i) : DecodesAs (halfBytes w) i := by
  unfold decodeRR at h
  iterate 5
    rcases decoder_row h with ⟨hop, rfl⟩ | h
    · exact ⟨rfl, rfl, .exact rfl (fun _ => nofun) (congrArg halfBytes (packRR_of_fields hop))⟩
  cases h

theorem decodesAs_of_decodeRX {w : Word} {i : Instr} (h : decodeRX w = .ok i) : DecodesAs (wordBytes w) i := by
  unfold decodeRX at h
  iterate 9
    rcases decoder_row h with ⟨hop, rfl⟩ | h
    · exact ⟨fitsU12_toNat _, rfl, .exact rfl (fun _ => nofun) (congrArg wordBytes (packRX_of_fields hop))⟩
  rcases decoder_row h with ⟨hop, rfl⟩ | h
  · exact ⟨fitsU12_toNat _, rfl, .exact rfl (fun _ => nofun) (congrArg wordBytes (packSI_of_fields hop))⟩
  · cases h

theorem decodesAs_of_decodeRI {w : Word} {i : Instr} (hop : bitField w 0 8 = 0xA7) (h : decodeRI w = .ok i) :
    DecodesAs (wordBytes w) i := by
  unfold decodeRI at h
  iterate 2
    rcases decoder_row h with ⟨hop2, rfl⟩ | h
    · exact ⟨fitsS16_toInt _, rfl, .exact rfl (fun _ => nofun) (congrArg wordBytes (packRI_of_fields hop hop2))⟩
  cases h

theorem decodesAs_of_decodeRXY {w : BitVec 48} {i : Instr} (hop : bitField w 0 8 = 0xE3) (h : decodeRXY w = .ok i) :
    DecodesAs (tripleBytes w) i := by
  unfold decodeRXY at h
  iterate 18
    rcases decoder_row h with ⟨hop2, rfl⟩ | h
    · exact ⟨fitsS20_longDisplacement w, rfl, .exact rfl (fun _ => nofun)
        (congrArg tripleBytes (packRXY_of_fields hop hop2))⟩
  cases h

theorem decodesAs_of_decodeRSY {w : BitVec 48} {i : Instr} (hop : bitField w 0 8 = 0xEB) (h : decodeRSY w = .ok i) :
    DecodesAs (tripleBytes w) i := by
  unfold decodeRSY at h
  rcases decoder_row h with ⟨hop2, rfl⟩ | h
  · exact ⟨fitsS20_longDisplacement w, rfl, .exact rfl (fun _ => nofun)
      (congrArg tripleBytes (packRXY_of_fields hop hop2))⟩
  · cases h

/-- The operation code of a word is its first two bytes. -/
theorem wordBytes_of_op {w : Word} {op : BitVec 16} (hop : bitField w 0 16 = op) :
    wordBytes w = [bitField op 0 8, bitField op 8 8, bitField w 16 8, bitField w 24 8] := by
  have hw : bitField w 0 16 ++ bitField w 16 16 = w := by
    rw [bitField_append_bitField w 0 16 16 (by decide), bitField_all]
  have h0 : bitField w 0 8 = bitField op 0 8 := by
    conv_lhs => rw [← hw, bitField_append_left _ _ (by decide), hop]
  have h1 : bitField w 8 8 = bitField op 8 8 := by
    conv_lhs => rw [← hw, bitField_append_left _ _ (by decide), hop]
  rw [wordBytes, h0, h1]

theorem reencodedAs_rre {w : Word} {op : BitVec 16} {i : Instr} (hthird : IgnoresThirdByte i = true)
    (hfirst : bitField op 0 8 = 0xB9) (hop : bitField w 0 16 = op)
    (henc : encode i = wordBytes (packRRE op (bitField w 24 4) (bitField w 28 4))) : ReencodedAs (wordBytes w) i := by
  rw [wordBytes_packRRE, hfirst, bitField_append_bitField w 24 4 4 (by decide)] at henc
  exact .rre _ _ _ hthird (hfirst ▸ wordBytes_of_op hop) henc

/-- IPM has one register field; the four bits to its right are unassigned (`30_encoding.md` R87). -/
theorem reencodedAs_ipm {w : Word} (hop : bitField w 0 16 = 0xB222) :
    ReencodedAs (wordBytes w) (.ipm (bitField w 24 4)) := by
  have hleft : bitField (bitField w 24 8) 0 4 = bitField w 24 4 := by
    rw [← bitField_append_bitField w 24 4 4 (by decide), bitField_append_left _ _ (by decide), bitField_all]
  refine .ipm _ _ _ (wordBytes_of_op hop) ?_
  rw [encode, wordBytes_packRRE, hleft]
  rfl

/-- Eleven RRE rows, IPM, two RRE rows, CFC. -/
theorem decodesAs_of_decodeRRE {w : Word} {i : Instr} (h : decodeRRE w = .ok i) : DecodesAs (wordBytes w) i := by
  unfold decodeRRE at h
  iterate 11
    rcases decoder_row h with ⟨hop, rfl⟩ | h
    · exact ⟨rfl, rfl, reencodedAs_rre rfl (by decide) hop rfl⟩
  rcases decoder_row h with ⟨hop, rfl⟩ | h
  · exact ⟨rfl, rfl, reencodedAs_ipm hop⟩
  iterate 2
    rcases decoder_row h with ⟨hop, rfl⟩ | h
    · exact ⟨rfl, rfl, reencodedAs_rre rfl (by decide) hop rfl⟩
  rcases decoder_row h with ⟨hop, rfl⟩ | h
  · exact ⟨fitsU12_toNat _, rfl, .exact rfl (fun _ => nofun) (congrArg wordBytes (packS_of_fields hop))⟩
  · cases h

theorem decodesAs_of_decodeWord {w : Word} {i : Instr} (h : decodeWord w = .ok i) : DecodesAs (wordBytes w) i := by
  unfold decodeWord at h
  split_ifs at h with hrre hri
  · exact decodesAs_of_decodeRRE h
  · exact decodesAs_of_decodeRI hri h
  · exact decodesAs_of_decodeRX h

theorem decodesAs_of_decodeTriple {w : BitVec 48} {i : Instr} (h : decodeTriple w = .ok i) :
    DecodesAs (tripleBytes w) i := by
  unfold decodeTriple at h
  split_ifs at h with hrxy hrsy
  · exact decodesAs_of_decodeRXY hrxy h
  · exact decodesAs_of_decodeRSY hrsy h

/-! ## The bytes the decoder reads -/

theorem halfBytes_of_bytes (b0 b1 : Byte) : halfBytes (b0 ++ b1) = [b0, b1] :=
  calc halfBytes (b0 ++ b1) = [bitField (b0 ++ b1) 0 8, bitField (b0 ++ b1) 8 8] := rfl
    _ = [b0, b1] := by simp (disch := decide) only [bitField_append_left, bitField_append_right, bitField_all, -Nat.reduceAdd]

theorem wordBytes_of_bytes (b0 b1 b2 b3 : Byte) : wordBytes (b0 ++ b1 ++ b2 ++ b3) = [b0, b1, b2, b3] :=
  let w := b0 ++ b1 ++ b2 ++ b3
  calc wordBytes w = [bitField w 0 8, bitField w 8 8, bitField w 16 8, bitField w 24 8] := rfl
    _ = [b0, b1, b2, b3] := by
      simp (disch := decide) only [w, bitField_append_left, bitField_append_right, bitField_all, -Nat.reduceAdd]

theorem tripleBytes_of_bytes (b0 b1 b2 b3 b4 b5 : Byte) :
    tripleBytes (b0 ++ b1 ++ b2 ++ b3 ++ b4 ++ b5) = [b0, b1, b2, b3, b4, b5] :=
  let w := b0 ++ b1 ++ b2 ++ b3 ++ b4 ++ b5
  calc tripleBytes w = [bitField w 0 8, bitField w 8 8, bitField w 16 8, bitField w 24 8, bitField w 32 8,
      bitField w 40 8] := rfl
    _ = [b0, b1, b2, b3, b4, b5] := by
      simp (disch := decide) only [w, bitField_append_left, bitField_append_right, bitField_all, -Nat.reduceAdd]

/-- What is decoded stands at the front of the bytes, as long as the first of them says (R73). -/
theorem decodesAs_of_decode {bs : List Byte} {i : Instr} (h : decode bs = .ok i) :
    ∃ b0 more rest, bs = b0 :: more ++ rest ∧ (b0 :: more).length = instrLength b0 ∧ DecodesAs (b0 :: more) i := by
  unfold decode at h
  split at h
  · cases h
  next b0 tail =>
    split_ifs at h with h2 h4
    · split at h
      · next b1 rest => exact ⟨b0, [b1], rest, rfl, h2.symm, halfBytes_of_bytes b0 b1 ▸ decodesAs_of_decodeRR h⟩
      · cases h
    · split at h
      · next b1 b2 b3 rest =>
        exact ⟨b0, [b1, b2, b3], rest, rfl, h4.symm, wordBytes_of_bytes b0 b1 b2 b3 ▸ decodesAs_of_decodeWord h⟩
      · cases h
    · have h6 : instrLength b0 = 6 := by
        have := Machine.instrLength_cases b0
        omega
      split at h
      · next b1 b2 b3 b4 b5 rest =>
        exact ⟨b0, [b1, b2, b3, b4, b5], rest, rfl, h6.symm,
          tripleBytes_of_bytes b0 b1 b2 b3 b4 b5 ▸ decodesAs_of_decodeTriple h⟩
      · cases h

/-- Settles O36: the instruction's bytes are the front of those given, and well-formedness is that of its fields. -/
theorem decodedIsWellFormed : Obligations.DecodedIsWellFormed := by
  intro bs i h
  obtain ⟨b0, more, rest, rfl, hfirst, hi⟩ := decodesAs_of_decode h
  refine ⟨hi.wellFormed, ?_, congrArg some (hfirst.symm.trans hi.length_eq)⟩
  rw [← hi.length_eq, List.length_append]
  exact Nat.le_add_right _ _

/-- Settles O37: the fields of each format make up its word again, but for the bits R87 leaves unassigned. -/
theorem encodeOfDecoded : Obligations.EncodeOfDecoded := by
  intro bs i h
  obtain ⟨b0, more, rest, rfl, -, hi⟩ := decodesAs_of_decode h
  have hfront : (b0 :: more ++ rest).take i.length = b0 :: more := by
    rw [← hi.length_eq, List.take_left]
  cases hi.reencoded with
  | exact hthird hipm henc =>
    cases i with
    | ipm r1 => exact absurd rfl (hipm r1)
    | agr | agfr | algr | algfr | alcr | alcgr | ngr | km | kmc | cgr | cgfr | lgr | lgfr => cases hthird
    | _ => exact henc.trans hfront.symm
  | rre b1 b2 b3 hthird hbytes henc =>
    cases i with
    | agr | agfr | algr | algfr | alcr | alcgr | ngr | km | kmc | cgr | cgfr | lgr | lgfr =>
      exact ⟨b1, b2, b3, hfront.trans hbytes, henc⟩
    | _ => cases hthird
  | ipm r1 b2 b3 hbytes henc => exact ⟨b2, b3, hfront.trans hbytes, henc⟩

/-! ## Unassigned bits and worked examples (`30_encoding.md` R87 and section 8) -/

theorem decode_rre_bytes {b0 : Byte} (hb0 : b0 = 0xB9 ∨ b0 = 0xB2) (b1 b2 b3 : Byte) (rest : List Byte) :
    decode (b0 :: b1 :: b2 :: b3 :: rest) = decodeRRE (b0 ++ b1 ++ b2 ++ b3) := by
  have hlen : instrLength b0 = 4 := by rcases hb0 with rfl | rfl <;> decide
  have hfirst : bitField (b0 ++ b1 ++ b2 ++ b3) 0 8 = b0 := by
    simp (disch := decide) only [bitField_append_left, bitField_all, -Nat.reduceAdd]
  have hword : decode (b0 :: b1 :: b2 :: b3 :: rest) = decodeWord (b0 ++ b1 ++ b2 ++ b3) := by simp [decode, hlen]
  rw [hword, decodeWord, if_pos]
  rwa [← hfirst] at hb0

/-- The decoder looks at bits 16-23 of CFC's word alone, and not at bits 28-31 of IPM's. -/
theorem decodeRRE_congr {w w' : Word} (hop : bitField w 0 16 = bitField w' 0 16) (hcfc : bitField w 0 16 ≠ 0xB21A)
    (hr1 : bitField w 24 4 = bitField w' 24 4)
    (hr2 : bitField w 0 16 = 0xB222 ∨ bitField w 28 4 = bitField w' 28 4) : decodeRRE w = decodeRRE w' := by
  rcases hr2 with hipm | hr2
  · simp [decodeRRE, ← hop, ← hr1, hipm]
  · simp only [decodeRRE, ← hop, ← hr1, ← hr2, if_neg hcfc]

/-- The fields of an RRE word, byte by byte. -/
theorem rre_fields_of_bytes (b0 b1 b2 b3 : Byte) :
    bitField (b0 ++ b1 ++ b2 ++ b3) 0 16 = b0 ++ b1 ∧ bitField (b0 ++ b1 ++ b2 ++ b3) 24 4 = bitField b3 0 4 ∧
      bitField (b0 ++ b1 ++ b2 ++ b3) 28 4 = bitField b3 4 4 := by
  refine ⟨?_, bitField_append_right_add (n := 24) (b0 ++ b1 ++ b2) b3 (a := 0) (by decide),
    bitField_append_right_add (n := 24) (b0 ++ b1 ++ b2) b3 (a := 4) (by decide)⟩
  simp (disch := decide) only [bitField_append_left, bitField_all, -Nat.reduceAdd]

/-- Words of the same operation code, not CFC's, and of the same registers as far as the instruction has them. -/
theorem decode_rre_bytes_congr {b0 b1 b2 b2' b3 b3' : Byte} (rest : List Byte) (hb0 : b0 = 0xB9 ∨ b0 = 0xB2)
    (hcfc : b0 ++ b1 ≠ (0xB21A : Half)) (hr1 : bitField b3 0 4 = bitField b3' 0 4)
    (hr2 : b0 ++ b1 = (0xB222 : Half) ∨ bitField b3 4 4 = bitField b3' 4 4) :
    decode (b0 :: b1 :: b2 :: b3 :: rest) = decode (b0 :: b1 :: b2' :: b3' :: rest) := by
  obtain ⟨hop, h1, h2⟩ := rre_fields_of_bytes b0 b1 b2 b3
  obtain ⟨hop', h1', h2'⟩ := rre_fields_of_bytes b0 b1 b2' b3'
  rw [decode_rre_bytes hb0, decode_rre_bytes hb0]
  exact decodeRRE_congr (hop.trans hop'.symm) (fun h => hcfc (hop.symm.trans h)) (h1.trans (hr1.trans h1'.symm))
    (hr2.imp hop.trans fun hr2 => h2.trans (hr2.trans h2'.symm))

/-- Settles O38: the RRE decoder reads neither bits 16-23 of these words nor bits 28-31 of IPM's. -/
theorem unassignedBitsIgnored : Obligations.UnassignedBitsIgnored := by
  intro b1 b2 b2' b3 rest
  have hb9 : (0xB9 : Byte) ++ b1 ≠ (0xB21A : Half) := by
    intro h
    have hfirst := congrArg (bitField · 0 8) h
    rw [bitField_append_left _ _ (by decide), bitField_all] at hfirst
    exact absurd hfirst (by decide)
  refine ⟨decode_rre_bytes_congr rest (.inl rfl) hb9 rfl (.inr rfl),
    decode_rre_bytes_congr rest (.inr rfl) (by decide) rfl (.inr rfl),
    decode_rre_bytes_congr rest (.inr rfl) (by decide) ?_ (.inl rfl)⟩
  rw [bitField_append_left _ _ (by decide), bitField_all]

/-- Settles O39: each word is evaluated. -/
theorem workedEncodingsDecode : Obligations.WorkedEncodingsDecode :=
  ⟨rfl, rfl, rfl, rfl, rfl, rfl, rfl, rfl, rfl, rfl, rfl, rfl⟩

end Sys2Proof.Proofs

namespace Sys2Proof.Proofs

open Sys2Proof.Machine Sys2Proof.Claims

/-! ## What an instruction answers, said once

`Answers i p s r r'` is every outcome `r` of the instruction `i` in the state `s`, beside its outcome `r'` in the state that
differs from `s` in the PSW bits no rule reads (`withUnreadBits s p`). The frame rules of each instruction and the
irrelevance of those bits are both read off it. -/

/-- Instruction `i` has completed, from `s` to `t`: what may differ, and what each family keeps (`10_state.md` R12, R19, R23,
`20_memory.md` R58). -/
structure Completes (i : Instr) (s t : State) : Prop where
  psw : PswAfter s t t.psw.cc i.length
  launch : SameLaunch s t
  ars : LoadsAccess i = false → t.ars = s.ars
  mem : IsNi i = false → t.mem = s.mem
  stored : ∀ b1 d1 i2, i = .ni b1 d1 i2 → ∃ b, t.mem = s.mem.write (s.eaB (shortDisp d1) b1).toNat b
  leavesCc : LeavesCc i = true → t.psw.cc = s.psw.cc
  compareCc : IsCompare i = true → t.psw.cc ≠ 3
  andCc : IsAnd i = true → t.psw.cc = 0 ∨ t.psw.cc = 1

/-- What instruction `i` answers in `s`, and beside it in `withUnreadBits s p`. -/
inductive Answers (i : Instr) (p : Psw) (s : State) : Result → Result → Prop
  /-- The instruction completes. -/
  | completes {t : State} (h : Completes i s t) : Answers i p s (.next t) (.next (withUnreadBits t p))
  /-- It is not executed; an exception of its row of R210 is taken instead. -/
  | suppresses {e : ProgramException} (hrow : MayRaise i e) (hne : e ≠ .fixedPointOverflow) :
      Answers i p s (s.raise e i.length) ((withUnreadBits s p).raise e i.length)
  /-- It completes, and an overflow is then taken. -/
  | overflows {t : State} (h : Completes i s t) (hi : IsSignedAdd i = true) :
      Answers i p s (.next (t.interrupt .fixedPointOverflow (i.length / 2)))
        (.next ((withUnreadBits t p).interrupt .fixedPointOverflow (i.length / 2)))
  /-- It has no meaning. -/
  | refuses (why : Refusal) : Answers i p s (.refused why) (.refused why)

theorem wrap_wrap (s : State) (a : Dword) : s.wrap (s.wrap a) = s.wrap a := by
  unfold State.wrap AddressingMode.wrap
  cases s.psw.amode with
  | bits24 => simp
  | bits31 => simp
  | bits64 => rfl

theorem wrap_eaX (s : State) (d : Dword) (x2 b2 : Reg) : s.wrap (s.eaX d x2 b2) = s.eaX d x2 b2 :=
  wrap_wrap s _

/-! ### What a storage reference depends on -/

section References

variable {s t : State} (hmode : t.psw.amode = s.psw.amode)

include hmode

theorem wrap_congr (a : Dword) : t.wrap a = s.wrap a := by
  rw [State.wrap, State.wrap, hmode]

theorem byteAddresses_congr (n : Nat) : ∀ a, t.byteAddresses a n = s.byteAddresses a n := by
  induction n with
  | zero => intro a; rfl
  | succ n ih => intro a; rw [State.byteAddresses, State.byteAddresses, wrap_congr hmode, ih]

theorem firstDenied_congr (hadmits : t.admits = s.admits) (kind : AccessKind) (a : Dword) (n : Nat) :
    t.firstDenied kind a n = s.firstDenied kind a n := by
  simp only [State.firstDenied, byteAddresses_congr hmode, State.admitsByte, hadmits]

theorem bytesAt_congr (hmem : t.mem = s.mem) (a : Dword) (n : Nat) : t.bytesAt a n = s.bytesAt a n := by
  simp only [State.bytesAt, byteAddresses_congr hmode, hmem]

theorem fetch_congr (hadmits : t.admits = s.admits) (hmem : t.mem = s.mem) (a : Dword) (n : Nat) :
    t.fetch a n = s.fetch a n := by
  simp only [State.fetch, firstDenied_congr hmode hadmits, bytesAt_congr hmode hmem]

end References

theorem firstDenied_withUnreadBits (s : State) (p : Psw) (kind : AccessKind) (a : Dword) (n : Nat) :
    (withUnreadBits s p).firstDenied kind a n = s.firstDenied kind a n :=
  firstDenied_congr (s := s) (t := withUnreadBits s p) rfl rfl kind a n

theorem fetch_withUnreadBits (s : State) (p : Psw) (a : Dword) (n : Nat) :
    (withUnreadBits s p).fetch a n = s.fetch a n :=
  fetch_congr (s := s) (t := withUnreadBits s p) rfl rfl rfl a n

theorem fetchWords_withUnreadBits (s : State) (p : Psw) (n : Nat) :
    ∀ a, (withUnreadBits s p).fetchWords a n = s.fetchWords a n := by
  induction n with
  | zero => intro a; rfl
  | succ n ih => intro a; simp only [State.fetchWords, fetch_withUnreadBits, ih]

theorem setArs_withUnreadBits (p : Psw) (ws : List Word) : ∀ (s : State) (r : Reg),
    (withUnreadBits s p).setArs r ws = withUnreadBits (s.setArs r ws) p := by
  induction ws with
  | nil => intro s r; rfl
  | cons w ws ih => intro s r; exact ih (s.setAr r w) (r + 1)

/-! ### The ways an instruction can end -/

theorem andLaw_code {n : Nat} (a b : BitVec n) : (andLaw a b).2 = 0 ∨ (andLaw a b).2 = 1 := by
  unfold andLaw
  split
  · exact .inl rfl
  · exact .inr rfl

theorem compareSigned_ne_three {n : Nat} (a b : BitVec n) : compareSigned a b ≠ 3 :=
  (compareCode_iff a.toInt b.toInt).2.2.2

section Ends

variable {i : Instr} {p : Psw} {s : State}

theorem classes_of_isSignedAdd (hi : IsSignedAdd i = true) :
    LoadsAccess i = false ∧ IsNi i = false ∧ LeavesCc i = false ∧ IsCompare i = false ∧ IsAnd i = false := by
  cases i <;> first | exact ⟨rfl, rfl, rfl, rfl, rfl⟩ | cases hi

theorem classes_of_isCompare (hi : IsCompare i = true) :
    LoadsAccess i = false ∧ IsNi i = false ∧ LeavesCc i = false ∧ IsAnd i = false := by
  cases i <;> first | exact ⟨rfl, rfl, rfl, rfl⟩ | cases hi

theorem classes_of_leavesCc (hi : LeavesCc i = true) : IsNi i = false ∧ IsCompare i = false ∧ IsAnd i = false := by
  cases i <;> first | exact ⟨rfl, rfl, rfl⟩ | cases hi

theorem not_stored_of_isNi (hni : IsNi i = false) (b1 : Reg) (d1 : Nat) (i2 : Byte) : i ≠ .ni b1 d1 i2 := by
  rintro rfl
  cases hni

/-- A result and a code put in place by an instruction that neither leaves the code nor compares. -/
theorem completes_setGr_setCc (hni : IsNi i = false) (hleaves : LeavesCc i = false) (hcompare : IsCompare i = false)
    (r1 : Reg) (v : Dword) {c : Cc} (hand : IsAnd i = true → c = 0 ∨ c = 1) :
    Completes i s (((s.setGr r1 v).setCc c).advance i.length) where
  psw := rfl
  launch := ⟨rfl, rfl, rfl, rfl⟩
  ars _ := rfl
  mem _ := rfl
  stored b1 d1 i2 h := absurd h (not_stored_of_isNi hni b1 d1 i2)
  leavesCc h := absurd h (by simp [hleaves])
  compareCc h := absurd h (by simp [hcompare])
  andCc := hand

theorem answers_setGr_setCc {r1 : Reg} {v : Dword} {c : Cc} (hand : IsAnd i = true → c = 0 ∨ c = 1)
    (hni : IsNi i = false := by rfl) (hleaves : LeavesCc i = false := by rfl)
    (hcompare : IsCompare i = false := by rfl) :
    Answers i p s (((s.setGr r1 v).setCc c).complete i.length)
      ((((withUnreadBits s p).setGr r1 v).setCc c).complete i.length) :=
  .completes (completes_setGr_setCc hni hleaves hcompare r1 v hand)

/-- A signed sum and its code, and the overflow that may follow (`40_add.md` R109). -/
theorem answers_completeSigned {r1 : Reg} {v : Dword} {c : Cc} (hi : IsSignedAdd i = true := by rfl) :
    Answers i p s ((s.setGr r1 v).completeSigned i.length c)
      (((withUnreadBits s p).setGr r1 v).completeSigned i.length c) := by
  obtain ⟨-, hni, hleaves, hcompare, hand⟩ := classes_of_isSignedAdd hi
  have hdone : Completes i s (((s.setGr r1 v).setCc c).advance i.length) :=
    completes_setGr_setCc hni hleaves hcompare r1 v (by simp [hand])
  by_cases ho : c = 3 ∧ s.psw.foMask = true
  · obtain ⟨rfl, hmask⟩ := ho
    rw [State.completeSigned_overflow (s.setGr r1 v) _ hmask,
      State.completeSigned_overflow ((withUnreadBits s p).setGr r1 v) _ hmask]
    exact .overflows hdone hi
  · rw [State.completeSigned_of_not (s.setGr r1 v) _ ho,
      State.completeSigned_of_not ((withUnreadBits s p).setGr r1 v) _ ho]
    exact .completes hdone

/-- The code of a comparison, and nothing else. -/
theorem answers_setCc {c : Cc} (hc : c ≠ 3) (hi : IsCompare i = true := by rfl) :
    Answers i p s ((s.setCc c).complete i.length) (((withUnreadBits s p).setCc c).complete i.length) := by
  obtain ⟨-, hni, hleaves, hand⟩ := classes_of_isCompare hi
  exact .completes {
    psw := rfl
    launch := ⟨rfl, rfl, rfl, rfl⟩
    ars _ := rfl
    mem _ := rfl
    stored b1 d1 i2 h := absurd h (not_stored_of_isNi hni b1 d1 i2)
    leavesCc h := absurd h (by simp [hleaves])
    compareCc _ := hc
    andCc h := absurd h (by simp [hand]) }

/-- Registers put in place by an instruction that leaves the code: `t` differs from `s` in registers alone. -/
theorem answers_registers (hi : LeavesCc i = true) {t : State} (hars : LoadsAccess i = false → t.ars = s.ars)
    (hpsw : t.psw = s.psw) (hmem : t.mem = s.mem) (hlaunch : SameLaunch s t) :
    Answers i p s (t.complete i.length) ((withUnreadBits t p).complete i.length) := by
  obtain ⟨hni, hcompare, hand⟩ := classes_of_leavesCc hi
  refine .completes (t := t.advance i.length) {
    psw := ?_
    launch := hlaunch
    ars := hars
    mem _ := hmem
    stored b1 d1 i2 h := absurd h (not_stored_of_isNi hni b1 d1 i2)
    leavesCc _ := show t.psw.cc = s.psw.cc by rw [hpsw]
    compareCc h := absurd h (by simp [hcompare])
    andCc h := absurd h (by simp [hand]) }
  rw [PswAfter, State.advance_psw, State.wrap, hpsw]
  rfl

theorem answers_setGr {r1 : Reg} {v : Dword} (hi : LeavesCc i = true := by rfl) :
    Answers i p s ((s.setGr r1 v).complete i.length) (((withUnreadBits s p).setGr r1 v).complete i.length) :=
  answers_registers hi (fun _ => rfl) rfl rfl ⟨rfl, rfl, rfl, rfl⟩

/-! ### What comes before -/

theorem answers_withFacility {k k' : Result} (h : Answers i p s k k') (hrow : MayRaise i .operation := by trivial) :
    Answers i p s (s.withFacility i.length k) ((withUnreadBits s p).withFacility i.length k') := by
  cases hf : s.ldInstalled with
  | true => rwa [State.withFacility_installed s _ _ hf, State.withFacility_installed (withUnreadBits s p) _ _ hf]
  | false =>
    rw [State.withFacility_absent s _ _ hf, State.withFacility_absent (withUnreadBits s p) _ _ hf]
    exact .suppresses hrow nofun

theorem answers_withOperand {a : Dword} {n w : Nat} {k k' : BitVec w → Result} (h : ∀ v, Answers i p s (k v) (k' v))
    (hrow : ∀ d, MayRaise i (.access .fetch d) := by intro; trivial) :
    Answers i p s (s.withOperand i.length a n w k) ((withUnreadBits s p).withOperand i.length a n w k') := by
  simp only [State.withOperand, fetch_withUnreadBits]
  split
  · exact .suppresses (hrow _) nofun
  · exact h _

theorem answers_loadAccessMultiple {r1 r3 : Reg} {a : Dword} (hspec : MayRaise i .specification := by trivial)
    (hrow : ∀ d, MayRaise i (.access .fetch d) := by intro; trivial) (hload : LoadsAccess i = true := by rfl)
    (hi : LeavesCc i = true := by rfl) :
    Answers i p s (s.loadAccessMultiple i.length r1 r3 a)
      ((withUnreadBits s p).loadAccessMultiple i.length r1 r3 a) := by
  simp only [State.loadAccessMultiple, fetchWords_withUnreadBits]
  split
  · exact .suppresses hspec nofun
  · split
    · exact .suppresses (hrow _) nofun
    · next ws _ =>
      obtain ⟨-, hpsw, hmem, hlaunch⟩ := State.setArs_frame ws s r1
      rw [setArs_withUnreadBits]
      exact answers_registers hi (by simp [hload]) hpsw hmem hlaunch

/-- NI fetches its byte, stores the product into it and sets the code, or is stopped at the fetch or at the store
(`44_and.md` R146). -/
theorem answers_ni (b1 : Reg) (d1 : Nat) (i2 : Byte) :
    Answers (.ni b1 d1 i2) p s (execNi b1 d1 i2 s) (execNi b1 d1 i2 (withUnreadBits s p)) := by
  unfold execNi
  refine answers_withOperand fun b => ?_
  have hea : (withUnreadBits s p).eaB (shortDisp d1) b1 = s.eaB (shortDisp d1) b1 := rfl
  simp only [State.storeByte, firstDenied_withUnreadBits, hea]
  cases s.firstDenied .store (s.eaB (shortDisp d1) b1) 1 with
  | some d => exact .suppresses (i := .ni b1 d1 i2) trivial nofun
  | none =>
    refine .completes (t := ((s.setMem _).setCc _).advance 4) {
      psw := rfl
      launch := ⟨rfl, rfl, rfl, rfl⟩
      ars _ := rfl
      mem := nofun
      stored b1' d1' i2' h := ?_
      leavesCc := nofun
      compareCc := nofun
      andCc _ := andLaw_code b i2 }
    cases h
    exact ⟨_, congrArg (fun a : Dword => s.mem.write a.toNat _) (wrap_eaX s (shortDisp d1) 0 b1)⟩

end Ends

/-! ### Every instruction -/

theorem exec_answers (i : Instr) (p : Psw) (s : State) (hasc : IsLae i = false ∨ p.asc = s.psw.asc) :
    Answers i p s (exec i s) (exec i (withUnreadBits s p)) := by
  cases i with
  -- The signed additions.
  | ar | agr | agfr | ahi | aghi => exact answers_completeSigned
  | a | ag | agf | ah =>
    simp only [exec, execA, execAg, execAgf, execAh, State.withHalf, State.withWord, State.withDword]
    exact answers_withOperand fun _ => answers_completeSigned
  | ay | ahy =>
    simp only [exec, execAy, execAhy, State.withHalf, State.withWord]
    exact answers_withFacility (answers_withOperand fun _ => answers_completeSigned)
  -- The unsigned additions.
  | alr | algr | algfr | alcr | alcgr => exact answers_setGr_setCc nofun
  | al | alg | algf | alc | alcg =>
    simp only [exec, execAl, execAlg, execAlgf, execAlc, execAlcg, State.withWord, State.withDword]
    exact answers_withOperand fun _ => answers_setGr_setCc nofun
  | aly =>
    simp only [exec, execAly, State.withWord]
    exact answers_withFacility (answers_withOperand fun _ => answers_setGr_setCc nofun)
  -- AND.
  | nr | ngr => exact answers_setGr_setCc fun _ => andLaw_code ..
  | n | ng =>
    simp only [exec, execN, execNg, State.withWord, State.withDword]
    exact answers_withOperand fun _ => answers_setGr_setCc fun _ => andLaw_code ..
  | ny =>
    simp only [exec, execNy, State.withWord]
    exact answers_withFacility (answers_withOperand fun _ => answers_setGr_setCc fun _ => andLaw_code ..)
  | ni b1 d1 i2 => exact answers_ni b1 d1 i2
  -- What the spec refuses.
  | km | kmc | cfc => exact .refuses _
  -- COMPARE.
  | cr | cgr | cgfr => exact answers_setCc (compareSigned_ne_three _ _)
  | c | cg | cgf =>
    simp only [exec, execC, execCg, execCgf, State.withWord, State.withDword]
    exact answers_withOperand fun _ => answers_setCc (compareSigned_ne_three _ _)
  | cy =>
    simp only [exec, execCy, State.withWord]
    exact answers_withFacility (answers_withOperand fun _ => answers_setCc (compareSigned_ne_three _ _))
  -- The loads.
  | ipm | lr | lgr | lgfr => exact answers_setGr
  | l | lg | lgf =>
    simp only [exec, execL, execLg, execLgf, State.withWord, State.withDword]
    exact answers_withOperand fun _ => answers_setGr
  | ly =>
    simp only [exec, execLy, State.withWord]
    exact answers_withFacility (answers_withOperand fun _ => answers_setGr)
  | lam =>
    simp only [exec, execLam]
    exact answers_loadAccessMultiple
  | lamy =>
    simp only [exec, execLamy]
    exact answers_withFacility answers_loadAccessMultiple
  | la =>
    simp only [exec, execLa, placeAddress_eq_setGr_placed]
    exact answers_setGr
  | lay =>
    simp only [exec, execLay, placeAddress_eq_setGr_placed]
    exact answers_withFacility answers_setGr
  | lae r1 x2 b2 d2 =>
    have hasc : p.asc = s.psw.asc := hasc.resolve_left nofun
    have hext : (withUnreadBits s p).extendedAccess b2 = s.extendedAccess b2 := by
      simp only [State.extendedAccess, withUnreadBits, hasc]
      rfl
    simp only [exec, execLae, placeAddress_eq_setGr_placed, hext]
    exact answers_registers (t := (s.setGr r1 _).setAr r1 _) rfl nofun rfl rfl ⟨rfl, rfl, rfl, rfl⟩

end Sys2Proof.Proofs

namespace Sys2Proof.Proofs

open Sys2Proof.Machine Sys2Proof.Claims

/-! ## What an instruction that answers a next state has done -/

theorem Completes.interruptions_eq {i : Instr} {s t : State} (h : Completes i s t) :
    t.interruptions = s.interruptions := by
  obtain ⟨-, -, hcount, -⟩ := h.launch
  exact hcount

/-- The three outcomes: completed; not executed, and an exception of its row taken; completed, and an overflow taken. -/
theorem exec_cases {i : Instr} {s t : State} (h : exec i s = .next t) :
    Completes i s t ∨ (∃ e, MayRaise i e ∧ e ≠ .fixedPointOverflow ∧ t = s.suppress e (i.length / 2)) ∨
      ∃ u, Completes i s u ∧ IsSignedAdd i = true ∧ t = u.interrupt .fixedPointOverflow (i.length / 2) := by
  have hanswers := exec_answers i s.psw s (.inr rfl)
  generalize exec i s = r at h hanswers
  generalize exec i (withUnreadBits s s.psw) = r' at hanswers
  cases hanswers with
  | completes hdone => cases h; exact .inl hdone
  | suppresses hrow hne => cases h; exact .inr (.inl ⟨_, hrow, hne, rfl⟩)
  | overflows hdone hadd => cases h; exact .inr (.inr ⟨_, hdone, hadd, rfl⟩)
  | refuses why => cases h

theorem completes_of_uninterrupted {i : Instr} {s t : State} (h : exec i s = .next t)
    (hsame : t.interruptions = s.interruptions) : Completes i s t := by
  rcases exec_cases h with hdone | ⟨e, -, -, rfl⟩ | ⟨u, hdone, -, rfl⟩
  · exact hdone
  · rw [State.suppress_interruptions] at hsame; omega
  · rw [State.interrupt_interruptions, hdone.interruptions_eq] at hsame; omega

theorem exec_ne_fault (i : Instr) (s : State) (e : Fault) : exec i s ≠ .fault e := by
  intro h
  have hanswers := exec_answers i s.psw s (.inr rfl)
  rw [h] at hanswers
  generalize exec i (withUnreadBits s s.psw) = r' at hanswers
  cases hanswers

theorem mayRaise_overflow {i : Instr} (hi : IsSignedAdd i = true) : MayRaise i .fixedPointOverflow := by
  cases i <;> trivial

/-- Settles O25: a suppressed instruction takes an exception of its row, and only a signed addition takes an overflow. -/
theorem onlyListedExceptions : Obligations.OnlyListedExceptions := by
  intro s t i h hne
  rcases exec_cases h with hdone | ⟨e, hrow, -, rfl⟩ | ⟨u, hdone, hadd, rfl⟩
  · exact absurd hdone.interruptions_eq hne
  · exact ⟨e, State.suppress_lastInterruption .., hrow, State.suppress_interruptions ..⟩
  · exact ⟨_, rfl, mayRaise_overflow hadd, by rw [State.interrupt_interruptions, hdone.interruptions_eq]⟩

/-- Settles O26: a suppressed instruction leaves its registers, and an overflow follows an addition, which changes no access
register and no storage; the interruption itself stores at its assigned locations alone. -/
theorem interruptedInstructionChangesNothing : Obligations.InterruptedInstructionChangesNothing := by
  intro s t i h hne
  have hassigned : ∀ a, ¬(141 ≤ a ∧ a < 144) → ¬(168 ≤ a ∧ a < 176) → ¬(336 ≤ a ∧ a < 352) →
      ¬interruptionStoresTo a := fun a h1 h2 h3 => by simp only [interruptionStoresTo]; omega
  rcases exec_cases h with hdone | ⟨e, -, -, rfl⟩ | ⟨u, hdone, hadd, rfl⟩
  · exact absurd hdone.interruptions_eq hne
  · exact ⟨fun _ r => State.gr_suppress .., fun r => State.ar_suppress ..,
      fun a h1 h2 h3 => State.read_suppress_of_out s e _ a (hassigned a h1 h2 h3)⟩
  · obtain ⟨hload, hni, -⟩ := classes_of_isSignedAdd hadd
    refine ⟨fun hlast => absurd rfl hlast, fun r => ?_, fun a h1 h2 h3 => ?_⟩
    · rw [State.ar_interrupt, State.ar, State.ar, hdone.ars hload]
    · rw [State.interrupt_mem, State.read_interruptionStores_of_out _ _ _ _ (hassigned a h1 h2 h3), hdone.mem hni]

/-! ## The instruction address (`10_state.md` R18, R19) -/

theorem iaOdd_iff (p : Psw) : p.iaOdd = decide (p.ia.toNat % 2 = 1) :=
  Nat.testBit_zero _

theorem toNat_wrap_mod_two (s : State) (a : Dword) : (s.wrap a).toNat % 2 = a.toNat % 2 := by
  cases hm : s.psw.amode with
  | bits24 => rw [State.wrap, hm, toNat_wrap_bits24]; omega
  | bits31 => rw [State.wrap, hm, toNat_wrap_bits31]; omega
  | bits64 => rw [State.wrap, hm]; rfl

theorem length_cases (i : Instr) : i.length = 2 ∨ i.length = 4 ∨ i.length = 6 := by
  cases i <;> simp [Instr.length]

theorem Completes.ia_eq {i : Instr} {s t : State} (h : Completes i s t) : t.psw.ia = nextIa s i.length :=
  congrArg (fun p : Psw => p.ia) h.psw

theorem Completes.iaOdd_eq_false {i : Instr} {s t : State} (h : Completes i s t) (heven : s.psw.iaOdd = false) :
    t.psw.iaOdd = false := by
  simp only [iaOdd_iff, decide_eq_false_iff_not] at heven ⊢
  rw [h.ia_eq, nextIa, toNat_wrap_mod_two, BitVec.toNat_add, BitVec.toNat_ofNat]
  have := length_cases i
  omega

/-- Settles O49: what completes has advanced by its own length, which is even. -/
theorem completionAdvancesByLength : Obligations.CompletionAdvancesByLength := by
  intro s t i h hsame
  have hdone := completes_of_uninterrupted h hsame
  exact ⟨hdone.ia_eq, hdone.iaOdd_eq_false⟩

/-! ## Who writes what -/

/-- Settles O50: what takes no interruption has completed, and of what completes NI alone stores. -/
theorem onlyAndImmediateStores : Obligations.OnlyAndImmediateStores :=
  fun _ _ _ h hsame hni => (completes_of_uninterrupted h hsame).mem hni

/-- Settles O51: an interruption changes no access register, and what completes keeps the rules of its family. -/
theorem whoWritesAccessRegistersAndCc : Obligations.WhoWritesAccessRegistersAndCc := by
  intro s t i h
  constructor
  · intro hload
    rcases exec_cases h with hdone | ⟨e, -, -, rfl⟩ | ⟨u, hdone, -, rfl⟩
    · exact hdone.ars hload
    · exact State.suppress_ars ..
    · exact hdone.ars hload
  · intro hsame
    have hdone := completes_of_uninterrupted h hsame
    exact ⟨hdone.leavesCc, hdone.compareCc, hdone.andCc⟩

/-- Settles O52: the outcome that completes is the same beside the other bits. -/
theorem unreadPswBitsDoNotInfluence : Obligations.UnreadPswBitsDoNotInfluence := by
  intro s t p i hlae h hsame
  have hanswers := exec_answers i p s (.inl hlae)
  generalize exec i s = r at h hanswers
  generalize exec i (withUnreadBits s p) = r' at hanswers ⊢
  cases hanswers with
  | completes hdone => cases h; rfl
  | suppresses hrow hne => cases h; rw [State.suppress_interruptions] at hsame; omega
  | overflows hdone hadd => cases h; rw [State.interrupt_interruptions, hdone.interruptions_eq] at hsame; omega
  | refuses why => cases h

end Sys2Proof.Proofs

namespace Sys2Proof.Proofs

open Sys2Proof.Machine Sys2Proof.Claims

/-! ## What a step can do

A step that answers a next state either has completed the instruction it fetched, or has taken one interruption, from a
state `u` that its ending left: the same storage, access registers and launch parameters as before the step. -/

/-- The step from `s` has fetched and completed instruction `i`, in `t`. -/
def StepCompletes (s : State) (i : Instr) (t : State) : Prop :=
  ∃ bytes, s.fetchInstr = .instruction bytes ∧ decode bytes = .ok i ∧ Completes i s t

/-- `t` is the state after an interruption by `e` that came from `s` by the ending `u`. -/
structure Interrupted (s u : State) (e : ProgramException) (t : State) : Prop where
  taken : ∃ halfwords, t = u.interrupt e halfwords
  mem : u.mem = s.mem
  launch : SameLaunch s u

theorem step_of_trap {s : State} {e : ProgramException} {k : Nat} (h : s.fetchInstr = .trap e k) :
    step s = .next (s.suppress e k) := by
  simp only [step, h]

theorem step_of_instruction {s : State} {bytes : List Byte} {i : Instr} (h : s.fetchInstr = .instruction bytes)
    (hi : decode bytes = .ok i) : step s = exec i s := by
  simp only [step, h, hi]

theorem step_of_undecoded {s : State} {bytes : List Byte} {why : DecodeError} (h : s.fetchInstr = .instruction bytes)
    (hwhy : decode bytes = .error why) : step s = .refused (.notInTable why) := by
  simp only [step, h, hwhy]

theorem interrupted_suppress (s : State) (e : ProgramException) (k : Nat) : ∃ u, Interrupted s u e (s.suppress e k) := by
  rcases State.suppress_cases s e k with ⟨hs, -⟩ | hs
  · exact ⟨s, ⟨k, hs⟩, rfl, rfl, rfl, rfl, rfl⟩
  · exact ⟨s.advance (2 * k), ⟨k, hs⟩, rfl, rfl, rfl, rfl, rfl⟩

theorem step_cases {s t : State} (h : step s = .next t) :
    (∃ i, StepCompletes s i t) ∨ ∃ u e, Interrupted s u e t := by
  cases hf : s.fetchInstr with
  | trap e k =>
    rw [step_of_trap hf] at h
    cases h
    exact .inr ((interrupted_suppress s e k).imp fun _ hu => ⟨e, hu⟩)
  | instruction bytes =>
    cases hd : decode bytes with
    | error why => rw [step_of_undecoded hf hd] at h; cases h
    | ok i =>
      rw [step_of_instruction hf hd] at h
      rcases exec_cases h with hdone | ⟨e, -, -, rfl⟩ | ⟨u, hdone, hadd, rfl⟩
      · exact .inl ⟨i, bytes, hf, hd, hdone⟩
      · exact .inr ((interrupted_suppress s e _).imp fun _ hu => ⟨e, hu⟩)
      · obtain ⟨-, hni, -⟩ := classes_of_isSignedAdd hadd
        exact .inr ⟨u, _, ⟨_, rfl⟩, hdone.mem hni, hdone.launch⟩

theorem Interrupted.interruptions_eq {s u t : State} {e : ProgramException} (h : Interrupted s u e t) :
    t.interruptions = s.interruptions + 1 := by
  obtain ⟨⟨k, rfl⟩, -, -, -, hcount, -⟩ := h
  rw [State.interrupt_interruptions, hcount]

theorem Interrupted.lastInterruption_eq {s u t : State} {e : ProgramException} (h : Interrupted s u e t) :
    t.lastInterruption = some e := by
  obtain ⟨⟨k, rfl⟩, -⟩ := h
  rfl

theorem stepCompletes_of_uninterrupted {s t : State} (h : step s = .next t)
    (hsame : t.interruptions = s.interruptions) : ∃ i, StepCompletes s i t := by
  rcases step_cases h with hdone | ⟨u, e, hint⟩
  · exact hdone
  · have := hint.interruptions_eq
    omega

/-- Settles O54: the fetch traps into a next state or is refused, and no instruction faults. -/
theorem stepNeverFaults : Obligations.StepNeverFaults := by
  intro s e h
  cases hf : s.fetchInstr with
  | trap e k => rw [step_of_trap hf] at h; cases h
  | instruction bytes =>
    cases hd : decode bytes with
    | error why => rw [step_of_undecoded hf hd] at h; cases h
    | ok i => rw [step_of_instruction hf hd] at h; exact exec_ne_fault i s e h

/-! ## What every step keeps -/

/-- Only NI stores, and it stores one byte, at an address of 64 bits. -/
theorem Completes.mem_cases {i : Instr} {s t : State} (h : Completes i s t) :
    t.mem = s.mem ∨ ∃ b1 d1 i2 b, i = .ni b1 d1 i2 ∧ t.mem = s.mem.write (s.eaB (shortDisp d1) b1).toNat b := by
  cases i with
  | ni b1 d1 i2 =>
    obtain ⟨b, hb⟩ := h.stored b1 d1 i2 rfl
    exact .inr ⟨b1, d1, i2, b, rfl, hb⟩
  | _ => exact .inl (h.mem rfl)

theorem Completes.wf {i : Instr} {s t : State} (h : Completes i s t) (hw : s.mem.wf = true) : t.mem.wf = true := by
  rcases h.mem_cases with hmem | ⟨b1, d1, i2, b, -, hmem⟩
  · rwa [hmem]
  · rw [hmem]
    exact Memory.wf_write hw (BitVec.isLt _) b

/-- Settles O44: NI's store and the interruption's stores keep the canonical form, and nothing else stores. -/
theorem stepKeepsStorageCanonical : Obligations.StepKeepsStorageCanonical := by
  intro s t hw h
  rcases step_cases h with ⟨i, -, -, -, hdone⟩ | ⟨u, e, ⟨k, rfl⟩, hmem, -⟩
  · exact hdone.wf hw
  · exact State.wf_interruptionStores u e k (hmem ▸ hw)

/-- Settles O48: the two outcomes of a step, each with the frame that comes with it. -/
theorem stepWritesOnlyCcAndPc : Obligations.StepWritesOnlyCcAndPc := by
  intro s t h
  rcases step_cases h with ⟨i, -, -, -, hdone⟩ | ⟨u, e, hint⟩
  · obtain ⟨hld, hadmits, hcount, hlast⟩ := hdone.launch
    exact ⟨hld, hadmits, .inr ⟨hcount, hlast, hdone.ia_eq ▸ hdone.psw⟩⟩
  · have hcount := hint.interruptions_eq
    have hlast := hint.lastInterruption_eq
    obtain ⟨⟨k, rfl⟩, -, hld, hadmits, -⟩ := hint
    exact ⟨hld, hadmits, .inl ⟨hcount, hlast ▸ rfl⟩⟩

theorem Completes.amode_eq {i : Instr} {s t : State} (h : Completes i s t) : t.psw.amode = s.psw.amode := by
  rw [h.psw]
  rfl

theorem Completes.admits_eq {i : Instr} {s t : State} (h : Completes i s t) : t.admits = s.admits := by
  obtain ⟨-, hadmits, -⟩ := h.launch
  exact hadmits

/-- The launch premises that a state alone can show are kept by what completes. -/
theorem Completes.launchable {i : Instr} {s t : State} {translate : Dword → Dword} (h : Completes i s t)
    (hs : s.launchable translate) : t.launchable translate := by
  obtain ⟨hvalid, heven, -, hper, htranslation, hwait, hw⟩ := hs
  have hia : t.wrap t.psw.ia = t.psw.ia := by
    rw [wrap_congr h.amode_eq, h.ia_eq]
    exact wrap_wrap s _
  refine ⟨?_, h.iaOdd_eq_false heven, hia, ?_, ?_, ?_, h.wf hw⟩
  · rw [h.psw]; exact hvalid
  · rw [h.psw]; exact hper
  · simp only [State.translationInvisible, State.admitsByte, h.admits_eq]
    rw [h.psw]
    exact htranslation
  · rw [h.psw]; exact hwait

/-- Settles O46: a step that takes no interruption has completed its instruction. -/
theorem stepKeepsLaunchable : Obligations.StepKeepsLaunchable := by
  intro s t translate hs h hsame
  obtain ⟨i, -, -, -, hdone⟩ := stepCompletes_of_uninterrupted h hsame
  exact hdone.launchable hs

end Sys2Proof.Proofs

namespace Sys2Proof.Proofs

open Sys2Proof.Machine Sys2Proof.Claims

/-! ## A step of a run (`60_exceptions.md` R222) -/

theorem runStep_of_completes {s t : State} (h : step s = .next t) (hsame : t.interruptions = s.interruptions) :
    runStep s = .next t := by
  rcases runStep_of_next h with ⟨hr, -⟩ | ⟨e, -, hne, -⟩
  · exact hr
  · exact absurd hsame hne

theorem runStep_of_interrupted {s t : State} (h : step s = .next t) (hne : t.interruptions ≠ s.interruptions) :
    ∃ e, t.lastInterruption = some e ∧ runStep s = .fault (.programInterruption e (s.ending t e)) := by
  rcases runStep_of_next h with ⟨-, hsame | hlast⟩ | ⟨e, hlast, -, hr⟩
  · exact absurd hsame hne
  · rcases step_cases h with ⟨i, -, -, -, hdone⟩ | ⟨u, e, hint⟩
    · exact absurd hdone.interruptions_eq hne
    · rw [hint.lastInterruption_eq] at hlast; cases hlast
  · exact ⟨e, hlast, hr⟩

theorem runStep_eq_next_iff {s t : State} :
    runStep s = .next t ↔ step s = .next t ∧ t.interruptions = s.interruptions := by
  constructor
  · intro h
    have hstep := step_of_runStep h
    refine ⟨hstep, by_contra fun hne => ?_⟩
    obtain ⟨e, -, hr⟩ := runStep_of_interrupted hstep hne
    rw [hr] at h
    cases h
  · rintro ⟨hstep, hsame⟩
    exact runStep_of_completes hstep hsame

/-- What a run's step has done: it has completed an instruction. -/
theorem stepCompletes_of_runStep {s t : State} (h : runStep s = .next t) : ∃ i, StepCompletes s i t := by
  obtain ⟨hstep, hsame⟩ := runStep_eq_next_iff.mp h
  exact stepCompletes_of_uninterrupted hstep hsame

/-- The fault of a run's step is an interruption of the step, and holds the ending's state. -/
theorem step_of_runStep_fault {s u : State} {e : ProgramException}
    (h : runStep s = .fault (.programInterruption e u)) : ∃ t, step s = .next t ∧ u = s.ending t e := by
  cases hs : step s with
  | next t =>
    rcases runStep_of_next hs with ⟨hr, -⟩ | ⟨e', -, -, hr⟩
    · rw [hr] at h; cases h
    · rw [hr] at h; cases h; exact ⟨t, rfl, rfl⟩
  | fault f => exact absurd hs (stepNeverFaults s f)
  | refused why => unfold runStep at h; rw [hs] at h; cases h

/-! ## The program in storage (`70_reset_and_hazards.md` R252, premise 3) -/

/-- A store outside an operand's bytes leaves them. -/
theorem bytesAt_write {s t : State} {a : Dword} {n : Nat} {x : Dword} {b : Byte} (hmode : t.psw.amode = s.psw.amode)
    (hmem : t.mem = s.mem.write x.toNat b) (hx : x ∉ s.byteAddresses a n) : t.bytesAt a n = s.bytesAt a n := by
  rw [State.bytesAt, State.bytesAt, byteAddresses_congr hmode, hmem]
  refine List.map_congr_left fun y hy => Memory.read_write_ne s.mem b fun hxy => hx ?_
  rwa [← BitVec.eq_of_toNat_eq hxy]

theorem storeTarget_ni {s : State} {bytes : List Byte} {b1 : Reg} {d1 : Nat} {i2 : Byte}
    (hf : s.fetchInstr = .instruction bytes) (hd : decode bytes = .ok (.ni b1 d1 i2)) :
    s.storeTarget = some (s.eaB (shortDisp d1) b1) := by
  simp only [State.storeTarget, hf, hd]

theorem not_mem_of_stepSparesProgram {s : State} {a x : Dword} {n : Nat} (hspare : s.stepSparesProgram a n = true)
    (hx : s.storeTarget = some x) : x ∉ s.byteAddresses a n := by
  simpa [State.stepSparesProgram, hx] using hspare

theorem StepCompletes.holdsProgram {i : Instr} {s t : State} {a : Dword} {code : List Byte} (h : StepCompletes s i t)
    (hspare : s.stepSparesProgram a code.length = true) (hs : s.holdsProgram a code) : t.holdsProgram a code := by
  obtain ⟨bytes, hf, hd, hdone⟩ := h
  obtain ⟨hbytes, hadmitted⟩ := hs
  refine ⟨.trans ?_ hbytes, (firstDenied_congr hdone.amode_eq hdone.admits_eq ..).trans hadmitted⟩
  rcases hdone.mem_cases with hmem | ⟨b1, d1, i2, b, rfl, hmem⟩
  · exact bytesAt_congr hdone.amode_eq hmem a _
  · exact bytesAt_write hdone.amode_eq hmem (not_mem_of_stepSparesProgram hspare (storeTarget_ni hf hd))

/-- Settles O47: a run's step has completed its instruction, whose one store is elsewhere. -/
theorem runStepKeepsProgram : Obligations.RunStepKeepsProgram := by
  intro s t a code hs hspare h
  obtain ⟨i, hdone⟩ := stepCompletes_of_runStep h
  exact hdone.holdsProgram hspare hs

/-! ## Runs to `end_pc` (`70_reset_and_hazards.md` R253) -/

/-- Induction along a run that ends at `end_pc`: what each of its steps keeps, the whole run keeps. -/
theorem runTo_induction {endPc : Dword} {motive : Nat → State → State → Prop}
    (done : ∀ k t, t.psw.ia = endPc → motive k t t)
    (step : ∀ k s u t, s.psw.ia ≠ endPc → runStep s = .next u → motive k u t → motive (k + 1) s t) :
    ∀ k s t, runTo endPc k s = .final t → motive k s t := by
  intro k
  induction k with
  | zero =>
    intro s t h
    unfold runTo at h
    split at h
    · next hend => cases h; exact done 0 s hend
    · cases h
  | succ k ih =>
    intro s t h
    unfold runTo at h
    split at h
    · next hend => cases h; exact done (k + 1) s hend
    · next hgo =>
      dsimp only at h
      split at h
      · next u hu => exact step k s u t hgo hu (ih u t h)
      · cases h
      · cases h

/-- What a run from `s` to its final state `t` keeps: all of the PSW but the condition code and the instruction address, the
launch parameters, and the count of interruptions. -/
def EndsUninterrupted (endPc : Dword) (s t : State) : Prop :=
  t.psw.ia = endPc ∧ t.interruptions = s.interruptions ∧ t.psw = { s.psw with cc := t.psw.cc, ia := t.psw.ia } ∧
    t.ldInstalled = s.ldInstalled ∧ t.admits = s.admits

/-- Settles O56: each step of the run has completed an instruction. -/
theorem finalStateTookNoInterruption : Obligations.FinalStateTookNoInterruption := by
  intro endPc
  refine runTo_induction (motive := fun _ => EndsUninterrupted endPc) (fun k t hend => ⟨hend, rfl, rfl, rfl, rfl⟩)
    fun k s u t _ hu hrest => ?_
  obtain ⟨hend, hcount, hpsw, hld, hadmits⟩ := hrest
  obtain ⟨i, -, -, -, hdone⟩ := stepCompletes_of_runStep hu
  obtain ⟨hld', hadmits', hcount', -⟩ := hdone.launch
  refine ⟨hend, hcount.trans hcount', ?_, hld.trans hld', hadmits.trans hadmits'⟩
  rw [hpsw, hdone.psw]

/-- A run of `k` steps from `s` to `t` that spares the program `code` at `a` keeps it, and the premises of its launch. -/
def KeepsProgram (l : Launch) (a : Dword) (code : List Byte) (k : Nat) (s t : State) : Prop :=
  s.holdsProgram a code → State.runSparesProgram a code.length l.endPc k s = true → s.launchable l.translate →
    t.launchable l.translate ∧ t.holdsProgram a code

theorem keepsProgram_of_runTo {l : Launch} {a : Dword} {code : List Byte} :
    ∀ k s t, runTo l.endPc k s = .final t → KeepsProgram l a code k s t := by
  refine runTo_induction (fun k t _ hprogram _ hlaunch => ⟨hlaunch, hprogram⟩)
    fun k s u t hgo hu ih hprogram hspare hlaunch => ?_
  obtain ⟨i, hdone⟩ := stepCompletes_of_runStep hu
  rw [State.runSparesProgram, hu, Bool.or_eq_true, Bool.and_eq_true] at hspare
  obtain ⟨hstep, hrest⟩ := hspare.resolve_left (by simpa using hgo)
  have hprogram' := hdone.holdsProgram hstep hprogram
  obtain ⟨-, -, -, hdone⟩ := hdone
  exact ih hprogram' hrest (hdone.launchable hlaunch)

/-- Settles O57: the premises are kept by each step of the run, the program because the run spares it. -/
theorem launchedRunKeepsPremises : Obligations.LaunchedRunKeepsPremises := by
  intro s t l hs hrun
  obtain ⟨hlaunch, hprogram, hspare, hfacility⟩ := hs
  obtain ⟨-, hcount, -, hld, -⟩ := finalStateTookNoInterruption _ _ _ _ hrun
  obtain ⟨hlaunch', hprogram'⟩ := keepsProgram_of_runTo _ _ _ hrun hprogram hspare hlaunch
  exact ⟨hlaunch', hprogram', hld.trans hfacility, hcount⟩

end Sys2Proof.Proofs

namespace Sys2Proof.Proofs

open Sys2Proof.Machine Sys2Proof.Claims

/-! ## Admitted and denied operands, as the model finds them (`20_memory.md` R44, `60_exceptions.md` R213) -/

theorem firstDenied_of_admitted {s : State} {kind : AccessKind} {a : Dword} {n : Nat} (h : Admitted s kind a n) :
    s.firstDenied kind a n = none :=
  State.firstDenied_eq_none.mpr h

/-- The first byte that is not admitted is the one the search finds. -/
theorem firstDenied_of_deniedAt {s : State} {kind : AccessKind} {a d : Dword} {n : Nat} (h : DeniedAt s kind a n d) :
    s.firstDenied kind a n = some d := by
  obtain ⟨k, hk, rfl, hdenied, hbefore⟩ := h
  rw [State.firstDenied, List.find?_eq_some_iff_getElem]
  refine ⟨by rw [hdenied]; rfl, k, by rwa [State.length_byteAddresses], State.getElem_byteAddresses .., ?_⟩
  intro j hj
  rw [State.getElem_byteAddresses, hbefore j hj]
  rfl

/-! ## The step and its fetch (`30_encoding.md` R88, `60_exceptions.md` R219) -/

theorem lengthAtIa_eq (s : State) : s.lengthAtIa = instrLength (byteAt s s.psw.ia 0) := by
  rw [State.lengthAtIa, byteAt, BitVec.add_zero]

/-- A valid mode, an even address, the instruction's bytes admitted: they are fetched. -/
theorem fetchInstr_of_admitted {s : State} (hmode : s.psw.modeValid = true) (heven : s.psw.iaOdd = false)
    (h : Admitted s .fetch s.psw.ia (instrLength (byteAt s s.psw.ia 0))) :
    s.fetchInstr = .instruction (s.bytesAt s.psw.ia (instrLength (byteAt s s.psw.ia 0))) := by
  rw [← lengthAtIa_eq] at h ⊢
  exact State.fetchInstr_of_ready hmode heven (firstDenied_of_admitted h)

/-- Settles O40: the fetch answers the bytes, and they decode. -/
theorem stepRunsDecodedInstruction : Obligations.StepRunsDecodedInstruction :=
  fun _ _ hmode heven h hd => step_of_instruction (fetchInstr_of_admitted hmode heven h) hd

/-- Settles O41: the fetch answers the bytes, and they do not decode. -/
theorem stepRefusesOutsideTable : Obligations.StepRefusesOutsideTable :=
  fun _ _ hmode heven h hd => step_of_undecoded (fetchInstr_of_admitted hmode heven h) hd

theorem fetchInstr_of_invalid_mode {s : State} (hmode : s.psw.modeValid = false) :
    s.fetchInstr = .trap .specification 0 := by
  simp only [State.fetchInstr, hmode, Bool.not_false, if_true]

theorem fetchInstr_of_odd {s : State} (hmode : s.psw.modeValid = true) (hodd : s.psw.iaOdd = true) :
    s.fetchInstr = .trap .specification 0 := by
  simp only [State.fetchInstr, hmode, hodd, Bool.not_true, Bool.false_eq_true, if_false, if_true]

theorem fetchInstr_of_first_denied {s : State} {d : Dword} (hmode : s.psw.modeValid = true) (heven : s.psw.iaOdd = false)
    (hd : s.firstDenied .fetch s.psw.ia 2 = some d) :
    s.fetchInstr = .trap (.access .fetch d) ((Config.unreadHalfwords s.interruptions).val + 1) := by
  simp only [State.fetchInstr, hmode, heven, Bool.not_true, Bool.false_eq_true, if_false, hd]

theorem fetchInstr_of_rest_denied {s : State} {d : Dword} (hmode : s.psw.modeValid = true) (heven : s.psw.iaOdd = false)
    (hfirst : s.firstDenied .fetch s.psw.ia 2 = none) (hd : s.firstDenied .fetch s.psw.ia s.lengthAtIa = some d) :
    s.fetchInstr = .trap (.access .fetch d) (s.lengthAtIa / 2) := by
  simp only [State.fetchInstr, hmode, heven, Bool.not_true, Bool.false_eq_true, if_false, hfirst, hd]

/-- Settles O42: the four ways the fetch traps, in their order. -/
theorem stepFetchTraps : Obligations.StepFetchTraps := by
  intro s
  refine ⟨fun hmode => step_of_trap (fetchInstr_of_invalid_mode hmode),
    fun hmode hodd => step_of_trap (fetchInstr_of_odd hmode hodd), fun hmode heven d => ⟨fun hdenied => ?_, ?_⟩⟩
  · have hfree := (Config.unreadHalfwords s.interruptions).isLt
    exact ⟨_, Nat.le_add_left 1 _, hfree,
      step_of_trap (fetchInstr_of_first_denied hmode heven (firstDenied_of_deniedAt hdenied))⟩
  · intro hfirst hdenied
    rw [← lengthAtIa_eq] at hdenied ⊢
    exact step_of_trap (fetchInstr_of_rest_denied hmode heven (firstDenied_of_admitted hfirst)
      (firstDenied_of_deniedAt hdenied))

/-! ## The state after reset -/

theorem admitsByte_reset (k : AccessKind) (a : Dword) : State.reset.admitsByte k a = true := by
  have ha : a.toNat < 0 + 2 ^ 64 := by have := a.isLt; omega
  cases k <;> simp only [State.admitsByte, State.reset, List.any_cons, ha, Nat.zero_le, decide_true, Bool.and_self,
    Bool.true_or]

/-- Settles O45: the values of `State.reset`, and its one region, which admits everything. -/
theorem resetIsLaunchable : Obligations.ResetIsLaunchable := by
  refine ⟨fun _ => ⟨rfl, rfl, rfl, rfl, .inl rfl, rfl, Memory.wf_reset⟩, ⟨rfl, rfl⟩, rfl, rfl, fun r => ?_,
    admitsByte_reset⟩
  simp [State.gr, State.ar, State.reset]

/-! ## The AND law (`44_and.md` R140) -/

/-- Settles O4: the product is taken bit by bit, and its code asks whether it is zero. -/
theorem andLawBitByBit : Obligations.AndLawBitByBit := by
  intro n a b
  refine ⟨fun i => BitVec.getLsbD_and, ?_⟩
  by_cases hz : a &&& b = 0
  · simp [andLaw, hz]
  · simp [andLaw]

/-! ## Addresses (`20_memory.md` R50, `30_encoding.md` R80, R81, R92) -/

/-- The width to which an addressing mode reduces addresses. -/
def addressWidth : AddressingMode → Nat
  | .bits64 => 64
  | .bits31 => 31
  | .bits24 => 24

theorem toNat_wrap (s : State) (a : Dword) : (s.wrap a).toNat = a.toNat % 2 ^ addressWidth s.psw.amode := by
  rw [State.wrap]
  cases s.psw.amode with
  | bits64 => exact (Nat.mod_eq_of_lt a.isLt).symm
  | bits31 => exact toNat_wrap_bits31 a
  | bits24 => exact toNat_wrap_bits24 a

/-- A sum reduced to 64 bits and then to the addressing mode is reduced to the addressing mode. -/
theorem toNat_eaX (s : State) (d : Dword) (x2 b2 : Reg) : (s.eaX d x2 b2).toNat =
    (d.toNat + (if x2 = 0 then 0 else (s.gr x2).toNat) + (if b2 = 0 then 0 else (s.gr b2).toNat)) %
      2 ^ addressWidth s.psw.amode := by
  have hx : (if x2 = 0 then 0 else s.gr x2 : Dword).toNat = if x2 = 0 then 0 else (s.gr x2).toNat := by split <;> rfl
  have hb : (if b2 = 0 then 0 else s.gr b2 : Dword).toNat = if b2 = 0 then 0 else (s.gr b2).toNat := by split <;> rfl
  rw [State.eaX, toNat_wrap, BitVec.toNat_add, BitVec.toNat_add, hx, hb, Nat.mod_add_mod]
  refine Nat.mod_mod_of_dvd _ (Nat.pow_dvd_pow 2 ?_)
  cases s.psw.amode <;> decide

/-- Settles O32: `toNat_eaX` in each addressing mode. -/
theorem effectiveAddressArithmetic : Obligations.EffectiveAddressArithmetic := by
  intro s d x2 b2
  refine ⟨(toNat_eaX s d x2 b2).trans ?_, rfl⟩
  cases s.psw.amode <;> rfl

theorem toInt_longDisp {d : Int} (hd : fitsS20 d = true) : (longDisp d).toInt = d := by
  simp only [fitsS20, decide_eq_true_eq] at hd
  simp only [longDisp, BitVec.toInt_ofInt, Int.bmod_def]
  omega

/-- The low 12 bits of a displacement, as an unsigned number (R92). -/
theorem toInt_olderDisp_absent {s : State} (hf : s.ldInstalled = false) (d : Int) :
    (s.olderDisp d).toInt = d % 4096 := by
  have hlow : (bitField (BitVec.ofInt 20 d) 8 12).toNat = (d % 4096).toNat := by
    simp only [bitField, BitVec.extractLsb'_toNat, Nat.sub_self, Nat.reduceSub, Nat.shiftRight_zero, BitVec.toNat_ofInt]
    omega
  simp only [State.olderDisp, hf, Bool.false_eq_true, if_false]
  rw [BitVec.toInt_eq_toNat_of_lt, BitVec.toNat_setWidth_of_le (by decide), hlow]
  · omega
  · rw [BitVec.toNat_setWidth_of_le (by decide)]
    have := (bitField (BitVec.ofInt 20 d) 8 12).isLt
    omega

/-- Settles O34: each field's range lies within 64 bits, signed or unsigned. -/
theorem displacementValues : Obligations.DisplacementValues := by
  refine ⟨fun d hd => ?_, fun d hd => toInt_longDisp hd, fun s d hd => ⟨fun hf => ?_, fun hf => ?_⟩⟩
  · simp only [fitsU12, decide_eq_true_eq] at hd
    exact Nat.mod_eq_of_lt (by omega)
  · simp only [State.olderDisp, hf, if_true]
    exact toInt_longDisp hd
  · exact toInt_olderDisp_absent hf d

end Sys2Proof.Proofs

namespace Sys2Proof.Proofs

open Sys2Proof.Machine Sys2Proof.Claims

/-! ## The PSW and its 128 bits (`10_state.md` R13 to R20) -/

theorem bitField_toBits (p : Psw) (a k : Nat) : bitField p.toBits a k =
    bitField (p.bit0 ++ p.per ++ p.bits2to4 ++ p.dat ++ p.io ++ p.external ++ p.key ++ p.bit12 ++ p.machineCheck ++ p.wait
      ++ p.problem ++ p.asc ++ p.cc ++ p.pm ++ p.bits24to30 ++ p.ea ++ p.ba ++ p.bits33to63 ++ p.ia) a k := rfl

/-- Every field is read back from the bits it was put in. -/
theorem ofBits_toBits (p : Psw) : Psw.ofBits p.toBits = p := by
  simp (disch := decide) only [Psw.ofBits, bitField_toBits, bitField_append_left, bitField_append_right, bitField_all,
    -Nat.reduceAdd]

/-- The fields, one after the other, are all of the bits. -/
theorem toBits_ofBits (w : BitVec 128) : (Psw.ofBits w).toBits = w := by
  rw [Psw.toBits, Psw.ofBits]
  dsimp only
  rw [bitField_append_bitField w 0 1 1 (by decide), bitField_append_bitField w 0 2 3 (by decide),
    bitField_append_bitField w 0 5 1 (by decide), bitField_append_bitField w 0 6 1 (by decide),
    bitField_append_bitField w 0 7 1 (by decide), bitField_append_bitField w 0 8 4 (by decide),
    bitField_append_bitField w 0 12 1 (by decide), bitField_append_bitField w 0 13 1 (by decide),
    bitField_append_bitField w 0 14 1 (by decide), bitField_append_bitField w 0 15 1 (by decide),
    bitField_append_bitField w 0 16 2 (by decide), bitField_append_bitField w 0 18 2 (by decide),
    bitField_append_bitField w 0 20 4 (by decide), bitField_append_bitField w 0 24 7 (by decide),
    bitField_append_bitField w 0 31 1 (by decide), bitField_append_bitField w 0 32 1 (by decide),
    bitField_append_bitField w 0 33 31 (by decide), bitField_append_bitField w 0 64 64 (by decide), bitField_all]

/-- PSW bit 20 is the leftmost bit of the program mask (R15). -/
theorem getMsbD_toBits_foMask (p : Psw) : p.toBits.getMsbD 20 = p.foMask := by
  simp only [Psw.toBits, BitVec.getMsbD_append]
  rfl

/-- Settles O31: each of the two is read back from the other, so the fields stand where `Psw.ofBits` reads them. -/
theorem pswLayout : Obligations.PswLayout := by
  refine ⟨fun p => ⟨ofBits_toBits p, ?_, ?_, ?_, (getMsbD_toBits_foMask p).symm, (getMsbD_toBits_carry p).symm, ?_, ?_, ?_⟩,
    toBits_ofBits⟩
  · exact congrArg (fun q : Psw => q.asc) (ofBits_toBits p)
  · exact congrArg (fun q : Psw => q.cc) (ofBits_toBits p)
  · exact congrArg (fun q : Psw => q.pm) (ofBits_toBits p)
  · exact congrArg (fun q : Psw => q.ea) (ofBits_toBits p)
  · exact congrArg (fun q : Psw => q.ba) (ofBits_toBits p)
  · exact congrArg (fun q : Psw => q.ia) (ofBits_toBits p)

/-! ## Interruption codes and endings (`60_exceptions.md` R212) -/

/-- Each cause of an access exception has a code of R212, which tells whether the instruction is nullified. -/
theorem causeCode_cases (c : AccessCause) :
    causeCode c ∈ ([0x04, 0x05, 0x10, 0x11, 0x38, 0x39, 0x3A, 0x3B, 0x28, 0x29, 0x2A, 0x2B, 0x2C, 0x2D, 0x12] : List Half) ∧
      (causeNullifies c = true ↔ ¬(causeCode c = 4 ∨ causeCode c = 5)) := by
  cases c with
  | protection => decide
  | addressing => decide
  | translation which => revert which; decide

theorem suppress_of_no_failingAddress {s : State} {e : ProgramException} (h : s.failingAddress e = none) (k : Nat) :
    s.suppress e k = (s.advance (2 * k)).interrupt e k := by
  simp [State.suppress, h]

theorem suppress_of_failingAddress {s : State} {e : ProgramException} {d : Dword} (h : s.failingAddress e = some d)
    (k : Nat) : s.suppress e k = s.interrupt e k := by
  simp [State.suppress, h]

/-- Settles O30: the codes are constants but for the access exceptions', where each cause is looked at. -/
theorem interruptionCodesAndEndings : Obligations.InterruptionCodesAndEndings := by
  intro s
  refine ⟨rfl, rfl, rfl, fun h => suppress_of_no_failingAddress rfl h, fun h => suppress_of_no_failingAddress rfl h,
    fun k d => ?_⟩
  have hcode : s.interruptionCode (.access k d) = causeCode (s.accessCause k d) := rfl
  have hfailing : s.failingAddress (.access k d) = if causeNullifies (s.accessCause k d) then some d else none := rfl
  obtain ⟨hlisted, hnullifies⟩ := causeCode_cases (s.accessCause k d)
  rw [hcode]
  refine ⟨hlisted, ?_⟩
  split
  · next hc =>
    rw [if_neg (by rw [hnullifies]; exact not_not.mpr hc)] at hfailing
    exact ⟨hfailing, suppress_of_no_failingAddress hfailing⟩
  · next hc =>
    rw [if_pos (hnullifies.mpr hc)] at hfailing
    exact ⟨hfailing, suppress_of_failingAddress hfailing⟩

end Sys2Proof.Proofs

namespace Sys2Proof.Proofs

open Sys2Proof.Machine Sys2Proof.Claims

/-! ## What an interruption stores and loads (`60_exceptions.md` R221) -/

theorem readBytes_congr {m m' : Memory} {a : Nat} (n : Nat) (h : ∀ q, a ≤ q → q < a + n → m.read q = m'.read q) :
    m.readBytes a n = m'.readBytes a n := by
  refine List.ext_getElem (by simp [Memory.length_readBytes]) fun k hk _ => ?_
  rw [Memory.length_readBytes] at hk
  rw [Memory.getElem_readBytes, Memory.getElem_readBytes, h _ (by omega) (by omega)]

/-- Bytes stored in a row are read back. -/
theorem readBytes_writeBytes {m : Memory} (hw : m.wf = true) {a : Nat} (bs : List Byte) (ha : a + bs.length ≤ 2 ^ 64) :
    (m.writeBytes a bs).readBytes a bs.length = bs := by
  refine List.ext_getElem (by simp [Memory.length_readBytes]) fun k hk hk' => ?_
  rw [Memory.getElem_readBytes, Memory.read_writeBytes_of_in bs hw a (a + k) (by omega) (by omega) ha]
  simp

/-- Bytes stored elsewhere do not change a row of bytes. -/
theorem readBytes_writeBytes_of_out (m : Memory) {a b n : Nat} (bs : List Byte) (h : a + n ≤ b ∨ b + bs.length ≤ a) :
    (m.writeBytes b bs).readBytes a n = m.readBytes a n :=
  readBytes_congr n fun q h1 h2 => Memory.read_writeBytes_of_out bs m b q (by omega)

/-- Storage that reads alike at some addresses reads alike there after the same stores. -/
theorem read_writeBytes_congr {P : Nat → Prop} (bs : List Byte) : ∀ {m m' : Memory} {a : Nat}, m.wf = true → m'.wf = true →
    a + bs.length ≤ 2 ^ 64 → (∀ q, P q → m.read q = m'.read q) →
    ∀ q, P q → (m.writeBytes a bs).read q = (m'.writeBytes a bs).read q := by
  induction bs with
  | nil => intro m m' a _ _ _ h; exact h
  | cons b bs ih =>
    intro m m' a hw hw' ha h
    rw [List.length_cons] at ha
    refine ih (Memory.wf_write hw (by omega) b) (Memory.wf_write hw' (by omega) b) (by omega) fun q hq => ?_
    rw [Memory.read_write hw, Memory.read_write hw', h q hq]

/-- Storage with the program old PSW stored. -/
def withOldPsw (m : Memory) (p : Psw) : Memory :=
  m.writeBytes 336 (bigEndianBytes 16 p.toBits.toNat)

/-- Storage with the instruction-length code and the interruption code stored after that. -/
def withCodes (m : Memory) (halfwords : Nat) (code : Half) : Memory :=
  (m.writeBytes 141 [(0 : BitVec 5) ++ BitVec.ofNat 2 halfwords ++ (0 : BitVec 1)]).writeBytes 142
    (bigEndianBytes 2 code.toNat)

/-- Storage with the failing address stored last, if there is one. -/
def withFailingAddress (m : Memory) (failing : Option Dword) : Memory :=
  match failing with
  | some d => m.writeBytes 168 (bigEndianBytes 8 d.toNat)
  | none => m

theorem interruptionStores_eq (s : State) (e : ProgramException) (k : Nat) : s.interruptionStores e k =
    withFailingAddress (withCodes (withOldPsw s.mem s.psw) k (s.interruptionCode e)) (s.failingAddress e) := by
  unfold State.interruptionStores withFailingAddress
  cases s.failingAddress e <;> rfl

section Stored

variable {m : Memory}

theorem wf_withOldPsw (hw : m.wf = true) (p : Psw) : (withOldPsw m p).wf = true :=
  Memory.wf_writeBytes _ hw _ (by rw [length_bigEndianBytes]; decide)

theorem wf_withCodes (hw : m.wf = true) (k : Nat) (code : Half) : (withCodes m k code).wf = true :=
  Memory.wf_writeBytes _ (Memory.wf_writeBytes _ hw _ (by rw [List.length_singleton]; decide)) _
    (by rw [length_bigEndianBytes]; decide)

theorem read_withOldPsw_of_out (p : Psw) {q : Nat} (hq : ¬(336 ≤ q ∧ q < 352)) : (withOldPsw m p).read q = m.read q :=
  Memory.read_writeBytes_of_out _ _ _ _ (by rw [length_bigEndianBytes]; omega)

theorem read_withCodes_of_out (k : Nat) (code : Half) {q : Nat} (hq : ¬(141 ≤ q ∧ q < 144)) :
    (withCodes m k code).read q = m.read q := by
  rw [withCodes, Memory.read_writeBytes_of_out _ _ _ _ (by rw [length_bigEndianBytes]; omega),
    Memory.read_writeBytes_of_out _ _ _ _ (by rw [List.length_singleton]; omega)]

theorem read_withFailingAddress_of_out (failing : Option Dword) {q : Nat} (hq : failing = none ∨ ¬(168 ≤ q ∧ q < 176)) :
    (withFailingAddress m failing).read q = m.read q := by
  cases failing with
  | none => rfl
  | some d =>
    have hq := hq.resolve_left nofun
    exact Memory.read_writeBytes_of_out _ _ _ _ (by rw [length_bigEndianBytes]; omega)

/-- The same stores keep what two storages have in common. -/
theorem read_withCodes_withFailingAddress_congr {m' : Memory} {P : Nat → Prop} (hw : m.wf = true) (hw' : m'.wf = true)
    (h : ∀ q, P q → m.read q = m'.read q) (k : Nat) (code : Half) (failing : Option Dword) : ∀ q, P q →
    (withFailingAddress (withCodes m k code) failing).read q =
      (withFailingAddress (withCodes m' k code) failing).read q := by
  have hcodes : ∀ q, P q → (withCodes m k code).read q = (withCodes m' k code).read q :=
    read_writeBytes_congr _ (Memory.wf_writeBytes _ hw _ (by rw [List.length_singleton]; decide))
      (Memory.wf_writeBytes _ hw' _ (by rw [List.length_singleton]; decide)) (by rw [length_bigEndianBytes]; decide)
      (read_writeBytes_congr _ hw hw' (by rw [List.length_singleton]; decide) h)
  cases failing with
  | none => exact hcodes
  | some d =>
    exact read_writeBytes_congr _ (wf_withCodes hw k code) (wf_withCodes hw' k code)
      (by rw [length_bigEndianBytes]; decide) hcodes

theorem read_withCodes_ilc (hw : m.wf = true) {k : Nat} (hk : k < 4) (code : Half) :
    (withCodes m k code).read 141 = BitVec.ofNat 8 (2 * k) := by
  rw [withCodes, Memory.read_writeBytes_of_out _ _ _ _ (by omega),
    Memory.read_writeBytes_of_in _ hw _ _ (by simp) (by omega) (by rw [List.length_singleton]; decide)]
  revert k
  decide

end Stored

/-- The bytes of a number that fits them are that number. -/
theorem bigEndian_readBytes_writeBytes {m : Memory} (hw : m.wf = true) {a n v : Nat} (ha : a + n ≤ 2 ^ 64)
    (hv : v < 256 ^ n) : bigEndian ((m.writeBytes a (bigEndianBytes n v)).readBytes a n) = v := by
  have hread := readBytes_writeBytes hw (bigEndianBytes n v) (a := a) (by rwa [length_bigEndianBytes])
  rw [length_bigEndianBytes] at hread
  rw [hread, bigEndian_bigEndianBytes, Nat.mod_eq_of_lt hv]

/-- Settles O29: each location is read through the stores that come after its own. -/
theorem interruptionSavesAndLoadsPsw : Obligations.InterruptionSavesAndLoadsPsw := by
  intro s e h hw hh
  have hw1 := wf_withOldPsw hw s.psw
  have hw2 := wf_withCodes hw1 h (s.interruptionCode e)
  dsimp only
  rw [State.interrupt_mem, interruptionStores_eq]
  refine ⟨?_, ?_, ?_, State.interrupt_psw s e h, fun _ => rfl, fun _ => rfl, ?_, fun a h1 h2 h3 => ?_, rfl, rfl⟩
  · have hbytes : (withFailingAddress (withCodes (withOldPsw s.mem s.psw) h (s.interruptionCode e))
        (s.failingAddress e)).readBytes 336 16 = (withOldPsw s.mem s.psw).readBytes 336 16 :=
      readBytes_congr 16 fun q h1 h2 => (read_withFailingAddress_of_out _ (.inr (by omega))).trans
        (read_withCodes_of_out _ _ (by omega))
    rw [hbytes, withOldPsw, bigEndian_readBytes_writeBytes hw (by decide) s.psw.toBits.isLt, BitVec.ofNat_toNat,
      BitVec.setWidth_eq, ofBits_toBits]
  · rw [read_withFailingAddress_of_out _ (.inr (by omega)), read_withCodes_ilc hw1 hh]
  · have hbytes : (withFailingAddress (withCodes (withOldPsw s.mem s.psw) h (s.interruptionCode e))
        (s.failingAddress e)).readBytes 142 2 =
        (withCodes (withOldPsw s.mem s.psw) h (s.interruptionCode e)).readBytes 142 2 :=
      readBytes_congr 2 fun q h1 h2 => read_withFailingAddress_of_out _ (.inr (by omega))
    rw [hbytes, withCodes]
    exact bigEndian_readBytes_writeBytes (Memory.wf_writeBytes _ hw1 _ (by rw [List.length_singleton]; decide))
      (by decide) (s.interruptionCode e).isLt
  · cases s.failingAddress e with
    | some d => exact bigEndian_readBytes_writeBytes hw2 (by decide) d.isLt
    | none =>
      intro a ha
      rw [read_withFailingAddress_of_out _ (.inl rfl), read_withCodes_of_out _ _ (by omega),
        read_withOldPsw_of_out _ (by omega)]
  · rw [read_withFailingAddress_of_out _ (.inr h3), read_withCodes_of_out _ _ h1, read_withOldPsw_of_out _ h2]

end Sys2Proof.Proofs

namespace Sys2Proof.Proofs

open Sys2Proof.Machine Sys2Proof.Claims

/-! ## The PSW bits no rule reads, over a whole step (`10_state.md` R20) -/

/-- Two interruptions that differ in the PSW they save store alike but for that PSW. -/
theorem read_interruptionStores_congr {u u' : State} (e : ProgramException) (k : Nat) (hw : u.mem.wf = true)
    (hmem : u'.mem = u.mem) (hcount : u'.interruptions = u.interruptions) {a : Nat} (ha : ¬(336 ≤ a ∧ a < 352)) :
    (u'.interruptionStores e k).read a = (u.interruptionStores e k).read a := by
  have hcode : u'.interruptionCode e = u.interruptionCode e := by
    cases u; cases u'; cases hcount; rfl
  have hfailing : u'.failingAddress e = u.failingAddress e := by
    cases u; cases u'; cases hcount; rfl
  rw [interruptionStores_eq, interruptionStores_eq, hmem, hcode, hfailing]
  exact read_withCodes_withFailingAddress_congr (wf_withOldPsw hw _) (wf_withOldPsw hw _)
    (fun q hq => (read_withOldPsw_of_out _ hq).trans (read_withOldPsw_of_out _ hq).symm) k _ _ a ha

/-- Interruptions taken from two states that differ in the unread bits alone: the conclusion of O43. -/
theorem interrupt_withUnreadBits (u : State) (q : Psw) (e : ProgramException) (k : Nat) (hw : u.mem.wf = true) :
    let t := u.interrupt e k
    let t' := (withUnreadBits u q).interrupt e k
    t'.lastInterruption = t.lastInterruption ∧ t'.interruptions = t.interruptions ∧ t'.psw = t.psw ∧
      (∀ r, t'.gr r = t.gr r) ∧ (∀ r, t'.ar r = t.ar r) ∧
      ∀ a, ¬(336 ≤ a ∧ a < 352) → t'.mem.read a = t.mem.read a := by
  have hmem : (withUnreadBits u q).mem = u.mem := rfl
  have hcount : (withUnreadBits u q).interruptions = u.interruptions := rfl
  simp only [State.interrupt_lastInterruption, State.interrupt_interruptions, State.interrupt_psw, State.gr_interrupt,
    State.ar_interrupt, State.interrupt_mem, hmem, hcount, true_and]
  exact ⟨fun _ => rfl, fun _ => rfl, fun _ ha => read_interruptionStores_congr e k hw hmem hcount ha⟩

/-- How the steps of two states that differ in the bits of R20 alone stand to each other. -/
inductive StepsAlike (s : State) (q : Psw) : Result → Result → Prop
  | completes {t : State} (hcount : t.interruptions = s.interruptions) (hasc : t.psw.asc = s.psw.asc) :
      StepsAlike s q (.next t) (.next (withUnreadBits t q))
  | interrupts (u : State) (e : ProgramException) (k : Nat) (hmem : u.mem = s.mem)
      (hcount : u.interruptions = s.interruptions) :
      StepsAlike s q (.next (u.interrupt e k)) (.next ((withUnreadBits u q).interrupt e k))
  | refuses (why : Refusal) : StepsAlike s q (.refused why) (.refused why)

theorem stepsAlike_suppress (s : State) (q : Psw) (e : ProgramException) (k : Nat) :
    StepsAlike s q (.next (s.suppress e k)) (.next ((withUnreadBits s q).suppress e k)) := by
  have hfailing : (withUnreadBits s q).failingAddress e = s.failingAddress e := rfl
  unfold State.suppress
  rw [hfailing]
  split
  · exact .interrupts s e k rfl rfl
  · exact .interrupts (s.advance (2 * k)) e k rfl rfl

theorem stepsAlike_of_answers {i : Instr} {q : Psw} {s : State} {r r' : Result} (h : Answers i q s r r') :
    StepsAlike s q r r' := by
  cases h with
  | completes hdone => exact .completes hdone.interruptions_eq (by rw [hdone.psw])
  | suppresses _ _ => exact stepsAlike_suppress ..
  | overflows hdone hadd =>
    obtain ⟨-, hni, -⟩ := classes_of_isSignedAdd hadd
    exact .interrupts _ _ _ (hdone.mem hni) hdone.interruptions_eq
  | refuses why => exact .refuses why

theorem fetchInstr_withUnreadBits (s : State) (q : Psw) : (withUnreadBits s q).fetchInstr = s.fetchInstr := by
  unfold State.fetchInstr
  simp only [firstDenied_withUnreadBits, bytesAt_congr (s := s) (t := withUnreadBits s q) rfl rfl]
  rfl

theorem stepsAlike (s : State) (q : Psw) (hasc : q.asc = s.psw.asc) :
    StepsAlike s q (step s) (step (withUnreadBits s q)) := by
  cases hf : s.fetchInstr with
  | trap e k =>
    rw [step_of_trap hf, step_of_trap ((fetchInstr_withUnreadBits s q).trans hf)]
    exact stepsAlike_suppress s q e k
  | instruction bytes =>
    have hf' := (fetchInstr_withUnreadBits s q).trans hf
    cases hd : decode bytes with
    | error why => rw [step_of_undecoded hf hd, step_of_undecoded hf' hd]; exact .refuses _
    | ok i =>
      rw [step_of_instruction hf hd, step_of_instruction hf' hd]
      exact stepsAlike_of_answers (exec_answers i q s (.inr hasc))

/-- Settles O43: fetch, execution and interruption alike depend on none of these bits. -/
theorem opaquePswBitsDoNotInfluenceStep : Obligations.OpaquePswBitsDoNotInfluenceStep := by
  intro s p hw
  have halike := stepsAlike s { p with asc := s.psw.asc } rfl
  rw [withOpaqueBits]
  generalize step s = r at halike
  generalize step (withUnreadBits s { p with asc := s.psw.asc }) = r' at halike
  cases halike with
  | @completes t hcount hasc =>
    dsimp only
    rw [if_pos hcount, withOpaqueBits, hasc]
  | interrupts u e k hmem hcount =>
    dsimp only
    rw [if_neg (by rw [State.interrupt_interruptions, hcount]; omega)]
    exact ⟨_, rfl, interrupt_withUnreadBits u { p with asc := s.psw.asc } e k (hmem ▸ hw)⟩
  | refuses why => rfl

end Sys2Proof.Proofs

namespace Sys2Proof.Proofs

open Sys2Proof.Machine Sys2Proof.Claims

/-! ## Operands as numbers (`20_memory.md` R41) -/

theorem ofNat_bigEndian_half (s : State) (a : Dword) : BitVec.ofNat 16 (bigEndian (s.bytesAt a 2)) = halfAt s a := by
  have h : bigEndian (s.bytesAt a 2) = (halfAt s a).toNat := by
    simp [bytesAt_eq_map_byteAt, List.range_succ, bigEndian, halfAt, toNat_append_byte]
  rw [h, BitVec.ofNat_toNat, BitVec.setWidth_eq]

theorem ofNat_bigEndian_byte (s : State) (a : Dword) : BitVec.ofNat 8 (bigEndian (s.bytesAt a 1)) = byteAt s a 0 := by
  simp [bytesAt_eq_map_byteAt, bigEndian]

theorem withHalf_of_admitted {s : State} {a : Dword} (h : Admitted s .fetch a 2) (ilen : Nat) (k : Half → Result) :
    s.withHalf ilen a k = k (halfAt s a) := by
  rw [State.withHalf, State.withOperand_of_admitted (firstDenied_of_admitted h), ofNat_bigEndian_half]

/-- The fetched number fits the operand, so it is the operand's. -/
theorem fetch_of_ofNat_bigEndian {s : State} {a : Dword} {n : Nat} {v : BitVec (8 * n)} (h : Admitted s .fetch a n)
    (hv : BitVec.ofNat (8 * n) (bigEndian (s.bytesAt a n)) = v) : s.fetch a n = .ok v.toNat := by
  have hlt : bigEndian (s.bytesAt a n) < 2 ^ (8 * n) := by
    have := bigEndian_lt (s.bytesAt a n)
    rwa [State.length_bytesAt, show 256 = 2 ^ 8 from rfl, ← Nat.pow_mul] at this
  rw [State.fetch_of_admitted (firstDenied_of_admitted h), ← hv, BitVec.toNat_ofNat, Nat.mod_eq_of_lt hlt]

/-- Settles O33: an operand's number is that of its bytes put together. -/
theorem operandFetchIsBigEndian : Obligations.OperandFetchIsBigEndian := fun s a =>
  ⟨fun h => fetch_of_ofNat_bigEndian (n := 2) h (ofNat_bigEndian_half s a),
    fun h => fetch_of_ofNat_bigEndian (n := 4) h (ofNat_bigEndian_word s a),
    fun h => fetch_of_ofNat_bigEndian (n := 8) h (ofNat_bigEndian_dword s a)⟩

/-! ## The law `addSigned` (`40_add.md` R100) -/

/-- The overflow the bits show is that of the integers. -/
theorem signedOverflow_iff {n : Nat} (a b : BitVec n) :
    signedOverflow a b = true ↔ (a.toInt + b.toInt < -2 ^ (n - 1) ∨ 2 ^ (n - 1) ≤ a.toInt + b.toInt) := by
  have h : signedOverflow a b = a.saddOverflow b := (BitVec.saddOverflow_eq a b).symm
  rw [h, BitVec.saddOverflow, Bool.or_eq_true, decide_eq_true_eq, decide_eq_true_eq, Or.comm]

/-- Without overflow the truncated sum is the exact one, and its code tells its sign. -/
theorem addSigned_eq {n : Nat} (a b : BitVec n) :
    addSigned a b = (BitVec.ofInt n (a.toInt + b.toInt), signedCode n (a.toInt + b.toInt)) := by
  have hsum : a + b = BitVec.ofInt n (a.toInt + b.toInt) := by
    rw [BitVec.ofInt_add, BitVec.ofInt_toInt, BitVec.ofInt_toInt]
  refine Prod.ext hsum ?_
  unfold addSigned signedCode
  by_cases ho : signedOverflow a b = true
  · rw [if_pos ho, if_pos ((signedOverflow_iff a b).mp ho)]
  · have hexact : (a + b).toInt = a.toInt + b.toInt :=
      BitVec.toInt_add_of_not_saddOverflow (by rwa [BitVec.saddOverflow_eq])
    have hzero : a + b = 0 ↔ a.toInt + b.toInt = 0 := by rw [← hexact, ← BitVec.toInt_inj]; simp
    rw [if_neg ho, if_neg (mt (signedOverflow_iff a b).mpr ho)]
    simp only [hzero, BitVec.msb_eq_toInt, hexact, decide_eq_true_eq]

theorem signedOverflow_of_msb_ne {n : Nat} {a b : BitVec n} (h : a.msb ≠ b.msb) : signedOverflow a b = false := by
  simp [signedOverflow, h]

/-! ## The instructions that add by this law (`40_add.md` R102 to R108, `41_add_halfword.md` R113 to R116) -/

/-- In state `s` the instruction `i` puts the result and the code of `addSigned` in `r1` and the PSW, for operands of 64
(`wide`) or 32 bits whose exact sum is `x`. -/
def AddsSigned (s : State) (i : Instr) (ilen : Nat) (r1 : Reg) (wide : Bool) (x : Int) : Prop :=
  if wide then ∃ a b : Dword, a.toInt + b.toInt = x ∧ exec i s = s.putSigned64 ilen r1 (addSigned a b)
  else ∃ a b : Word, a.toInt + b.toInt = x ∧ exec i s = s.putSigned32 ilen r1 (addSigned a b)

theorem toInt_signExtend_dword (w : Word) : (w.signExtend 64).toInt = w.toInt :=
  BitVec.toInt_signExtend_of_le (by decide)

theorem toInt_signExtend_word (h : Half) : (h.signExtend 32).toInt = h.toInt :=
  BitVec.toInt_signExtend_of_le (by decide)

theorem toInt_immediate {i2 : Int} (hw : fitsS16 i2 = true) :
    (BitVec.ofInt 32 i2).toInt = i2 ∧ (BitVec.ofInt 64 i2).toInt = i2 := by
  simp only [fitsS16, decide_eq_true_eq] at hw
  simp only [BitVec.toInt_ofInt, Int.bmod_def]
  omega

theorem addsSigned_of_signedAdd {s : State} {i : Instr} {ilen : Nat} {r1 : Reg} {wide : Bool} {x : Int}
    (h : SignedAdd s i ilen r1 wide x) : AddsSigned s i ilen r1 wide x := by
  cases h with
  | ar r1 r2 => exact ⟨_, _, rfl, rfl⟩
  | agr r1 r2 => exact ⟨_, _, rfl, rfl⟩
  | agfr r1 r2 => exact ⟨_, _, congrArg _ (toInt_signExtend_dword _), rfl⟩
  | a r1 x2 b2 d2 ha => exact ⟨_, _, rfl, by simp only [exec, execA, withWord_of_admitted ha]⟩
  | ay r1 x2 b2 d2 hf ha =>
    exact ⟨_, _, rfl, by simp only [exec, execAy, State.withFacility_installed _ _ _ hf, withWord_of_admitted ha]⟩
  | ag r1 x2 b2 d2 ha => exact ⟨_, _, rfl, by simp only [exec, execAg, withDword_of_admitted ha]⟩
  | agf r1 x2 b2 d2 ha =>
    exact ⟨_, _, congrArg _ (toInt_signExtend_dword _), by simp only [exec, execAgf, withWord_of_admitted ha]⟩
  | ah r1 x2 b2 d2 ha =>
    exact ⟨_, _, congrArg _ (toInt_signExtend_word _), by simp only [exec, execAh, withHalf_of_admitted ha]⟩
  | ahy r1 x2 b2 d2 hf ha =>
    exact ⟨_, _, congrArg _ (toInt_signExtend_word _), by
      simp only [exec, execAhy, State.withFacility_installed _ _ _ hf, withHalf_of_admitted ha]⟩
  | ahi r1 i2 hw => exact ⟨_, _, congrArg _ (toInt_immediate hw).1, rfl⟩
  | aghi r1 i2 hw => exact ⟨_, _, congrArg _ (toInt_immediate hw).2, rfl⟩

/-- All forms: the truncated exact sum stored, its code set, and the overflow that may follow. -/
theorem exec_of_signedAdd {s : State} {i : Instr} {ilen : Nat} {r1 : Reg} {wide : Bool} {x : Int}
    (h : SignedAdd s i ilen r1 wide x) :
    exec i s = (s.setGr r1 (result s r1 wide x)).completeSigned ilen (signedCode (width wide) x) := by
  have hadds := addsSigned_of_signedAdd h
  cases wide with
  | true => obtain ⟨a, b, rfl, he⟩ := hadds; rw [he, addSigned_eq]; rfl
  | false => obtain ⟨a, b, rfl, he⟩ := hadds; rw [he, addSigned_eq]; rfl

/-- The state of a completed addition, before any interruption. -/
def added (s : State) (ilen : Nat) (r1 : Reg) (wide : Bool) (x : Int) : State :=
  ((s.setGr r1 (result s r1 wide x)).setCc (signedCode (width wide) x)).advance ilen

theorem writesGr_added (s : State) (ilen : Nat) (r1 : Reg) (wide : Bool) (x : Int) :
    WritesGr s (added s ilen r1 wide x) r1 (result s r1 wide x) (signedCode (width wide) x) ilen :=
  writesGr_setGr_setCc_advance ..

theorem exec_of_signedAdd_completes {s : State} {i : Instr} {ilen : Nat} {r1 : Reg} {wide : Bool} {x : Int}
    (h : SignedAdd s i ilen r1 wide x) (ho : ¬(signedCode (width wide) x = 3 ∧ s.psw.foMask = true)) :
    exec i s = .next (added s ilen r1 wide x) :=
  (exec_of_signedAdd h).trans (State.completeSigned_of_not _ _ ho)

theorem exec_of_signedAdd_overflows {s : State} {i : Instr} {ilen : Nat} {r1 : Reg} {wide : Bool} {x : Int}
    (h : SignedAdd s i ilen r1 wide x) (hc : signedCode (width wide) x = 3) (hm : s.psw.foMask = true) :
    exec i s = .next ((added s ilen r1 wide x).interrupt .fixedPointOverflow (ilen / 2)) := by
  rw [exec_of_signedAdd h, added, hc]
  exact State.completeSigned_overflow _ _ hm

/-- Settles O5: every form ends in the state `added`. -/
theorem addCompletes : Obligations.AddCompletes :=
  fun s _ ilen r1 wide x h ho => ⟨_, exec_of_signedAdd_completes h ho, writesGr_added s ilen r1 wide x⟩

/-- Settles O6: an overflow is taken from the completed state, under the mask, and `exec_cases` finds it nowhere else. -/
theorem addOverflowCompletesThenInterrupts : Obligations.AddOverflowCompletesThenInterrupts := by
  intro s
  refine ⟨(getMsbD_toBits_foMask s.psw).symm, fun i ilen r1 wide x h hc => ?_, fun i t h hne hlast => ?_⟩
  · refine ⟨added s ilen r1 wide x, hc ▸ writesGr_added s ilen r1 wide x, ?_⟩
    cases hm : s.psw.foMask with
    | true => exact exec_of_signedAdd_overflows h hc hm
    | false => exact exec_of_signedAdd_completes h (by simp [hm])
  · rcases exec_cases h with hdone | ⟨e, -, hnot, rfl⟩ | ⟨u, -, hadd, rfl⟩
    · exact absurd hdone.interruptions_eq hne
    · rw [State.suppress_lastInterruption] at hlast
      exact absurd (Option.some.inj hlast) hnot
    · exact hadd

/-- Settles O1: the law is one of every width, and each form stores its result and code in either case of the overflow. -/
theorem signedAdditionLaw : Obligations.SignedAdditionLaw := by
  refine ⟨fun a b => ⟨addSigned_eq a b, ?_, signedOverflow_of_msb_ne⟩,
    fun a b => ⟨addSigned_eq a b, ?_, signedOverflow_of_msb_ne⟩, fun s i ilen r1 wide x h => ?_⟩
  · rw [signedOverflow_iff]
    omega
  · rw [signedOverflow_iff]
    omega
  · refine ⟨added s ilen r1 wide x, writesGr_added s ilen r1 wide x, ?_⟩
    by_cases ho : signedCode (width wide) x = 3 ∧ s.psw.foMask = true
    · obtain ⟨hc, hm⟩ := ho
      exact .inr (exec_of_signedAdd_overflows h hc hm)
    · exact .inl (exec_of_signedAdd_completes h ho)

/-! ## The outcome of a step of a run (`60_exceptions.md` R222) -/

theorem length_eq_of_signedAdd {s : State} {i : Instr} {ilen : Nat} {r1 : Reg} {wide : Bool} {x : Int}
    (h : SignedAdd s i ilen r1 wide x) : i.length = ilen := by
  cases h <;> rfl

/-- The first byte fetched tells the length of what is decoded. -/
theorem lengthAtIa_of_decode {s : State} {bytes : List Byte} {i : Instr} (hf : s.fetchInstr = .instruction bytes)
    (hd : decode bytes = .ok i) : s.lengthAtIa = i.length := by
  obtain ⟨-, -, hfirst⟩ := decodedIsWellFormed bytes i hd
  have hbytes : bytes = s.bytesAt s.psw.ia s.lengthAtIa := by
    rcases s.fetchInstr_cases with ⟨hi, -⟩ | hs | ⟨d, k, ha⟩
    · rw [hi] at hf; cases hf; rfl
    · rw [hs] at hf; cases hf
    · rw [ha] at hf; cases hf
  have hhead : bytes.head? = some (byteAt s s.psw.ia 0) := by
    have hpos : 0 < s.lengthAtIa := by
      have : s.lengthAtIa = 2 ∨ s.lengthAtIa = 4 ∨ s.lengthAtIa = 6 := instrLength_cases _
      omega
    rw [hbytes, bytesAt_eq_map_byteAt, List.head?_map, List.head?_range, if_neg hpos.ne']
    rfl
  rw [hhead] at hfirst
  rw [lengthAtIa_eq]
  exact Option.some.inj hfirst

/-- Settles O55: `runStep` goes on where the step takes no interruption; an overflow's ending is the completed addition. -/
theorem runStepStopsInEndingState : Obligations.RunStepStopsInEndingState := by
  intro s
  refine ⟨fun t => runStep_eq_next_iff, fun t h hne => ?_, fun e u h hne => ?_, ?_⟩
  · obtain ⟨e, hlast, hr⟩ := runStep_of_interrupted h hne
    exact ⟨e, _, hr, hlast⟩
  · obtain ⟨t, -, rfl⟩ := step_of_runStep_fault h
    exact State.ending_of_ne s t hne
  · intro i ilen r1 wide x bytes h hf hd hc hm
    have hlength : s.lengthAtIa = ilen := (lengthAtIa_of_decode hf hd).trans (length_eq_of_signedAdd h)
    have hstep := (step_of_instruction hf hd).trans (exec_of_signedAdd_overflows h hc hm)
    obtain ⟨e, hlast, hr⟩ := runStep_of_interrupted hstep (by
      rw [State.interrupt_interruptions]
      exact Nat.succ_ne_self _)
    cases hlast
    refine ⟨_, hr, ?_⟩
    have hending : s.ending ((added s ilen r1 wide x).interrupt .fixedPointOverflow (ilen / 2)) .fixedPointOverflow =
        added s ilen r1 wide x := by
      rw [State.ending, hlength, added, hc]
      rfl
    rw [hending, ← hc]
    exact writesGr_added s ilen r1 wide x

end Sys2Proof.Proofs

namespace Sys2Proof.Proofs

open Sys2Proof.Machine Sys2Proof.Claims

/-! ## ADD LOGICAL, and chains of additions with carry (`42_add_logical.md`, `43_add_logical_with_carry.md`) -/

/-- Settles O7: the law with no carry in. -/
theorem addLogicalCompletes : Obligations.AddLogicalCompletes :=
  fun _ _ _ _ _ _ h => (addsLogically_of_logicalAdd h).writesGr

/-- Settles O11: the second half of the law of comparison. -/
theorem compareCompletes : Obligations.CompareCompletes := by
  obtain ⟨-, h⟩ := comparisonLaw
  exact h

theorem msb_logicalCode (n t : Nat) : (logicalCode n t).msb = decide (2 ^ n ≤ t) := by
  unfold logicalCode
  by_cases hc : 2 ^ n ≤ t
  · rw [if_pos hc, decide_eq_true hc]
    split <;> decide
  · rw [if_neg hc, decide_eq_false hc]
    split <;> decide

/-- The left bit of the code is the carry out: with it the truncated sum is the exact one. -/
theorem addLogical_exact {n : Nat} (a b : BitVec n) (cin : Bool) :
    (addLogical a b cin).1.toNat + (addLogical a b cin).2.msb.toNat * 2 ^ n = a.toNat + b.toNat + cin.toNat := by
  have ha := a.isLt
  have hb := b.isLt
  have hcin := cin.toNat_le
  rw [toNat_addLogical_fst, addLogical_snd, msb_logicalCode]
  by_cases hc : 2 ^ n ≤ a.toNat + b.toNat + cin.toNat
  · have hmod : (a.toNat + b.toNat + cin.toNat) % 2 ^ n = a.toNat + b.toNat + cin.toNat - 2 ^ n := by
      rw [Nat.mod_eq_sub_mod hc, Nat.mod_eq_of_lt (by omega)]
    simp only [hc, decide_true, Bool.toNat_true]
    omega
  · rw [Nat.mod_eq_of_lt (by omega)]
    simp [hc]

/-- One addition of a chain: the register and the carry the PSW then holds are the exact sum. -/
theorem putCc64_addLogical_exact (s : State) (ilen : Nat) (r1 : Reg) (a b : Dword) (cin : Bool) :
    ∃ t, s.putCc64 ilen r1 (addLogical a b cin) = .next t ∧
      (t.gr r1).toNat + carryIn t * 2 ^ 64 = a.toNat + b.toNat + cin.toNat ∧ ∀ r, r ≠ r1 → t.gr r = s.gr r := by
  refine ⟨_, State.putCc64_eq .., ?_, fun r hr => State.gr_setGr_of_ne s _ hr.symm⟩
  rw [carryIn_eq_toNat_carry, State.gr_advance, State.gr_setCc, State.gr_setGr_self]
  exact addLogical_exact a b cin

/-- Settles O19: the low sum carries into the high one by the condition code, and the high one carries out by it. -/
theorem carryChainAddsDoubleWidth : Obligations.CarryChainAddsDoubleWidth := by
  intro s l1 l2 h1 h2 hne1 hne2
  obtain ⟨u, heu, hlow, hu⟩ := putCc64_addLogical_exact s 4 l1 (s.gr l1) (s.gr l2) false
  obtain ⟨t, het, hhigh, ht⟩ := putCc64_addLogical_exact u 4 h1 (u.gr h1) (u.gr h2) u.psw.carry
  refine ⟨u, t, heu, het, ?_⟩
  rw [hu h1 hne1, hu h2 hne2, ← carryIn_eq_toNat_carry] at hhigh
  rw [Bool.toNat_false] at hlow
  rw [ht l1 hne1.symm]
  omega

/-- Settles O20: code 2 has its left bit one, so the carry in is one. -/
theorem compareHighLeavesCarry : Obligations.CompareHighLeavesCarry := by
  intro s i ilen x y h hlt
  obtain ⟨-, -, hhigh, -⟩ := compareCode_iff x y
  have hcode : compareCode x y = 2 := hhigh.mpr hlt
  have hcarry : ((s.setCc (compareCode x y)).advance ilen).psw.carry = true := by
    rw [hcode]
    exact (by decide : (2 : Cc).msb = true)
  refine ⟨_, exec_of_compared h, (getMsbD_toBits_carry _).trans hcarry, fun j jlen r1 wide z hj => ?_⟩
  obtain ⟨-, hadd⟩ := addLogicalWithCarryCompletes ((s.setCc (compareCode x y)).advance ilen)
  obtain ⟨t, he, hgr, -⟩ := hadd j jlen r1 wide z hj
  refine ⟨t, he, hgr.trans ?_⟩
  rw [carryIn_eq_toNat_carry, hcarry]
  rfl

/-! ## AND (`44_and.md` R141 to R146) -/

/-- In state `s` the instruction `i` puts the product of `a` and `b`, and its code, in `r1` and the PSW. -/
def AndsOperands (s : State) (i : Instr) (ilen : Nat) (r1 : Reg) (wide : Bool) (a b : Dword) : Prop :=
  if wide then exec i s = s.putCc64 ilen r1 (andLaw a b)
  else ∃ v w : Word, a = v.setWidth 64 ∧ b = w.setWidth 64 ∧ exec i s = s.putCc32 ilen r1 (andLaw v w)

theorem andsOperands_of_andOperands {s : State} {i : Instr} {ilen : Nat} {r1 : Reg} {wide : Bool} {a b : Dword}
    (h : AndOperands s i ilen r1 wide a b) : AndsOperands s i ilen r1 wide a b := by
  cases h with
  | nr r1 r2 => exact ⟨_, _, rfl, rfl, rfl⟩
  | ngr r1 r2 => rfl
  | n r1 x2 b2 d2 ha => exact ⟨_, _, rfl, rfl, by simp only [exec, execN, withWord_of_admitted ha]⟩
  | ny r1 x2 b2 d2 hf ha =>
    exact ⟨_, _, rfl, rfl, by simp only [exec, execNy, State.withFacility_installed _ _ _ hf, withWord_of_admitted ha]⟩
  | ng r1 x2 b2 d2 ha =>
    show exec _ s = _
    simp only [exec, execNg, withDword_of_admitted ha]

theorem ofInt_toInt_setWidth (w : Word) : BitVec.ofInt 32 (w.setWidth 64 : Dword).toInt = w := by
  have hlt : 2 * (w.setWidth 64 : Dword).toNat < 2 ^ 64 := by
    rw [toNat_setWidth_word]
    have := w.isLt
    omega
  rw [BitVec.toInt_eq_toNat_of_lt hlt, toNat_setWidth_word, BitVec.ofInt_natCast, BitVec.ofNat_toNat, BitVec.setWidth_eq]

/-- A product of zero-extended words is the zero-extended product of the words. -/
theorem setWidth_and_word (v w : Word) :
    BitVec.ofInt 32 (v.setWidth 64 &&& w.setWidth 64 : Dword).toInt = v &&& w ∧
      ((v.setWidth 64 &&& w.setWidth 64 : Dword) = 0 ↔ v &&& w = 0) := by
  rw [← BitVec.setWidth_and]
  refine ⟨ofInt_toInt_setWidth _, ?_⟩
  rw [← BitVec.toNat_inj, ← BitVec.toNat_inj, toNat_setWidth_word]
  rfl

/-- Settles O9: a 32-bit product is the product of the zero-extended operands. -/
theorem andRegisterCompletes : Obligations.AndRegisterCompletes := by
  intro s i ilen r1 wide a b h
  have hand := andsOperands_of_andOperands h
  cases wide with
  | true =>
    refine ⟨_, Eq.trans hand (State.putCc64_eq ..), ?_⟩
    rw [result, if_pos rfl, BitVec.ofInt_toInt]
    exact writesGr_setGr_setCc_advance ..
  | false =>
    obtain ⟨v, w, rfl, rfl, he⟩ := hand
    obtain ⟨hvalue, hzero⟩ := setWidth_and_word v w
    refine ⟨_, he.trans (State.putCc32_eq ..), ?_⟩
    rw [result, if_neg nofun, hvalue]
    simp only [hzero]
    exact writesGr_setGrLo_setCc_advance ..

/-- Settles O10: the byte is stored at the address it was fetched from, which is already reduced to the mode. -/
theorem andImmediateStoresOneByte : Obligations.AndImmediateStoresOneByte := by
  intro s b1 d1 i2 hw hfetch hstore
  have hwrap : s.wrap (s.eaB (shortDisp d1) b1) = s.eaB (shortDisp d1) b1 := wrap_eaX ..
  have he : exec (.ni b1 d1 i2) s = .next (((s.setMem (s.mem.write (s.eaB (shortDisp d1) b1).toNat
      (byteAt s (s.eaB (shortDisp d1) b1) 0 &&& i2))).setCc
      (if byteAt s (s.eaB (shortDisp d1) b1) 0 &&& i2 = 0 then 0 else 1)).advance 4) := by
    simp only [exec, execNi, State.withOperand_of_admitted (firstDenied_of_admitted hfetch), ofNat_bigEndian_byte,
      State.storeByte_of_admitted _ (firstDenied_of_admitted hstore), hwrap]
    rfl
  refine ⟨_, he, ?_, fun a ha => Memory.read_write_ne s.mem _ ha, fun _ => rfl, fun _ => rfl, rfl, rfl, rfl, rfl, rfl⟩
  exact (Memory.read_write hw _ _ _).trans (if_pos rfl)

/-! ## INSERT PROGRAM MASK (`47_insert_program_mask.md` R170, R171) -/

/-- The register after IPM. -/
def maskInserted (s : State) (r1 : Reg) : Dword :=
  hi32 (s.gr r1) ++ (0 : BitVec 2) ++ s.psw.cc ++ s.psw.pm ++ (s.gr r1).extractLsb' 0 24

theorem exec_ipm (r1 : Reg) (s : State) :
    exec (.ipm r1) s = .next ((s.setGr r1 (maskInserted s r1)).advance 4) := rfl

theorem bitField_maskInserted (s : State) (r1 : Reg) (a k : Nat) : bitField (maskInserted s r1) a k =
    bitField (hi32 (s.gr r1) ++ (0 : BitVec 2) ++ s.psw.cc ++ s.psw.pm ++ bitField (s.gr r1) 40 24) a k := rfl

/-- Settles O12: the fields of the register, which is put together from them. -/
theorem insertProgramMaskCompletes : Obligations.InsertProgramMaskCompletes := by
  intro s r1
  refine ⟨_, maskInserted s r1, exec_ipm r1 s, writesGr_setGr_setCc_advance s r1 (maskInserted s r1) s.psw.cc 4,
    ?_, ?_, ?_, ?_, ?_⟩ <;>
    simp (disch := decide) only [bitField_maskInserted, bitField_append_left, bitField_append_right, bitField_all,
      -Nat.reduceAdd]
  rfl

/-- Shifting and masking a low word takes a field of it. -/
theorem lo32_shift_and (v : Dword) (a k : Nat) (hak : 32 ≤ a ∧ a + k ≤ 64) :
    (lo32 v >>> (64 - a - k)) &&& BitVec.ofNat 32 (2 ^ k - 1) = (bitField v a k).setWidth 32 := by
  refine BitVec.eq_of_getLsbD_eq fun i hi => ?_
  simp only [BitVec.getLsbD_and, BitVec.getLsbD_ushiftRight, lo32, bitField, BitVec.getLsbD_extractLsb',
    BitVec.getLsbD_setWidth, BitVec.getLsbD_ofNat, Nat.testBit_two_pow_sub_one, hi, decide_true, Bool.true_and,
    Nat.zero_add]
  by_cases hk : i < k
  · have hin : 64 - a - k + i < 32 := by omega
    simp [hk, hin]
  · simp [hk]

theorem bitField_bitField {n m : Nat} (w : BitVec n) {a k l : Nat} (h : a + (k + l) ≤ n) (hm : m = k + l) :
    bitField (bitField w a m) 0 k = bitField w a k := by
  subst hm
  rw [← bitField_append_bitField w a k l (by omega), bitField_append_left _ _ (by omega), bitField_all]

/-- Settles O13: the fields of O12, and the leftmost bit of the program mask. -/
theorem insertedMaskReadsBack : Obligations.InsertedMaskReadsBack := by
  intro s t r1 h
  obtain ⟨t', v, he, ⟨hv, -⟩, -, hcc, hpm, -⟩ := insertProgramMaskCompletes s r1
  rw [he] at h
  cases h
  rw [hv]
  refine ⟨(lo32_shift_and v 34 2 (by decide)).trans (by rw [hcc]), (lo32_shift_and v 36 4 (by decide)).trans (by rw [hpm]),
    (lo32_shift_and v 36 1 (by decide)).trans ?_⟩
  rw [← bitField_bitField v (m := 4) (l := 3) (by decide) rfl, hpm, Psw.foMask]
  generalize s.psw.pm = pm
  revert pm
  decide

end Sys2Proof.Proofs

namespace Sys2Proof.Proofs

open Sys2Proof.Machine Sys2Proof.Claims

/-! ## LOAD (`48_load.md` R175 to R181) -/

theorem exec_of_loaded {s : State} {i : Instr} {ilen : Nat} {r1 : Reg} {v : Dword} (h : Loaded s i ilen r1 v) :
    exec i s = .next ((s.setGr r1 v).advance ilen) := by
  cases h with
  | lr r1 r2 => rfl
  | lgr r1 r2 => rfl
  | lgfr r1 r2 => rfl
  | l r1 x2 b2 d2 ha => simp only [exec, execL, withWord_of_admitted ha, State.complete_eq]; rfl
  | ly r1 x2 b2 d2 hf ha =>
    simp only [exec, execLy, State.withFacility_installed _ _ _ hf, withWord_of_admitted ha, State.complete_eq]; rfl
  | lg r1 x2 b2 d2 ha => simp only [exec, execLg, withDword_of_admitted ha, State.complete_eq]
  | lgf r1 x2 b2 d2 ha => simp only [exec, execLgf, withWord_of_admitted ha, State.complete_eq]; rfl

/-- Settles O14: the value is put in place and the code is put back as it was. -/
theorem loadCompletes : Obligations.LoadCompletes :=
  fun s _ ilen r1 v h => ⟨_, exec_of_loaded h, writesGr_setGr_setCc_advance s r1 v s.psw.cc ilen⟩

/-! ## LOAD ACCESS MULTIPLE (`49_load_access_and_address.md` R190, R191) -/

theorem exec_of_accessLoad {s : State} {i : Instr} {ilen : Nat} {r1 r3 : Reg} {addr : Dword}
    (h : AccessLoad s i ilen r1 r3 addr) : exec i s = s.loadAccessMultiple ilen r1 r3 addr := by
  cases h with
  | lam r1 r3 b2 d2 => rfl
  | lamy r1 r3 b2 d2 hf => simp only [exec, execLamy, State.withFacility_installed _ _ _ hf]

theorem add_ofNat_add (a : Dword) (j k : Nat) :
    a + BitVec.ofNat 64 j + BitVec.ofNat 64 k = a + BitVec.ofNat 64 (j + k) := by
  rw [BitVec.add_assoc, ← BitVec.ofNat_add]

/-- Every word of an admitted operand is admitted. -/
theorem admitted_word {s : State} {a : Dword} {n k : Nat} (h : Admitted s .fetch a (4 * n)) (hk : k < n) :
    Admitted s .fetch (a + BitVec.ofNat 64 (4 * k)) 4 := by
  intro j hj
  rw [add_ofNat_add]
  exact h (4 * k + j) (by omega)

/-- The `n` words from `a` on. -/
def wordsAt (s : State) (a : Dword) (n : Nat) : List Word :=
  (List.range n).map fun k => wordAt s (a + BitVec.ofNat 64 (4 * k))

theorem length_wordsAt (s : State) (a : Dword) (n : Nat) : (wordsAt s a n).length = n := by
  simp [wordsAt]

theorem fetchWords_of_admitted {s : State} {a : Dword} {n : Nat} (h : Admitted s .fetch a (4 * n)) :
    s.fetchWords a n = .ok (wordsAt s a n) := by
  rw [State.fetchWords_of_admitted n fun k hk => firstDenied_of_admitted (admitted_word h hk)]
  simp only [ofNat_bigEndian_word, wordsAt]

/-- The access register `k` places after the first receives the word `k` places on, and those further on none. -/
theorem ar_setArs_wordsAt (s : State) (a : Dword) (r1 r3 r : Reg) :
    (s.setArs r1 (wordsAt s a ((r3 - r1).toNat + 1))).ar r = if (r - r1).toNat ≤ (r3 - r1).toNat
      then wordAt s (a + BitVec.ofNat 64 (4 * (r - r1).toNat)) else s.ar r := by
  have hlength := length_wordsAt s a ((r3 - r1).toNat + 1)
  split
  · next hnear =>
    have hsixteen := (r3 - r1).isLt
    rw [State.ar_setArs_of_near _ s r1 r (by omega) (by omega)]
    simp [wordsAt]
  · next hfar => exact State.ar_setArs_of_far _ s r1 r (by omega)

/-- The first word with a denied byte stops the fetch there, and reports that byte. -/
theorem fetchWords_of_deniedAt {s : State} {d : Dword} (n : Nat) : ∀ {a : Dword}, DeniedAt s .fetch a (4 * n) d →
    s.fetchWords a n = .error d := by
  induction n with
  | zero => rintro a ⟨k, hk, -⟩; omega
  | succ n ih =>
    rintro a ⟨k, hk, hd, hdenied, hbefore⟩
    by_cases hfirst : k < 4
    · have hword : s.firstDenied .fetch a 4 = some d := firstDenied_of_deniedAt ⟨k, hfirst, hd, hdenied, hbefore⟩
      simp only [State.fetchWords, State.fetch_of_denied hword]
    · have hword : s.firstDenied .fetch a 4 = none := firstDenied_of_admitted fun j hj => hbefore j (by omega)
      have hrest : DeniedAt s .fetch (a + BitVec.ofNat 64 4) (4 * n) d := by
        refine ⟨k - 4, by omega, ?_, hdenied, fun j hj => ?_⟩
        · rw [add_ofNat_add, Nat.add_sub_cancel' (by omega)]
          exact hd
        · rw [add_ofNat_add]
          exact hbefore (4 + j) (by omega)
      have hwords : s.fetchWords (a + 4) n = .error d := ih hrest
      simp only [State.fetchWords, State.fetch_of_admitted hword, hwords]

/-- Settles O15: the word for each register is that of its distance from R1. -/
theorem loadAccessMultipleCompletes : Obligations.LoadAccessMultipleCompletes := by
  intro s i ilen r1 r3 addr h haligned hadmitted
  have he : exec i s = .next ((s.setArs r1 (wordsAt s addr ((r3 - r1).toNat + 1))).advance ilen) := by
    rw [exec_of_accessLoad h, State.loadAccessMultiple, if_neg (not_not.mpr haligned), accessRegisterCount,
      fetchWords_of_admitted hadmitted]
    rfl
  obtain ⟨hgrs, hpsw, hmem, hlaunch⟩ := State.setArs_frame (wordsAt s addr ((r3 - r1).toNat + 1)) s r1
  refine ⟨_, he, fun r => ar_setArs_wordsAt s addr r1 r3 r, fun r => ?_, fun a => ?_, ?_, hlaunch⟩
  · rw [State.gr_advance, State.gr, State.gr, hgrs]
  · rw [State.advance_mem, hmem]
  · rw [PswAfter, State.advance_psw, State.wrap, hpsw]
    rfl

/-! ## LOAD ADDRESS and LOAD ADDRESS EXTENDED (`49_load_access_and_address.md` R195, R203) -/

/-- The four values of the address-space control (R203). -/
theorem extendedAccess_of_asc (s : State) (b2 : Reg) :
    (s.psw.asc = 0 → s.extendedAccess b2 = 0) ∧
      (s.psw.asc = 1 → s.extendedAccess b2 = if b2 = 0 then 0 else s.ar b2) ∧
      (s.psw.asc = 2 → s.extendedAccess b2 = 1) ∧ (s.psw.asc = 3 → s.extendedAccess b2 = 2) := by
  unfold State.extendedAccess
  refine ⟨fun h => ?_, fun h => ?_, fun h => ?_, fun h => ?_⟩ <;> rw [h] <;> rfl

theorem exec_lae (r1 x2 b2 : Reg) (d2 : Nat) (s : State) : exec (.lae r1 x2 b2 d2) s =
    .next (((s.setGr r1 (placed s r1 (s.eaX (shortDisp d2) x2 b2))).setAr r1 (s.extendedAccess b2)).advance 4) := by
  simp only [exec, execLae, placeAddress_eq_setGr_placed, State.complete_eq]

/-- Settles O17: LAE places its address as LA does, and loads the access register from the state before. -/
theorem loadAddressExtendedCompletes : Obligations.LoadAddressExtendedCompletes := by
  intro s r1 x2 b2 d2
  obtain ⟨h0, h1, h2, h3⟩ := extendedAccess_of_asc s b2
  refine ⟨_, exec_lae r1 x2 b2 d2 s, State.gr_setGr_self .., fun r hr => State.gr_setGr_of_ne s _ hr.symm, ?_, ?_, ?_, ?_,
    fun r hr => State.ar_setAr_of_ne _ _ hr.symm, fun _ => rfl, rfl, rfl, rfl, rfl, rfl⟩ <;>
    rw [State.ar_advance, State.ar_setAr_self]
  · exact h0
  · exact h1
  · exact h2
  · exact h3

/-- Settles O53: neither the address nor its placing reads storage or the regions. -/
theorem loadAddressIgnoresStorage : Obligations.LoadAddressIgnoresStorage := by
  intro s i ilen r1 ea m l h
  have h' : AddressLoad { s with mem := m, admits := l } i ilen r1 ea := by
    cases h with
    | la r1 x2 b2 d2 => exact .la r1 x2 b2 d2
    | lay r1 x2 b2 d2 hf => exact .lay r1 x2 b2 d2 hf
  exact ⟨_, exec_of_addressLoad h, exec_of_addressLoad h'⟩

/-! ## Where instructions trap (`60_exceptions.md` R213 to R216) -/

/-- Settles O21: the facility is looked at before anything else. -/
theorem facilityAbsentTraps : Obligations.FacilityAbsentTraps := by
  intro s i h hf
  have hraise : s.raise .operation 6 = .next ((s.advance 6).interrupt .operation 3) :=
    congrArg Host.Outcome.next (State.suppress_of_not_access s 3 nofun)
  rw [← hraise]
  cases h <;> exact State.withFacility_absent s 6 _ hf

/-- Settles O22: the boundary is looked at before any storage reference. -/
theorem accessMultipleOffBoundaryTraps : Obligations.AccessMultipleOffBoundaryTraps := by
  intro s i ilen r1 r3 addr h hoff
  have heven : 2 * (ilen / 2) = ilen := by cases h <;> rfl
  rw [exec_of_accessLoad h, State.loadAccessMultiple, if_pos hoff, State.raise_eq,
    State.suppress_of_not_access s (e := .specification) _ nofun, heven]

theorem loadAccessMultiple_of_denied {s : State} {ilen : Nat} {r1 r3 : Reg} {a d : Dword} (haligned : a.toNat % 4 = 0)
    (hd : DeniedAt s .fetch a (4 * ((r3 - r1).toNat + 1)) d) :
    s.loadAccessMultiple ilen r1 r3 a = s.raise (.access .fetch d) ilen := by
  rw [State.loadAccessMultiple, if_neg (not_not.mpr haligned), accessRegisterCount, fetchWords_of_deniedAt _ hd]

/-- Settles O23: every form fetches its operand before it does anything else. -/
theorem operandNotAdmittedTraps : Obligations.OperandNotAdmittedTraps := by
  intro s i ilen a d n h hdenied
  have hfirst := firstDenied_of_deniedAt hdenied
  rw [← State.raise_eq]
  cases h with
  | a | ah | al | n | c | l =>
    simp only [exec, execA, execAh, execAl, execN, execC, execL, State.withHalf, State.withWord,
      State.withOperand_of_denied hfirst]
  | ag | agf | alg | algf | alc | alcg | ng | cg | cgf | lg | lgf =>
    simp only [exec, execAg, execAgf, execAlg, execAlgf, execAlc, execAlcg, execNg, execCg, execCgf, execLg, execLgf,
      State.withWord, State.withDword, State.withOperand_of_denied hfirst]
  | ay _ _ _ _ hf | ahy _ _ _ _ hf | aly _ _ _ _ hf | ny _ _ _ _ hf | cy _ _ _ _ hf | ly _ _ _ _ hf =>
    simp only [exec, execAy, execAhy, execAly, execNy, execCy, execLy, State.withFacility_installed _ _ _ hf,
      State.withHalf, State.withWord, State.withOperand_of_denied hfirst]
  | ni => simp only [exec, execNi, State.withOperand_of_denied hfirst]
  | lam r1 r3 b2 d2 hb => exact loadAccessMultiple_of_denied hb hdenied
  | lamy r1 r3 b2 d2 hf hb =>
    exact (State.withFacility_installed s 6 _ hf).trans (loadAccessMultiple_of_denied hb hdenied)

/-- Settles O24: NI's fetch goes through and its store does not. -/
theorem andImmediateStoreNotAdmittedTraps : Obligations.AndImmediateStoreNotAdmittedTraps := by
  intro s b1 d1 i2 hfetch hstore
  have hdenied : DeniedAt s .store (s.eaB (shortDisp d1) b1) 1 (s.eaB (shortDisp d1) b1) :=
    ⟨0, Nat.one_pos, by rw [BitVec.add_zero]; exact (wrap_eaX ..).symm, hstore, fun k hk => absurd hk (Nat.not_lt_zero k)⟩
  simp only [exec, execNi, State.withOperand_of_admitted (firstDenied_of_admitted hfetch),
    State.storeByte_of_denied _ (firstDenied_of_deniedAt hdenied), State.raise_eq]

end Sys2Proof.Proofs
